-- ==== Sys2Proof/Word.lean ====
section
/-! DEFINITION. The word and byte types of the windowed FFT unit and the plainest readings of a
word as a number (00_scope.md R11, R13; 20_memory.md R203, R208, R209).

Every register and every buffer word is 32 bits wide (R203). Indices, lengths and counts are
unbounded `Nat`s (R13); a word enters such a computation through `toNat` (uint32) or `toInt`
(int32, two's complement). -/

namespace Sys2Proof

/-- A register or buffer word: 32 bits, bit 0 the least significant (R11, R203). -/
abbrev Word := BitVec 32

/-- One byte lane of a word, as an interconnect may present it (R208). -/
abbrev Byte := BitVec 8

/-- The word `+0.0`, all bits zero (R18). -/
abbrev posZero : Word := 0x00000000#32

end Sys2Proof
end

