-- ==== Sys2Proof/Syntax.lean ====
section
/-! DEFINITION. The commands of the block, one constructor per row of spec/opcode_table.json
(30_encoding.md R301, R303, R307). -/

namespace Sys2Proof

/-- The mode bit M of FRAME and ANALYZE (R300): `.C` contiguous (display) mode, M = 0, and `.O`
overlap (OLA) mode, M = 1. -/
inductive Mode where
  | contiguous
  | overlap
deriving DecidableEq, Repr

/-- A command. The operand `c` is the chunk index IDX, zero-extended to an unbounded integer
(R302). -/
inductive Instr where
  | nop                          -- NOP
  | config                       -- CONFIG
  | fwd (c : Nat)                -- FWD c
  | inv (c : Nat)                -- INV c
  | frame (m : Mode) (c : Nat)   -- FRAME.C c, FRAME.O c
  | analyze (m : Mode)           -- ANALYZE.C, ANALYZE.O
  | olaClear                     -- OLA_CLEAR
  | olaAdd (c : Nat)             -- OLA_ADD c
  | olaScale                     -- OLA_SCALE
  | synth                        -- SYNTH
  | synthOla                     -- SYNTH_OLA
  | band                         -- BAND
  | zeroBand                     -- ZERO_BAND
  | mag                          -- MAG
  | trim                         -- TRIM
  | db                           -- DB
deriving DecidableEq, Repr

end Sys2Proof
end

