-- ==== Sys2Proof/WellFormed.lean ====
section
/-! DEFINITION. Which commands have an encoding: the chunk index fits the 16-bit field IDX
(30_encoding.md R300, R307: 0 ≤ c ≤ 65535). -/

namespace Sys2Proof

/-- The chunk index of a command, 0 for a format without one (R301, R302). -/
def Instr.idx : Instr → Nat
  | .nop => 0
  | .config => 0
  | .fwd c => c
  | .inv c => c
  | .frame _ c => c
  | .analyze _ => 0
  | .olaClear => 0
  | .olaAdd c => c
  | .olaScale => 0
  | .synth => 0
  | .synthOla => 0
  | .band => 0
  | .zeroBand => 0
  | .mag => 0
  | .trim => 0
  | .db => 0

/-- The command has an encoding: IDX fits 16 bits (R300). -/
abbrev Instr.WellFormed (i : Instr) : Prop := i.idx < 2 ^ 16

end Sys2Proof
end

