-- ==== Sys2Proof/Decode.lean ====
section
/-! DEFINITION. The decoder, total on all 2^32 command words, and the encoder (30_encoding.md
R300 to R306, 60_exceptions.md R710 steps 1 and 2). A word that is no command is refused by name:
its opcode is reserved (R304), or a field its format fixes at zero is not zero (R305); the opcode
is checked first. -/

namespace Sys2Proof

/-- Why a command word is no command. -/
inductive DecodeError where
  /-- The opcode is reserved (R304); completes with ILLEGAL_OPCODE, 0x20. -/
  | illegalOpcode
  /-- A fixed-zero field is not zero (R305); completes with ILLEGAL_FIELD, 0x21. -/
  | illegalField
deriving DecidableEq, Repr

/-- OPC, bits 7:0 (R300). -/
def opcField (w : Word) : Nat := w.toNat % 2 ^ 8

/-- M, bit 8 (R300). -/
def modeField (w : Word) : Mode := if w.toNat / 2 ^ 8 % 2 = 0 then .contiguous else .overlap

/-- IDX, bits 31:16 (R300, R302). -/
def idxField (w : Word) : Nat := w.toNat / 2 ^ 16

/-- Format Z: bits 31:8 are fixed at zero (R301). -/
def formatZ (w : Word) (i : Instr) : Except DecodeError Instr :=
  if w.toNat / 2 ^ 8 = 0 then .ok i else .error .illegalField

/-- Format I: bits 15:8 are fixed at zero, IDX is used (R301). -/
def formatI (w : Word) (f : Nat → Instr) : Except DecodeError Instr :=
  if w.toNat / 2 ^ 8 % 2 ^ 8 = 0 then .ok (f (idxField w)) else .error .illegalField

/-- Format MI: bits 15:9 are fixed at zero, M and IDX are used (R301). -/
def formatMI (w : Word) (f : Mode → Nat → Instr) : Except DecodeError Instr :=
  if w.toNat / 2 ^ 9 % 2 ^ 7 = 0 then .ok (f (modeField w) (idxField w))
  else .error .illegalField

/-- Format MZ: bits 31:16 and 15:9 are fixed at zero, M is used (R301). -/
def formatMZ (w : Word) (f : Mode → Instr) : Except DecodeError Instr :=
  if w.toNat / 2 ^ 9 = 0 then .ok (f (modeField w)) else .error .illegalField

/-- The opcode map of R303. -/
def decode (w : Word) : Except DecodeError Instr :=
  match opcField w with
  | 0x00 => formatZ w .nop
  | 0x01 => formatZ w .config
  | 0x10 => formatI w .fwd
  | 0x11 => formatI w .inv
  | 0x20 => formatMI w .frame
  | 0x21 => formatMZ w .analyze
  | 0x30 => formatZ w .olaClear
  | 0x31 => formatI w .olaAdd
  | 0x32 => formatZ w .olaScale
  | 0x33 => formatZ w .synth
  | 0x34 => formatZ w .synthOla
  | 0x40 => formatZ w .band
  | 0x41 => formatZ w .zeroBand
  | 0x50 => formatZ w .mag
  | 0x51 => formatZ w .trim
  | 0x52 => formatZ w .db
  | _ => .error .illegalOpcode

/-- The instruction the decoder reads from the `nbits` low bits of `w`, the bits above them
zero. A command is one 32-bit word (R300), stored as one word. -/
def decodeTableWord (nbits w : Nat) : Option Instr :=
  match decode (BitVec.ofNat 32 (w % 2 ^ nbits)) with
  | .ok i => some i
  | .error _ => none

/-- The mode bit (R300). -/
def Mode.bit : Mode → Nat
  | .contiguous => 0
  | .overlap => 1

/-- The opcode of a command (R303). -/
def Instr.opcode : Instr → Nat
  | .nop => 0x00
  | .config => 0x01
  | .fwd _ => 0x10
  | .inv _ => 0x11
  | .frame _ _ => 0x20
  | .analyze _ => 0x21
  | .olaClear => 0x30
  | .olaAdd _ => 0x31
  | .olaScale => 0x32
  | .synth => 0x33
  | .synthOla => 0x34
  | .band => 0x40
  | .zeroBand => 0x41
  | .mag => 0x50
  | .trim => 0x51
  | .db => 0x52

/-- The mode bit of a command, 0 for a format without one (R301). -/
def Instr.modeBit : Instr → Nat
  | .nop => 0
  | .config => 0
  | .fwd _ => 0
  | .inv _ => 0
  | .frame m _ => m.bit
  | .analyze m => m.bit
  | .olaClear => 0
  | .olaAdd _ => 0
  | .olaScale => 0
  | .synth => 0
  | .synthOla => 0
  | .band => 0
  | .zeroBand => 0
  | .mag => 0
  | .trim => 0
  | .db => 0

/-- The word of a command: `(c << 16) OR (M << 8) OR OPC` (R307). -/
def encode (i : Instr) : Word := BitVec.ofNat 32 (i.idx * 2 ^ 16 + i.modeBit * 2 ^ 8 + i.opcode)

/-- The `mask` column of R303. -/
def Instr.mask : Instr → Word
  | .nop => 0xFFFFFFFF#32
  | .config => 0xFFFFFFFF#32
  | .fwd _ => 0x0000FFFF#32
  | .inv _ => 0x0000FFFF#32
  | .frame _ _ => 0x0000FEFF#32
  | .analyze _ => 0xFFFFFEFF#32
  | .olaClear => 0xFFFFFFFF#32
  | .olaAdd _ => 0x0000FFFF#32
  | .olaScale => 0xFFFFFFFF#32
  | .synth => 0xFFFFFFFF#32
  | .synthOla => 0xFFFFFFFF#32
  | .band => 0xFFFFFFFF#32
  | .zeroBand => 0xFFFFFFFF#32
  | .mag => 0xFFFFFFFF#32
  | .trim => 0xFFFFFFFF#32
  | .db => 0xFFFFFFFF#32

/-- The `match` column of R303. -/
def Instr.matchWord (i : Instr) : Word := BitVec.ofNat 32 i.opcode

end Sys2Proof
end

