-- ==== Sys2Proof/Machine/Binary32.lean ====
section
/-! DEFINITION. IEEE 754 binary32 arithmetic on words: layout, the one rounding, and the four
operations, the ordered comparison and the floor that the commands use
(00_scope.md R15 to R19, 20_memory.md R209).

A finite value is an integer multiple of 2^-149, the smallest subnormal, so a finite operand is
held as its sign and the exact natural number of those units. Every finite result is an exact
rational number of units, rounded once by `roundUnits` (R16: round to nearest, ties to even,
gradual underflow, nothing fused).

A NaN result has no specified payload or sign (R17). Each operation therefore takes the NaN word
it is to answer as its first argument `nan`, and the caller supplies a free value
(`Config.nan` of the place where the result arises). -/

namespace Sys2Proof.Binary32

/-- `+infinity`. -/
abbrev posInf : Word := 0x7F800000#32
/-- `−infinity` (R18). -/
abbrev negInf : Word := 0xFF800000#32
/-- `−0.0`. -/
abbrev negZero : Word := 0x80000000#32
/-- `1.0` (R18). -/
abbrev one : Word := 0x3F800000#32
/-- `2.0` (R18). -/
abbrev two : Word := 0x40000000#32
/-- `20.0` (R18). -/
abbrev twenty : Word := 0x41A00000#32

/-- The sign bit, bit 31 (R209). -/
def signBit (w : Word) : Bool := decide (2 ^ 31 ≤ w.toNat)

/-- Biased exponent and fraction together, bits 30:0, as a number: the order of the magnitudes
is the order of these numbers (R209). -/
def magBits (w : Word) : Nat := w.toNat % 2 ^ 31

/-- The bits of `+infinity`, the first `magBits` that is not a finite magnitude (R209). -/
abbrev infBits : Nat := 0x7F800000

/-- Exponent all ones and fraction non-zero (R17, R209). -/
def isNaN (w : Word) : Bool := decide (infBits < magBits w)

/-- `+infinity` or `−infinity`. -/
def isInf (w : Word) : Bool := decide (magBits w = infBits)

/-- Neither an infinity nor a NaN. -/
def isFinite (w : Word) : Bool := decide (magBits w < infBits)

/-- `+0.0` or `−0.0`. -/
def isZero (w : Word) : Bool := decide (magBits w = 0)

/-- The finite magnitude with bits `b` in units of 2^-149 (R209): a subnormal has exponent
field 0, a normal one an implicit leading 1. -/
def magUnits (b : Nat) : Nat :=
  if b / 2 ^ 23 = 0 then b % 2 ^ 23 else (b % 2 ^ 23 + 2 ^ 23) * 2 ^ (b / 2 ^ 23 - 1)

/-- A finite word's exact value in units of 2^-149. -/
def units (w : Word) : Int :=
  if signBit w then -(magUnits (magBits w) : Int) else (magUnits (magBits w) : Int)

/-- A finite word's exact value (R15); meaningful only where `isFinite`. -/
def value (w : Word) : ℚ := (units w : ℚ) / 2 ^ 149

/-- The word with the given sign and the given bits 30:0. -/
def withSign (neg : Bool) (bits : Nat) : Word :=
  BitVec.ofNat 32 ((if neg then 2 ^ 31 else 0) + bits)

/-- The word with its sign bit inverted. -/
def negate (w : Word) : Word := withSign (!signBit w) (magBits w)

/-- Any 32 bits made a NaN: sign and payload are the given bits, a zero payload becomes 1. Every
NaN pattern is the image of itself, so a free argument gives a free NaN (R17). -/
def nanOfBits (w : Word) : Word :=
  withSign (signBit w) (infBits + (if w.toNat % 2 ^ 23 = 0 then 1 else w.toNat % 2 ^ 23))

/-- The bits 30:0 of the binary32 magnitude nearest to `num / den` units of 2^-149, ties to the
even one, infinity from the overflow threshold on (R16). `s` is the exponent of the quantum:
0 in the subnormal range and the first binade, and the excess of the integer part's length over
24 bits above it; a mantissa that rounds up to 2^24 carries into the exponent field by itself. -/
def roundUnits (num den : Nat) : Nat :=
  let s := Nat.log2 (num / den) - 23
  let q := den * 2 ^ s
  let m := num / q
  let r := num % q
  let up := if q < 2 * r then 1 else if 2 * r = q then m % 2 else 0
  min (s * 2 ^ 23 + (m + up)) infBits

/-- `num / den` units of 2^-149 with a sign, rounded to binary32. -/
def round (neg : Bool) (num den : Nat) : Word := withSign neg (roundUnits num den)

/-- The binary32 value nearest to a natural number. -/
def ofNat (n : Nat) : Word := round false (n * 2 ^ 149) 1

/-- `pow2(e)` for −126 ≤ e ≤ 127: the binary32 value 2^e, exact (R18). -/
def pow2 (e : Int) : Word := BitVec.ofNat 32 ((e + 127).toNat * 2 ^ 23)

/-- The exact sum of two finite operands, rounded. Equal magnitudes of opposite signs give
`+0.0`; two zeros of one sign keep it (R16, IEEE 754 in round-to-nearest). -/
def addFinite (a b : Word) : Word :=
  let x := magUnits (magBits a)
  let y := magUnits (magBits b)
  if signBit a = signBit b then round (signBit a) (x + y) 1
  else if y < x then round (signBit a) (x - y) 1
  else if x < y then round (signBit b) (y - x) 1
  else posZero

/-- `add32(a, b)` (R16): NaN in, NaN out; the sum of opposite infinities is a NaN. -/
def add32 (nan a b : Word) : Word :=
  if isNaN a || isNaN b then nan
  else if isInf a then
    (if isInf b && signBit a != signBit b then nan else a)
  else if isInf b then b
  else addFinite a b

/-- `sub32(a, b)` (R16): the sum with the second operand's sign inverted. -/
def sub32 (nan a b : Word) : Word := add32 nan a (negate b)

/-- `mul32(a, b)` (R16): 0 · infinity is a NaN. -/
def mul32 (nan a b : Word) : Word :=
  let neg := signBit a != signBit b
  if isNaN a || isNaN b then nan
  else if isInf a || isInf b then
    (if isZero a || isZero b then nan else withSign neg infBits)
  else round neg (magUnits (magBits a) * magUnits (magBits b)) (2 ^ 149)

/-- `div32(a, b)` (R16): infinity / infinity and 0 / 0 are NaNs; a non-zero finite value over
zero is an infinity. -/
def div32 (nan a b : Word) : Word :=
  let neg := signBit a != signBit b
  if isNaN a || isNaN b then nan
  else if isInf a then (if isInf b then nan else withSign neg infBits)
  else if isInf b then withSign neg 0
  else if isZero b then (if isZero a then nan else withSign neg infBits)
  else round neg (magUnits (magBits a) * 2 ^ 149) (magUnits (magBits b))

/-- A number that orders every word that is not a NaN as its value is ordered, the infinities
at the ends and the two zeros equal. -/
def orderKey (w : Word) : Int := if signBit w then -(magBits w : Int) else (magBits w : Int)

/-- The ordered comparison `a > b`, false when either side is a NaN (45_display.md R655). -/
def gt32 (a b : Word) : Bool :=
  !isNaN a && !isNaN b && decide (orderKey b < orderKey a)

/-- `floorInt(v)` (R19): the mathematical floor of a finite word's exact value. -/
def floorInt (w : Word) : Int := units w / 2 ^ 149

end Sys2Proof.Binary32
end

