-- ==== Sys2Proof/Config/Ideal.lean ====
section
/-! DEFINITION. The ideal results, in exact real arithmetic, against which the open kernels are
held, and the properties the spec gives those kernels (00_scope.md R20, R21; 41_fft.md R450, R452,
R455, R457; 45_display.md R662). Ideals are given as relations between real sequences; no buffer
ever holds one (R21). -/

namespace Sys2Proof.Ideal

open Sys2Proof.Binary32

/-- `x` is the exact value of the word sequence `ws`, index by index. -/
def IsValueOf (ws : List Word) (x : Nat → ℝ) : Prop :=
  ∀ i, x i = ((value (ws.getD i posZero) : ℚ) : ℝ)

/-- R450: (`re`, `im`) is the ideal packed spectrum of the real sequence `y` of length `n`:
twice the DFT, the DC term in `re 0` and the Nyquist term in `im 0`. -/
def IsForward (n : Nat) (y re im : Nat → ℝ) : Prop :=
  (∀ k < n / 2, re k = 2 * ∑ i ∈ Finset.range n, y i * Real.cos (2 * Real.pi * k * i / n)) ∧
  im 0 = 2 * ∑ i ∈ Finset.range n, y i * (-1) ^ i ∧
  (∀ k < n / 2, 1 ≤ k →
    im k = 2 * ∑ i ∈ Finset.range n, y i * (-Real.sin (2 * Real.pi * k * i / n)))

/-- R455: `u` is the ideal unnormalised inverse of the packed spectrum (`re`, `im`). -/
def IsInverse (n : Nat) (re im u : Nat → ℝ) : Prop :=
  ∀ i < n, u i = re 0 + im 0 * (-1) ^ i +
    2 * ∑ k ∈ Finset.Ico 1 (n / 2),
      (re k * Real.cos (2 * Real.pi * k * i / n) - im k * Real.sin (2 * Real.pi * k * i / n))

/-- R410: `w` is the ideal periodic Hann window of length `n`. -/
def IsHann (n : Nat) (w : Nat → ℝ) : Prop :=
  ∀ i < n, w i = (1 / 2) * (1 - Real.cos (2 * Real.pi * i / n))

/-- The word `w` is finite and its exact value differs from `x` by at most `bound`. -/
def Near (w : Word) (x bound : ℝ) : Prop :=
  isFinite w = true ∧ |((value w : ℚ) : ℝ) - x| ≤ bound

/-- R452 for the forward kernel: for a finite input of length `n`, where the bound and every
ideal output lie below 2^126 in magnitude, every output word is within the bound
`errBound · 2 · Σ|y|` of its ideal value. -/
def ForwardAccurate (errBound : ℝ) (n : Nat) (y : List Word) (outRe outIm : Nat → Word) : Prop :=
  ∀ x re im : Nat → ℝ, ∀ bound : ℝ, (∀ w ∈ y, isFinite w = true) → y.length = n →
    IsValueOf y x → IsForward n x re im →
    bound = errBound * (2 * ∑ i ∈ Finset.range n, |x i|) → bound < 2 ^ 126 →
    (∀ k < n / 2, |re k| < 2 ^ 126 ∧ |im k| < 2 ^ 126) →
    ∀ k < n / 2, Near (outRe k) (re k) bound ∧ Near (outIm k) (im k) bound

/-- R452 for the inverse kernel, with its bound
`errBound · (|re 0| + |im 0| + 2 · Σ_{k ≥ 1} (|re k| + |im k|))`. -/
def InverseAccurate (errBound : ℝ) (n : Nat) (specRe specIm : List Word) (out : Nat → Word) :
    Prop :=
  ∀ re im u : Nat → ℝ, ∀ bound : ℝ,
    (∀ w ∈ specRe ++ specIm, isFinite w = true) → specRe.length = n / 2 → specIm.length = n / 2 →
    IsValueOf specRe re → IsValueOf specIm im → IsInverse n re im u →
    bound = errBound *
      (|re 0| + |im 0| + 2 * ∑ k ∈ Finset.Ico 1 (n / 2), (|re k| + |im k|)) →
    bound < 2 ^ 126 → (∀ i < n, |u i| < 2 ^ 126) →
    ∀ i < n, Near (out i) (u i) bound

/-- Every word of the sequence is `+0.0` or `−0.0` (R457). -/
def AllZero (ws : List Word) : Prop := ∀ w ∈ ws, isZero w = true

/-- R662, last property: the word `w` is finite and within one unit in the last place of the
real `x`. The unit at `x` is that of the binade `2^e ≤ |x| < 2^(e+1)`, and never below the
subnormal spacing 2^-149. -/
def WithinUlp (w : Word) (x : ℝ) : Prop :=
  isFinite w = true ∧
    ∀ e : ℤ, (2 : ℝ) ^ e ≤ |x| → |x| < (2 : ℝ) ^ (e + 1) →
      |((value w : ℚ) : ℝ) - x| ≤ (2 : ℝ) ^ (max e (-126) - 23)

/-- A word that is greater than zero and finite. -/
def IsPositiveFinite (v : Word) : Prop :=
  isFinite v = true ∧ signBit v = false ∧ isZero v = false

/-- R662: the properties required of a binary32 base-10 logarithm. -/
structure IsLog10 (f : Word → Word) : Prop where
  /-- LOG10(+0.0) = LOG10(−0.0) = −infinity. -/
  zero : ∀ v, isZero v = true → f v = negInf
  /-- LOG10(v) is a NaN for v a NaN. -/
  nan : ∀ v, isNaN v = true → isNaN (f v) = true
  /-- LOG10(v) is a NaN for v < 0. -/
  neg : ∀ v, signBit v = true → isZero v = false → isNaN (f v) = true
  /-- LOG10(+infinity) = +infinity. -/
  inf : f posInf = posInf
  /-- LOG10(10^j) = j for 0 ≤ j ≤ 10; j = 0 is LOG10(1.0) = +0.0. -/
  pow10 : ∀ j, j ≤ 10 → f (ofNat (10 ^ j)) = ofNat j
  /-- Monotone non-decreasing on [+0.0, +infinity]. -/
  mono : ∀ a b : Word, a.toNat ≤ b.toNat → b.toNat ≤ infBits → orderKey (f a) ≤ orderKey (f b)
  /-- Within one unit in the last place of the real logarithm at every positive finite value. -/
  ulp : ∀ v, IsPositiveFinite v → WithinUlp (f v) (Real.logb 10 ((value v : ℚ) : ℝ))

end Sys2Proof.Ideal
end

