-- ==== Sys2Proof/Config/Reference.lean ====
section
/-! DEFINITION. That the open kernels can exist: one transform kernel and one logarithm that have
the properties of Config/Ideal.lean. `Config.kernels` is an opaque constant of a type whose values
carry those properties, and Lean admits such a constant only where the type is inhabited; these
witnesses inhabit it and do nothing else. No meaning calls them, and nothing can be proved about
`Config.kernels` from them. -/

namespace Sys2Proof.Reference

open Sys2Proof.Binary32 Sys2Proof.Ideal

theorem value_posZero : value posZero = 0 := by
  have h : units posZero = 0 := by decide +kernel
  simp [value, h]

theorem near_posZero {x bound : ℝ} (h : |x| ≤ bound) : Near posZero x bound := by
  refine ⟨by decide, ?_⟩
  simpa [value_posZero] using h

/-- A sum of samples times factors of magnitude at most 1 is at most the sum of the samples'
magnitudes. -/
theorem abs_sum_mul_le (n : Nat) (x c : Nat → ℝ) (hc : ∀ i, |c i| ≤ 1) :
    |∑ i ∈ Finset.range n, x i * c i| ≤ ∑ i ∈ Finset.range n, |x i| :=
  (Finset.abs_sum_le_sum_abs _ _).trans <| Finset.sum_le_sum fun i _ => by
    rw [abs_mul]
    exact mul_le_of_le_one_right (abs_nonneg _) (hc i)

theorem abs_alternating (i : Nat) : |((-1 : ℝ)) ^ i| ≤ 1 := by simp

/-- The all-zero forward kernel is within the bound of R452 for the error bound 1. -/
theorem zero_forwardAccurate (n : Nat) (y : List Word) :
    ForwardAccurate 1 n y (fun _ => posZero) (fun _ => posZero) := by
  intro x re im bound _ _ _ hF hb _ _ k hk
  obtain ⟨hre, him0, him⟩ := hF
  have key : ∀ c : Nat → ℝ, (∀ i, |c i| ≤ 1) →
      |2 * ∑ i ∈ Finset.range n, x i * c i| ≤ bound := by
    intro c hc
    have h := abs_sum_mul_le n x c hc
    rw [hb, abs_mul, abs_of_pos (by norm_num : (0 : ℝ) < 2)]
    linarith
  refine ⟨near_posZero ?_, near_posZero ?_⟩
  · rw [hre k hk]
    exact key _ fun i => Real.abs_cos_le_one _
  · rcases Nat.eq_zero_or_pos k with rfl | hpos
    · rw [him0]
      exact key _ abs_alternating
    · rw [him k hk hpos]
      exact key _ fun i => by rw [abs_neg]; exact Real.abs_sin_le_one _

/-- The all-zero inverse kernel is within the bound of R452 for the error bound 1. -/
theorem zero_inverseAccurate (n : Nat) (specRe specIm : List Word) :
    InverseAccurate 1 n specRe specIm (fun _ => posZero) := by
  intro re im u bound _ _ _ _ _ hI hb _ _ i hi
  refine near_posZero ?_
  rw [hI i hi, hb, one_mul]
  have hs : |∑ k ∈ Finset.Ico 1 (n / 2), (re k * Real.cos (2 * Real.pi * k * i / n)
      - im k * Real.sin (2 * Real.pi * k * i / n))|
      ≤ ∑ k ∈ Finset.Ico 1 (n / 2), (|re k| + |im k|) := by
    refine (Finset.abs_sum_le_sum_abs _ _).trans (Finset.sum_le_sum fun k _ => ?_)
    refine (abs_sub _ _).trans ?_
    rw [abs_mul, abs_mul]
    exact add_le_add (mul_le_of_le_one_right (abs_nonneg _) (Real.abs_cos_le_one _))
      (mul_le_of_le_one_right (abs_nonneg _) (Real.abs_sin_le_one _))
  have hn : |im 0 * (-1) ^ i| ≤ |im 0| := by
    rw [abs_mul]
    exact mul_le_of_le_one_right (abs_nonneg _) (abs_alternating i)
  have h2 : ∀ t : ℝ, |2 * t| = 2 * |t| := fun t => by
    rw [abs_mul, abs_of_pos (by norm_num : (0 : ℝ) < 2)]
  calc |re 0 + im 0 * (-1) ^ i + 2 * _| ≤ |re 0 + im 0 * (-1) ^ i| + |2 * _| := abs_add_le _ _
    _ ≤ (|re 0| + |im 0 * (-1) ^ i|) + |2 * _| := by gcongr; exact abs_add_le _ _
    _ ≤ |re 0| + |im 0| + 2 * ∑ k ∈ Finset.Ico 1 (n / 2), (|re k| + |im k|) := by
        rw [h2]; linarith

/-! ### A logarithm with the properties of R662

The finite words in the order of their values, `gridWord 0` the most negative, and the greatest of
them that is not above the real logarithm: it is monotone because the order is, exact where the
logarithm is a binary32 value, and within the spacing of its neighbours everywhere. -/

/-- The bits of the greatest finite magnitude. -/
abbrev topBits : Nat := 0x7F7FFFFF

/-- The `z`-th finite word in the order of the values (`-0.0` left out). -/
def gridWord (z : Nat) : Word :=
  if topBits ≤ z then withSign false (z - topBits) else withSign true (topBits - z)

/-- Its value in units of 2^-149. -/
def gridUnits (z : Nat) : Int :=
  if topBits ≤ z then (magUnits (z - topBits) : Int) else -(magUnits (topBits - z) : Int)

/-- `10^(gridUnits z) ≤ v^scale`: with `scale = 2^149`, that the `z`-th value is at most the
logarithm of `v`. -/
def atMost (scale : Nat) (v : Word) (z : Nat) : Bool :=
  decide ((10 : ℚ) ^ gridUnits z ≤ value v ^ scale)

/-- The greatest binary32 value not above the real logarithm, with the special cases of R662. -/
def log10 (v : Word) : Word :=
  if isNaN v then 0x7FC00000#32
  else if isZero v then negInf
  else if signBit v then 0x7FC00000#32
  else if isInf v then posInf
  else gridWord (Nat.findGreatest (fun z => atMost (2 ^ 149) v z = true) (2 * topBits))

theorem magUnits_succ (b : Nat) : magUnits (b + 1) = magUnits b + 2 ^ (b / 2 ^ 23 - 1) := by
  have hd := Nat.div_add_mod b (2 ^ 23)
  have hlt := Nat.mod_lt b (by norm_num : 0 < 2 ^ 23)
  set e := b / 2 ^ 23 with he
  set f := b % 2 ^ 23 with hf
  by_cases hc : f + 1 < 2 ^ 23
  · have h1 : (b + 1) / 2 ^ 23 = e := by omega
    have h2 : (b + 1) % 2 ^ 23 = f + 1 := by omega
    simp only [magUnits, h1, h2, ← he, ← hf]
    rcases Nat.eq_zero_or_pos e with h0 | h0
    · simp [h0]
    · have : e ≠ 0 := by omega
      simp only [this, if_false]
      ring
  · have h1 : (b + 1) / 2 ^ 23 = e + 1 := by omega
    have h2 : (b + 1) % 2 ^ 23 = 0 := by omega
    have h3 : f = 2 ^ 23 - 1 := by omega
    simp only [magUnits, h1, h2, ← he, ← hf]
    rcases Nat.eq_zero_or_pos e with h0 | h0
    · simp [h0, h3]
    · obtain ⟨g, hg⟩ : ∃ g, e = g + 1 := ⟨e - 1, by omega⟩
      rw [hg, h3]
      simp only [Nat.add_sub_cancel, Nat.succ_ne_zero, if_false, pow_succ]
      ring_nf

theorem magUnits_strictMono : StrictMono magUnits :=
  strictMono_nat_of_lt_succ fun b => by rw [magUnits_succ]; have := Nat.two_pow_pos (b / 2 ^ 23 - 1); omega

theorem magUnits_zero : magUnits 0 = 0 := by decide

theorem gridUnits_strictMono : StrictMono gridUnits := by
  intro a b hab
  unfold gridUnits
  have h0 := magUnits_zero
  split <;> split
  · exact_mod_cast magUnits_strictMono (by omega)
  · omega
  · have h1 : magUnits 0 < magUnits (topBits - a) := magUnits_strictMono (by omega)
    have := Int.natCast_nonneg (magUnits (b - topBits))
    omega
  · have := magUnits_strictMono (show topBits - b < topBits - a by omega)
    omega

theorem toNat_withSign (neg : Bool) (bits : Nat) (h : bits < 2 ^ 31) :
    (withSign neg bits).toNat = (if neg then 2 ^ 31 else 0) + bits := by
  unfold withSign
  rw [BitVec.toNat_ofNat]
  split <;> omega

theorem magBits_withSign (neg : Bool) (bits : Nat) (h : bits < 2 ^ 31) :
    magBits (withSign neg bits) = bits := by
  unfold magBits
  rw [toNat_withSign neg bits h]
  split <;> omega

theorem signBit_withSign (neg : Bool) (bits : Nat) (h : bits < 2 ^ 31) :
    signBit (withSign neg bits) = neg := by
  unfold signBit
  rw [toNat_withSign neg bits h]
  cases neg
  · simpa using h
  · simp

theorem gridWord_spec (z : Nat) (h : z ≤ 2 * topBits) :
    units (gridWord z) = gridUnits z ∧ orderKey (gridWord z) = (z : Int) - topBits ∧
      isFinite (gridWord z) = true := by
  have htop : topBits = 2139095039 := rfl
  have hinf : infBits = 2139095040 := rfl
  unfold gridWord gridUnits units orderKey isFinite
  split
  · rw [magBits_withSign _ _ (by omega), signBit_withSign _ _ (by omega)]
    refine ⟨by simp, ?_, decide_eq_true (by omega)⟩
    simp only [Bool.false_eq_true, if_false]
    omega
  · rw [magBits_withSign _ _ (by omega), signBit_withSign _ _ (by omega)]
    refine ⟨by simp, ?_, decide_eq_true (by omega)⟩
    simp only [if_true]
    omega

/-- The rational test is the comparison with the real logarithm. -/
theorem pow_le_pow_iff_logb (a : Int) (q : ℚ) (hq : 0 < q) (scale : Nat) :
    (10 : ℚ) ^ a ≤ q ^ scale ↔ (a : ℝ) ≤ scale * Real.logb 10 (q : ℝ) := by
  have hq' : (0 : ℝ) < (q : ℝ) := by exact_mod_cast hq
  rw [← Real.logb_pow, Real.le_logb_iff_rpow_le (by norm_num) (pow_pos hq' _), Real.rpow_intCast,
    ← Rat.cast_le (K := ℝ), Rat.cast_zpow, Rat.cast_pow, Rat.cast_ofNat]

theorem atMost_iff (scale z : Nat) (v : Word) (hv : 0 < value v) :
    atMost scale v z = true ↔
      (gridUnits z : ℝ) ≤ scale * Real.logb 10 ((value v : ℚ) : ℝ) := by
  rw [atMost, decide_eq_true_iff, pow_le_pow_iff_logb _ _ hv]

theorem value_mono (a b : Word) (ha : signBit a = false) (hb : signBit b = false)
    (h : magBits a ≤ magBits b) : value a ≤ value b := by
  unfold value units
  rw [ha, hb]
  have := magUnits_strictMono.monotone h
  simp only [Bool.false_eq_true, if_false]
  gcongr

theorem value_pos {v : Word} (h : IsPositiveFinite v) : 0 < value v := by
  obtain ⟨_, hs, hz⟩ := h
  have h0 : 0 < magBits v := by
    rcases Nat.eq_zero_or_pos (magBits v) with h | h
    · simp [isZero, h] at hz
    · exact h
  have h1 := magUnits_strictMono h0
  rw [magUnits_zero] at h1
  unfold value units
  rw [hs]
  have : (0 : ℚ) < ((magUnits (magBits v) : Int) : ℚ) := by exact_mod_cast h1
  simpa using this

theorem log10_of_positive {v : Word} (h : IsPositiveFinite v) :
    log10 v = gridWord (Nat.findGreatest (fun z => atMost (2 ^ 149) v z = true) (2 * topBits)) := by
  obtain ⟨hf, hs, hz⟩ := h
  have hlt : magBits v < infBits := by simpa [isFinite] using hf
  have hn : isNaN v = false := decide_eq_false (by omega)
  have hi : isInf v = false := decide_eq_false (by omega)
  simp only [log10, hn, hz, hs, hi, Bool.false_eq_true, if_false]

theorem magUnits_lt (b : Nat) (h : b < infBits) : magUnits b < 2 ^ 24 * 2 ^ 253 := by
  have hinf : infBits = 2139095040 := rfl
  have hlt := Nat.mod_lt b (by norm_num : 0 < 2 ^ 23)
  unfold magUnits
  split
  · exact lt_of_lt_of_le hlt (by norm_num)
  · calc (b % 2 ^ 23 + 2 ^ 23) * 2 ^ (b / 2 ^ 23 - 1) < 2 ^ 24 * 2 ^ (b / 2 ^ 23 - 1) :=
          Nat.mul_lt_mul_of_pos_right (by omega) (Nat.two_pow_pos _)
      _ ≤ 2 ^ 24 * 2 ^ 253 :=
          Nat.mul_le_mul_left _ (Nat.pow_le_pow_right (by norm_num) (by omega))

theorem units_bounds {v : Word} (h : IsPositiveFinite v) : 1 ≤ units v ∧ units v < 2 ^ 24 * 2 ^ 253 := by
  have hp := value_pos h
  obtain ⟨hf, _, _⟩ := h
  have hlt : magBits v < infBits := by simpa [isFinite] using hf
  constructor
  · unfold value at hp
    have : (0 : ℚ) < (units v : ℚ) := by
      by_contra hc
      push Not at hc
      have : (units v : ℚ) / 2 ^ 149 ≤ 0 := div_nonpos_of_nonpos_of_nonneg hc (by positivity)
      linarith
    exact_mod_cast this
  · have := magUnits_lt _ hlt
    unfold units
    split <;> omega

theorem logb_bounds {v : Word} (h : IsPositiveFinite v) :
    -149 ≤ Real.logb 10 ((value v : ℚ) : ℝ) ∧ Real.logb 10 ((value v : ℚ) : ℝ) ≤ 128 := by
  obtain ⟨h1, h2⟩ := units_bounds h
  have hp : (0 : ℝ) < ((value v : ℚ) : ℝ) := by exact_mod_cast value_pos h
  have hval : ((value v : ℚ) : ℝ) = (units v : ℝ) / 2 ^ 149 := by
    unfold value; push_cast; ring
  have h1' : (1 : ℝ) ≤ (units v : ℝ) := by exact_mod_cast h1
  have h2' : (units v : ℝ) < 2 ^ 24 * 2 ^ 253 := by exact_mod_cast h2
  constructor
  · rw [Real.le_logb_iff_rpow_le (by norm_num) hp, hval,
      show (-149 : ℝ) = ((-149 : ℤ) : ℝ) by norm_num, Real.rpow_intCast]
    rw [le_div_iff₀ (by positivity)]
    refine le_trans ?_ h1'
    norm_num
  · rw [Real.logb_le_iff_le_rpow (by norm_num) hp, hval,
      show (128 : ℝ) = ((128 : ℕ) : ℝ) by norm_num, Real.rpow_natCast]
    rw [div_le_iff₀ (by positivity)]
    refine le_trans h2'.le ?_
    norm_num

/-- The word chosen and the next one enclose the logarithm. -/
theorem bracket {v : Word} (h : IsPositiveFinite v) :
    ∃ z, z < 2 * topBits ∧ log10 v = gridWord z ∧
      (gridUnits z : ℝ) ≤ 2 ^ 149 * Real.logb 10 ((value v : ℚ) : ℝ) ∧
      2 ^ 149 * Real.logb 10 ((value v : ℚ) : ℝ) < (gridUnits (z + 1) : ℝ) := by
  have htop : topBits = 2139095039 := rfl
  have hv := value_pos h
  obtain ⟨hlo, hhi⟩ := logb_bounds h
  have hbig : (magUnits topBits : ℝ) = (2 ^ 24 - 1) * 2 ^ 253 := by
    have : magUnits topBits = (2 ^ 24 - 1) * 2 ^ 253 := by decide +kernel
    rw [this]; norm_num
  have hg0 : (gridUnits 0 : ℝ) = -(magUnits topBits : ℝ) := by
    have : gridUnits 0 = -(magUnits topBits : Int) := rfl
    rw [this]; push_cast; rfl
  have hg1 : (gridUnits (2 * topBits) : ℝ) = (magUnits topBits : ℝ) := by
    have : gridUnits (2 * topBits) = (magUnits topBits : Int) := rfl
    rw [this]; push_cast; rfl
  have p0 : atMost (2 ^ 149) v 0 = true := by
    rw [atMost_iff _ _ _ hv, hg0, hbig]; push_cast; nlinarith
  have p1 : ¬ atMost (2 ^ 149) v (2 * topBits) = true := by
    rw [atMost_iff _ _ _ hv, hg1, hbig]; push_cast; nlinarith
  set z := Nat.findGreatest (fun z => atMost (2 ^ 149) v z = true) (2 * topBits) with hz
  have hpz : atMost (2 ^ 149) v z = true :=
    Nat.findGreatest_spec (P := fun z => atMost (2 ^ 149) v z = true) (Nat.zero_le _) p0
  have hzle : z ≤ 2 * topBits := Nat.findGreatest_le _
  have hzlt : z < 2 * topBits := by
    rcases Nat.lt_or_eq_of_le hzle with h | h
    · exact h
    · rw [h] at hpz; exact absurd hpz p1
  have hnext : ¬ atMost (2 ^ 149) v (z + 1) = true :=
    Nat.findGreatest_is_greatest (P := fun z => atMost (2 ^ 149) v z = true)
      (Nat.lt_succ_self _) (by omega)
  rw [atMost_iff _ _ _ hv] at hpz hnext
  push Not at hnext
  rw [Nat.cast_pow, Nat.cast_ofNat] at hpz hnext
  exact ⟨z, hzlt, log10_of_positive h, hpz, hnext⟩

/-- The spacing at a magnitude is at most the unit of every greater real. -/
theorem spacing_le_ulp (b : Nat) (x : ℝ) (e : ℤ) (hx : (magUnits b : ℝ) ≤ 2 ^ 149 * |x|)
    (he : |x| < (2 : ℝ) ^ (e + 1)) :
    (2 : ℝ) ^ (b / 2 ^ 23 - 1) ≤ 2 ^ 149 * (2 : ℝ) ^ (max e (-126) - 23) := by
  have hconv : ∀ k : ℤ, (2 : ℝ) ^ 149 * (2 : ℝ) ^ k = (2 : ℝ) ^ (149 + k) := fun k => by
    rw [zpow_add₀ (by norm_num)]; norm_num
  rw [hconv, ← zpow_natCast]
  refine zpow_le_zpow_right₀ (by norm_num) ?_
  rcases Nat.eq_zero_or_pos (b / 2 ^ 23) with h0 | h0
  · rw [h0]
    have := le_max_right e (-126)
    push_cast
    omega
  · have hm : 2 ^ (23 + (b / 2 ^ 23 - 1)) ≤ magUnits b := by
      unfold magUnits
      rw [if_neg (by omega), pow_add]
      exact Nat.mul_le_mul_right _ (Nat.le_add_left _ _)
    have h1 : (2 : ℝ) ^ (23 + (b / 2 ^ 23 - 1)) ≤ (magUnits b : ℝ) := by exact_mod_cast hm
    have h2 : (2 : ℝ) ^ (((23 + (b / 2 ^ 23 - 1) : ℕ)) : ℤ) < (2 : ℝ) ^ (149 + (e + 1)) := by
      rw [zpow_natCast, ← hconv]
      refine lt_of_le_of_lt (h1.trans hx) ?_
      exact mul_lt_mul_of_pos_left he (by positivity)
    have h3 := (zpow_lt_zpow_iff_right₀ (by norm_num : (1 : ℝ) < 2)).1 h2
    have := le_max_left e (-126)
    omega

theorem gridUnits_gap (z : Nat) (_h : z < 2 * topBits) :
    ∃ b, gridUnits (z + 1) - gridUnits z = 2 ^ (b / 2 ^ 23 - 1) ∧
      ∀ L : ℝ, (gridUnits z : ℝ) ≤ L → L < (gridUnits (z + 1) : ℝ) → (magUnits b : ℝ) ≤ |L| := by
  by_cases hz : topBits ≤ z
  · refine ⟨z - topBits, ?_, ?_⟩
    · unfold gridUnits
      rw [if_pos hz, if_pos (by omega), show z + 1 - topBits = (z - topBits) + 1 by omega,
        magUnits_succ]
      push_cast; ring
    · intro L h1 _
      unfold gridUnits at h1
      rw [if_pos hz] at h1
      push_cast at h1
      exact h1.trans (le_abs_self L)
  · obtain ⟨b, hb⟩ : ∃ b, topBits - z = b + 1 := ⟨topBits - z - 1, by omega⟩
    have hnext : gridUnits (z + 1) = -(magUnits b : Int) := by
      unfold gridUnits
      split
      · have h1 : z + 1 - topBits = 0 := by omega
        have h2 : b = 0 := by omega
        rw [h1, h2, magUnits_zero]; rfl
      · rw [show topBits - (z + 1) = b by omega]
    refine ⟨b, ?_, ?_⟩
    · rw [hnext]
      unfold gridUnits
      rw [if_neg hz, hb, magUnits_succ]
      push_cast; ring
    · intro L _ h2
      rw [hnext] at h2
      push_cast at h2
      have := neg_abs_le L
      linarith

theorem log10_ulp (v : Word) (h : IsPositiveFinite v) :
    WithinUlp (log10 v) (Real.logb 10 ((value v : ℚ) : ℝ)) := by
  obtain ⟨z, hz, hl, h1, h2⟩ := bracket h
  obtain ⟨hu, _, hf⟩ := gridWord_spec z hz.le
  obtain ⟨b, hgap, hmag⟩ := gridUnits_gap z hz
  set x := Real.logb 10 ((value v : ℚ) : ℝ) with hx
  rw [hl]
  refine ⟨hf, fun e _ he => ?_⟩
  have hm := hmag _ h1 h2
  rw [abs_mul, abs_of_pos (by positivity : (0 : ℝ) < 2 ^ 149)] at hm
  have hs := spacing_le_ulp b x e hm he
  have hval : ((value (gridWord z) : ℚ) : ℝ) = (gridUnits z : ℝ) / 2 ^ 149 := by
    unfold value; rw [hu]; push_cast; ring
  have hgap' : (gridUnits (z + 1) : ℝ) - gridUnits z = 2 ^ (b / 2 ^ 23 - 1) := by
    exact_mod_cast hgap
  have hpos : (0 : ℝ) < 2 ^ 149 := by positivity
  rw [hval, abs_sub_comm, abs_of_nonneg, sub_le_iff_le_add, ← mul_le_mul_iff_right₀ hpos, mul_add,
    mul_div_cancel₀ _ hpos.ne']
  · linarith
  · rw [sub_nonneg, div_le_iff₀ hpos]; linarith

theorem orderKey_log10_bounds (v : Word) (h : v.toNat ≤ infBits) :
    -(infBits : Int) ≤ orderKey (log10 v) ∧ orderKey (log10 v) ≤ infBits := by
  have htop : topBits = 2139095039 := rfl
  have hinf : infBits = 2139095040 := rfl
  have hm : magBits v = v.toNat := by unfold magBits; omega
  have hs : signBit v = false := decide_eq_false (by omega)
  have hn : isNaN v = false := decide_eq_false (by omega)
  by_cases hz : isZero v = true
  · simp only [log10, hn, hz, Bool.false_eq_true, if_false, if_true]; decide
  · by_cases hi : isInf v = true
    · simp only [log10, hn, hz, hs, hi, Bool.false_eq_true, if_false, if_true]; decide
    · have hne : magBits v ≠ infBits := by simpa [isInf] using hi
      obtain ⟨z, hzt, hl, _, _⟩ :=
        bracket (v := v) ⟨decide_eq_true (by omega), hs, by simpa using hz⟩
      rw [hl, (gridWord_spec z hzt.le).2.1]
      omega

theorem log10_mono (a b : Word) (hab : a.toNat ≤ b.toNat) (hb : b.toNat ≤ infBits) :
    orderKey (log10 a) ≤ orderKey (log10 b) := by
  have hinf : infBits = 2139095040 := rfl
  have hma : magBits a = a.toNat := by unfold magBits; omega
  have hmb : magBits b = b.toNat := by unfold magBits; omega
  have hsa : signBit a = false := decide_eq_false (by omega)
  have hsb : signBit b = false := decide_eq_false (by omega)
  have hna : isNaN a = false := decide_eq_false (by omega)
  have hnb : isNaN b = false := decide_eq_false (by omega)
  have ba := orderKey_log10_bounds a (hab.trans hb)
  have bb := orderKey_log10_bounds b hb
  by_cases hza : isZero a = true
  · have : log10 a = negInf := by
      simp only [log10, hna, hza, Bool.false_eq_true, if_false, if_true]
    rw [this]
    exact le_trans (by decide) bb.1
  · by_cases hib : isInf b = true
    · have hzb : isZero b = false := decide_eq_false (by
        have : magBits b = infBits := by simpa [isInf] using hib
        omega)
      have : log10 b = posInf := by
        simp only [log10, hnb, hzb, hsb, hib, Bool.false_eq_true, if_false, if_true]
      rw [this]
      exact le_trans ba.2 (by decide)
    · have hza' : magBits a ≠ 0 := by simpa [isZero] using hza
      have hib' : magBits b ≠ infBits := by simpa [isInf] using hib
      have pa : IsPositiveFinite a :=
        ⟨decide_eq_true (by omega), hsa, decide_eq_false hza'⟩
      have pb : IsPositiveFinite b :=
        ⟨decide_eq_true (by omega), hsb, decide_eq_false (by omega)⟩
      have hv : value a ≤ value b := value_mono a b hsa hsb (by omega)
      have hle : Nat.findGreatest (fun z => atMost (2 ^ 149) a z = true) (2 * topBits) ≤
          Nat.findGreatest (fun z => atMost (2 ^ 149) b z = true) (2 * topBits) := by
        refine Nat.findGreatest_mono_left (fun z hz => ?_) _
        unfold atMost at hz ⊢
        rw [decide_eq_true_iff] at hz ⊢
        exact hz.trans (pow_le_pow_left₀ (value_pos pa).le hv _)
      rw [log10_of_positive pa, log10_of_positive pb,
        (gridWord_spec _ (Nat.findGreatest_le _)).2.1, (gridWord_spec _ (Nat.findGreatest_le _)).2.1]
      omega

/-- The powers of ten that binary32 holds exactly, and the places of their logarithms. -/
theorem pow10_facts : ∀ j, j < 11 →
    isFinite (ofNat (10 ^ j)) = true ∧ signBit (ofNat (10 ^ j)) = false ∧
    isZero (ofNat (10 ^ j)) = false ∧ units (ofNat (10 ^ j)) = 10 ^ j * 2 ^ 149 ∧
    gridUnits (topBits + magBits (ofNat j)) = j * 2 ^ 149 ∧
    gridWord (topBits + magBits (ofNat j)) = ofNat j := by decide +kernel

theorem log10_pow10 (j : Nat) (hj : j ≤ 10) : log10 (ofNat (10 ^ j)) = ofNat j := by
  obtain ⟨h1, h2, h3, h4, h5, h6⟩ := pow10_facts j (by omega)
  obtain ⟨z, _, hl, hlo, hhi⟩ := bracket (v := ofNat (10 ^ j)) ⟨h1, h2, h3⟩
  have hval : ((value (ofNat (10 ^ j)) : ℚ) : ℝ) = (10 : ℝ) ^ j := by
    unfold value; rw [h4]; norm_num
  rw [hval, Real.logb_pow, Real.logb_self_eq_one (by norm_num), mul_one] at hlo hhi
  have hg : (gridUnits (topBits + magBits (ofNat j)) : ℝ) = 2 ^ 149 * (j : ℝ) := by
    rw [h5]; push_cast; ring
  rw [← hg] at hlo hhi
  have a1 := gridUnits_strictMono.le_iff_le.1 (by exact_mod_cast hlo)
  have a2 := gridUnits_strictMono.lt_iff_lt.1 (by exact_mod_cast hhi)
  rw [hl, ← h6, show z = topBits + magBits (ofNat j) by omega]

/-- `log10` has every property of R662. -/
theorem log10_isLog10 : IsLog10 log10 where
  zero v hz := by
    have h0 : magBits v = 0 := by simpa [isZero] using hz
    have hn : isNaN v = false := decide_eq_false (by omega)
    simp only [log10, hn, hz, Bool.false_eq_true, if_false, if_true]
  nan v h := by simp only [log10, h, if_true]; decide
  neg v hs hz := by
    by_cases hn : isNaN v = true
    · simp only [log10, hn, if_true]; decide
    · simp only [log10, hn, hs, hz, Bool.false_eq_true, if_false, if_true]; decide
  inf := by decide
  pow10 := log10_pow10
  mono := log10_mono
  ulp := log10_ulp

end Sys2Proof.Reference
end

