-- ==== Sys2Proof/Config.lean ====
section
/-! DEFINITION. What an implementation fixes, and what the spec leaves free: the capacity
parameters (00_scope.md R8), the hardwired constants (10_state.md R104, R131), the open kernels
with the properties the spec gives them (R20), and the free values: the bits of a NaN result
(R17) and what a host read of an unwritten word returns (70_reset_and_hazards.md R802).

`kernels`, `nanBits` and `unwrittenRead` are opaque constants without a body: a statement that
holds in this model holds for every value they may have. -/

namespace Sys2Proof.Config

open Sys2Proof.Binary32 Sys2Proof.Ideal

/-- The capacity parameters of R8. The block's State carries them (R140 makes them readable), so
a statement about every state is a statement about every choice of them. -/
structure Params where
  /-- log2 of the largest transform size. -/
  log2NMax : Nat
  /-- Words of the signal buffer. -/
  sigCap : Nat
  /-- Spectra the spectrum buffer holds. -/
  chunkCap : Nat
  /-- Words of the output buffer. -/
  outCap : Nat
deriving DecidableEq, Repr

/-- `N_MAX = 2^LOG2_N_MAX` (R8). -/
def Params.nMax (p : Params) : Nat := 2 ^ p.log2NMax

/-- `N_MAX/2`, the length of a row of SPEC_RE, SPEC_IM and DISP (10_state.md R145). -/
def Params.rowLen (p : Params) : Nat := p.nMax / 2

/-- The constraints of R8. -/
abbrev Params.Legal (p : Params) : Prop :=
  1 ≤ p.log2NMax ∧ p.log2NMax ≤ 16 ∧ 1 ≤ p.sigCap ∧ p.sigCap ≤ 2 ^ 26 ∧
  1 ≤ p.chunkCap ∧ p.chunkCap ≤ 2 ^ 16 ∧ p.chunkCap * p.rowLen ≤ 2 ^ 26 ∧
  p.nMax ≤ p.outCap ∧ p.outCap ≤ 2 ^ 26

/-- The defaults of R8: N_MAX = 4096, SIG_CAP = 2^22, CHUNK_CAP = 2^14, OUT_CAP = 2^23. -/
def defaultParams : Params := ⟨12, 2 ^ 22, 2 ^ 14, 2 ^ 23⟩

/-- The value ID reads, ASCII "STFT" (R104). -/
def idValue : Word := 0x53544654#32

/-- The value VERSION reads (R104). -/
def versionValue : Word := 0x00000001#32

/-- TRIM_EPS, the binary32 constant 1e-6f (R131). -/
def trimEps : Word := 0x358637BD#32

/-- TRIM_MARGIN (R131). -/
def trimMargin : Nat := 25

/-- The open kernels (R8, R20) with the properties 41_fft.md R452 and R457 and 45_display.md R662
give them, and nothing else: FFT_KERNEL as the two parts of its packed spectrum, IFFT_KERNEL,
FFT_ERR_BOUND and LOG10_KERNEL. The defaults only show that such kernels exist. -/
structure Kernels where
  /-- FFT_ERR_BOUND(N). -/
  errBound : Nat → ℝ := fun _ => 1
  /-- FFT_ERR_BOUND is non-negative (92_eei_decisions.md, OPEN parameters). -/
  errBound_nonneg : ∀ n, 0 ≤ errBound n := by intro n; norm_num
  /-- FFT_KERNEL(N, y), real part of slot k. -/
  fwdRe : Nat → List Word → Nat → Word := fun _ _ _ => posZero
  /-- FFT_KERNEL(N, y), imaginary part of slot k. -/
  fwdIm : Nat → List Word → Nat → Word := fun _ _ _ => posZero
  /-- IFFT_KERNEL(N, (re, im)), word n. -/
  inv : Nat → List Word → List Word → Nat → Word := fun _ _ _ _ => posZero
  /-- R457: zeros in, zeros out; the sign of each zero is free. -/
  fwd_zero : ∀ j, 3 ≤ j → ∀ y : List Word, y.length = 2 ^ j → AllZero y → ∀ k < 2 ^ j / 2,
    isZero (fwdRe (2 ^ j) y k) = true ∧ isZero (fwdIm (2 ^ j) y k) = true := by
      intros; exact ⟨by decide, by decide⟩
  /-- R457 for the inverse. -/
  inv_zero : ∀ j, 3 ≤ j → ∀ re im : List Word, re.length = 2 ^ j / 2 → im.length = 2 ^ j / 2 →
    AllZero re → AllZero im → ∀ n < 2 ^ j, isZero (inv (2 ^ j) re im n) = true := by
      intros; decide
  /-- R452. -/
  fwd_accurate : ∀ j, 3 ≤ j → ∀ y : List Word,
    ForwardAccurate (errBound (2 ^ j)) (2 ^ j) y (fwdRe (2 ^ j) y) (fwdIm (2 ^ j) y) := by
      intro j _ y; exact Reference.zero_forwardAccurate (2 ^ j) y
  /-- R452 for the inverse. -/
  inv_accurate : ∀ j, 3 ≤ j → ∀ re im : List Word,
    InverseAccurate (errBound (2 ^ j)) (2 ^ j) re im (inv (2 ^ j) re im) := by
      intro j _ re im; exact Reference.zero_inverseAccurate (2 ^ j) re im
  /-- LOG10_KERNEL(v). -/
  log10 : Word → Word := Reference.log10
  /-- R662. -/
  log10_lawful : IsLog10 log10 := by exact Reference.log10_isLog10
deriving Inhabited

/-- The block's kernels: FREE within R452, R457 and R662 (log entry 3). -/
opaque kernels : Kernels

/-- Which operation of a command produced a NaN. -/
inductive NanOp where
  | window       -- WIN[n] · CHUNK[n]
  | inverseScale -- u[n] · 2^-(k2+1)
  | olaAdd       -- OUT + CHUNK
  | olaScale     -- OUT / (R/2)
  | magRe        -- re · re
  | magIm        -- im · im
  | magSum       -- re² + im²
  | dbQuotient   -- DISP / ref
  | dbProduct    -- 20 · LOG10(...)
  | nyquist      -- sr / 2
  | freqPerBand  -- nyq / M
  | bandQuotient -- f / fpb
deriving DecidableEq, Repr

/-- Where a NaN result arises: in an operation of the command that has drawn `draw` before it, at
row `i` and word `j`; or in node `node` of a closed-form transform, a function of the transform
and its input words alone (R20, R457). -/
inductive NanSite where
  | command (draw : Nat) (op : NanOp) (i j : Nat)
  | transform (inverse : Bool) (input : List Word) (node : Nat)
deriving DecidableEq, Repr

/-- The bits from which the NaN at a place is made: FREE (R17, log entry 2). -/
opaque nanBits : NanSite → Word

/-- The NaN word at a place: any NaN pattern (R17). -/
def nan (site : NanSite) : Word := nanOfBits (nanBits site)

/-- The word a host read of an unwritten buffer word returns: FREE (R802, log entry 4). The
argument is the machine's draw counter. -/
opaque unwrittenRead : Nat → Word

end Sys2Proof.Config
end

