-- ==== Sys2Proof/Machine/State.lean ====
section
/-! DEFINITION. The state of the block (10_state.md), plain data. Every register of R103 to R140
has its field (the hardwired ones are constants of Config), every buffer of R145 is a list of
written words by index, and the command in flight (R150) is LAST_CMD while BUSY is 1.

Three fields are the model's own, not the spec's: the host's accesses still to come (`script`),
the word the last host read returned (`reply`) and the counter that makes free values fresh
(`draws`). -/

namespace Sys2Proof.Machine

/-- The seven buffers of R145. -/
inductive BufId where
  | win
  | chunk
  | sig
  | specRe
  | specIm
  | out
  | disp
deriving DecidableEq, Repr

/-- One written word of a buffer, with its word index. -/
abbrev Cell := Nat × Word

/-- A buffer's listed words. In canonical form the indices rise strictly and no entry equals what
an unlisted index reads as. -/
abbrev Buffer := List Cell

/-- The block's memory, the buffers of R145. -/
structure Memory where
  /-- WIN, N_MAX words (R147); an unlisted word holds +0.0. -/
  win : Buffer
  /-- CHUNK, N_MAX words; an unlisted word is unwritten (R148), here and in the buffers below. -/
  chunk : Buffer
  /-- SIG, SIG_CAP words (R146). -/
  sig : Buffer
  /-- SPEC_RE, CHUNK_CAP · N_MAX/2 words. -/
  specRe : Buffer
  /-- SPEC_IM, CHUNK_CAP · N_MAX/2 words. -/
  specIm : Buffer
  /-- OUT, OUT_CAP words. -/
  out : Buffer
  /-- DISP, CHUNK_CAP · N_MAX/2 words. -/
  disp : Buffer
deriving DecidableEq, Repr

/-- The memory after reset: nothing listed, so WIN is +0.0 and every other word is unwritten
(R155). -/
def Memory.empty : Memory := ⟨[], [], [], [], [], [], []⟩

/-- The error codes of 60_exceptions.md R701, `ok` among them. -/
inductive ErrCode where
  | ok
  | invalidParameterSize
  | invalidParameterOverlap
  | invalidParameterDbref
  | rangeOutOfRange
  | rangeMinGtMax
  | rangeMinLtZero
  | illegalOpcode
  | illegalField
  | notConfigured
  | argRange
  | capacity
  | bandConvert
deriving DecidableEq, Repr

/-- The fields of STATUS (R107); bits 31:6 are hardwired to zero (R105). -/
structure Status where
  /-- Bit 0, RO: a command is in flight. -/
  busy : Bool
  /-- Bit 1, W1C: a command has completed. -/
  done : Bool
  /-- Bit 2, W1C: a command has completed with an error. -/
  err : Bool
  /-- Bit 3, RO: the configuration is valid (R151). -/
  cfgValid : Bool
  /-- Bit 4, W1C: a CMD write was ignored because BUSY = 1. -/
  ovr : Bool
  /-- Bit 5, W1C: a host access was not admitted. -/
  accErr : Bool
deriving DecidableEq, Repr

/-- The fields of IRQ_EN (R110); bits 31:3 are hardwired to zero (R105). -/
structure IrqEnable where
  /-- Bit 0. -/
  doneIe : Bool
  /-- Bit 1. -/
  errIe : Bool
  /-- Bit 2. -/
  faultIe : Bool
deriving DecidableEq, Repr

/-- One host bus access at a device-relative byte address, `size` bytes wide (20_memory.md R200,
R203, R204). A value of another width than 32 bits is never stored, so `value` is a word. -/
inductive Access where
  /-- MemRead(addr, size). -/
  | read (addr : Word) (size : Nat)
  /-- MemWrite(addr, size, value). -/
  | write (addr : Word) (size : Nat) (value : Word)
deriving DecidableEq, Repr

/-- What happens next at the block's boundary. -/
inductive HostEvent where
  /-- A host access. A CMD write here runs its command to completion within the step
  (70_reset_and_hazards.md R806). -/
  | access (a : Access)
  /-- A host write of the word to CMD whose command is still in flight when the next event comes
  (R150, R811). -/
  | start (w : Word)
  /-- The command in flight completes. -/
  | finish
  /-- The reset input (R800), asserted and released as one event: no access falls while it is
  asserted (DESIGN CHOICE, unsafe; log entry 20). -/
  | reset
deriving DecidableEq, Repr

/-- The state of the block. -/
structure State where
  /-- The capacity parameters, hardwired (R8), read through CAP_LOG2_N_MAX, CAP_SIG, CAP_CHUNK
  and CAP_OUT (R140). -/
  params : Config.Params
  /-- STATUS (R107). -/
  status : Status
  /-- ERRCODE bits 7:0 (R108). -/
  errCode : BitVec 8
  /-- LAST_CMD (R109); the command in flight while BUSY is 1. -/
  lastCmd : Word
  /-- IRQ_EN (R110). -/
  irqEn : IrqEnable
  /-- SIZE (R115). -/
  size : Word
  /-- OVERLAP (R116). -/
  overlap : Word
  /-- N_ACTIVE (R117). -/
  nActive : Word
  /-- R_ACTIVE (R117). -/
  rActive : Word
  /-- HOP (R117). -/
  hop : Word
  /-- NUM_BANDS (R117). -/
  numBands : Word
  /-- SIG_LEN (R120). -/
  sigLen : Word
  /-- NUM_CHUNKS (R121). -/
  numChunks : Word
  /-- OUT_LEN (R122). -/
  outLen : Word
  /-- SAMPLE_RATE, a binary32 value (R125). -/
  sampleRate : Word
  /-- FREQ_HZ, a binary32 value (R125). -/
  freqHz : Word
  /-- BAND_IDX, an int32 (R126). -/
  bandIdx : Word
  /-- LOWER_BAND, an int32 (R127). -/
  lowerBand : Word
  /-- UPPER_BAND, an int32 (R127). -/
  upperBand : Word
  /-- ZERO_REF, a binary32 value (R130). -/
  zeroRef : Word
  /-- DISP_ROWS (R132). -/
  dispRows : Word
  /-- DISP_W (R132). -/
  dispW : Word
  /-- The seven buffers. -/
  mem : Memory
  /-- The model's own: the events still to come, in the order the block sees them (R210). -/
  script : List HostEvent
  /-- The model's own: the word the most recent host read returned. -/
  reply : Word
  /-- The model's own: how many times free values have been drawn. -/
  draws : Nat
deriving DecidableEq, Repr

/-- Why a run stops as undefined. -/
inductive Fault where
  /-- A command read a buffer word nothing has written since reset, which has no value: raised by
  the commands R802 lists. Safe: the spec says that a model faults such a command. -/
  | unwrittenWord (buf : BufId) (index : Nat)
deriving DecidableEq, Repr

/-- Why a step has no meaning. -/
inductive Refusal where
  /-- A command whose meaning is not written yet, rejected by name: raised by exec's arms only;
  none is left. Safe. -/
  | notModelled (mnemonic : String)
  /-- A host access while BUSY is 1 other than those R811 defines: raised by the port. The spec
  says that a model refuses it and takes host compliance as a premise. Safe. -/
  | protocolViolation (a : Access)
deriving DecidableEq, Repr

/-- The outcome of a step of this machine. -/
abbrev Outcome := Host.Outcome State Fault Refusal

/-- The block with the given capacities right after reset (R155, R800). -/
def State.resetWith (p : Config.Params) : State where
  params := p
  status := ⟨false, false, false, false, false, false⟩
  errCode := 0x00#8
  lastCmd := 0x00000000#32
  irqEn := ⟨false, false, false⟩
  size := 0x00000200#32
  overlap := 0x00000008#32
  nActive := 0x00000000#32
  rActive := 0x00000000#32
  hop := 0x00000000#32
  numBands := 0x00000000#32
  sigLen := 0x00000000#32
  numChunks := 0x00000000#32
  outLen := 0x00000000#32
  sampleRate := posZero
  freqHz := posZero
  bandIdx := 0x00000000#32
  lowerBand := 0x00000000#32
  upperBand := 0x00000000#32
  zeroRef := 0x3DCCCCCD#32
  dispRows := 0x00000000#32
  dispW := 0x00000000#32
  mem := Memory.empty
  script := []
  reply := 0x00000000#32
  draws := 0

/-- The block right after reset with the default capacities of R8. -/
def State.reset : State := State.resetWith Config.defaultParams

end Sys2Proof.Machine
end

