-- ==== Sys2Proof/Machine/Flags.lean ====
section
/-! DEFINITION. The code of an error, the bits of STATUS and IRQ_EN, their acknowledgment and the
interrupt output (10_state.md R107, R110; 60_exceptions.md R701, R720). -/

namespace Sys2Proof.Machine

/-- The values of R701. -/
def ErrCode.toByte : ErrCode → BitVec 8
  | .ok => 0x00#8
  | .invalidParameterSize => 0x01#8
  | .invalidParameterOverlap => 0x02#8
  | .invalidParameterDbref => 0x03#8
  | .rangeOutOfRange => 0x10#8
  | .rangeMinGtMax => 0x11#8
  | .rangeMinLtZero => 0x12#8
  | .illegalOpcode => 0x20#8
  | .illegalField => 0x21#8
  | .notConfigured => 0x22#8
  | .argRange => 0x23#8
  | .capacity => 0x24#8
  | .bandConvert => 0x25#8

/-- Bit `i` of a word as a flag. -/
def flagOf (w : Word) (i : Nat) : Bool := w.getLsbD i

/-- A flag as the word with bit `i` set or clear. -/
def bitWord (i : Nat) (f : Bool) : Nat := if f then 2 ^ i else 0

/-- STATUS as it reads; the reserved bits read 0 (R107). -/
def Status.toWord (st : Status) : Word :=
  BitVec.ofNat 32 (bitWord 0 st.busy + bitWord 1 st.done + bitWord 2 st.err +
    bitWord 3 st.cfgValid + bitWord 4 st.ovr + bitWord 5 st.accErr)

/-- A host write to STATUS: a 1 clears DONE, ERR, OVR or ACCERR, a 0 leaves it; BUSY, CFG_VALID
and the reserved bits are not written, and no bit is ever set (R103, R107). -/
def Status.acknowledge (st : Status) (w : Word) : Status :=
  { st with
    done := st.done && !flagOf w 1
    err := st.err && !flagOf w 2
    ovr := st.ovr && !flagOf w 4
    accErr := st.accErr && !flagOf w 5 }

/-- IRQ_EN as it reads; the reserved bits read 0 (R110). -/
def IrqEnable.toWord (e : IrqEnable) : Word :=
  BitVec.ofNat 32 (bitWord 0 e.doneIe + bitWord 1 e.errIe + bitWord 2 e.faultIe)

/-- IRQ_EN as a host write leaves it; the reserved bits are not written (R110). -/
def IrqEnable.ofWord (w : Word) : IrqEnable := ⟨flagOf w 0, flagOf w 1, flagOf w 2⟩

/-- The interrupt output, a function of STATUS and IRQ_EN (R720). -/
def State.irq (s : State) : Bool :=
  (s.status.done && s.irqEn.doneIe) || (s.status.err && s.irqEn.errIe) ||
    ((s.status.ovr || s.status.accErr) && s.irqEn.faultIe)

end Sys2Proof.Machine
end

