-- ==== Sys2Proof/Machine/Operands.lean ====
section
/-! DEFINITION. The operands of the commands: the registers as the numbers the rules name N, R, H,
M, k2, C, L, Rd and W (00_scope.md R10, R13), the frames of a signal (42_framer.md R501) and the
place of a row in the spectrum and display buffers (10_state.md R145). -/

namespace Sys2Proof.Machine

/-- N, the active transform size. -/
def State.sizeN (s : State) : Nat := s.nActive.toNat
/-- R, the active overlap ratio. -/
def State.ratioR (s : State) : Nat := s.rActive.toNat
/-- H, the hop. -/
def State.hopH (s : State) : Nat := s.hop.toNat
/-- M, the number of bands. -/
def State.bandsM (s : State) : Nat := s.numBands.toNat
/-- k2 = log2 N. -/
def State.log2N (s : State) : Nat := Nat.log2 s.sizeN
/-- L, the length of the signal. -/
def State.lenL (s : State) : Nat := s.sigLen.toNat
/-- C, the number of spectra. -/
def State.chunksC (s : State) : Nat := s.numChunks.toNat
/-- The number of valid words of OUT. -/
def State.outN (s : State) : Nat := s.outLen.toNat
/-- Rd, the rows of the display matrix. -/
def State.rowsRd (s : State) : Nat := s.dispRows.toNat
/-- W, the width of the display matrix. -/
def State.widthW (s : State) : Nat := s.dispW.toNat

/-- The word index of word 0 of row `c` of SPEC_RE, SPEC_IM and DISP (R145). -/
def State.rowStart (s : State) (c : Nat) : Nat := c * s.params.rowLen

/-- `step(M)`: N in contiguous mode, H in overlap mode (R501). -/
def State.frameStep (s : State) : Mode → Nat
  | .contiguous => s.sizeN
  | .overlap => s.hopH

/-- `ceil(a / b)` (R13). -/
def ceilDiv (a b : Nat) : Nat := (a + b - 1) / b

/-- `count(L, M)`, the number of frames of the signal (R501). -/
def State.frameCount (s : State) (m : Mode) : Nat := ceilDiv s.lenL (s.frameStep m)

/-- The first signal index of frame `i` (R501). -/
def State.frameStart (s : State) (m : Mode) (i : Nat) : Nat := i * s.frameStep m

/-- How many words of frame `i` lie in the signal; the others are padding (R501). -/
def State.frameFill (s : State) (m : Mode) (i : Nat) : Nat :=
  min s.sizeN (s.lenL - s.frameStart m i)

/-- The number of words of each buffer (R145). -/
def capacityOf (p : Config.Params) : BufId → Nat
  | .win => p.nMax
  | .chunk => p.nMax
  | .sig => p.sigCap
  | .specRe => p.chunkCap * p.rowLen
  | .specIm => p.chunkCap * p.rowLen
  | .out => p.outCap
  | .disp => p.chunkCap * p.rowLen

end Sys2Proof.Machine
end

