-- ==== Sys2Proof/Machine/Ops.lean ====
section
/-! DEFINITION. The named operations over buffers and registers that the commands share: reading
and storing buffer words (10_state.md R145 to R148), starting and completing a command
(60_exceptions.md R705), the order of its checks (R710) and a loop in increasing index
(20_memory.md R214).

The block has no trap (R700): what a machine with traps does on an exception is here `complete`
with an error code, which records the code and changes nothing else; the return from it is the
host's acknowledgment, `Status.acknowledge` (R721). -/

namespace Sys2Proof.Machine

/-! ### Buffers -/

/-- The word listed at an index. -/
def Buffer.find (i : Nat) : Buffer → Option Word
  | [] => none
  | (j, w) :: rest => if j = i then some w else Buffer.find i rest

/-- What an index that is not listed reads as: WIN resets to +0.0, every other buffer to
unwritten (R148, R155). -/
def BufId.unlisted : BufId → Option Word
  | .win => some posZero
  | .chunk => none
  | .sig => none
  | .specRe => none
  | .specIm => none
  | .out => none
  | .disp => none

/-- Consecutive words from an index on. -/
def cellsFrom (start : Nat) : List Word → Buffer
  | [] => []
  | w :: ws => (start, w) :: cellsFrom (start + 1) ws

/-- Consecutive words stored from an index on, every other word kept. A stored word that equals
what an unlisted index reads as is not listed, and the indices stay in rising order. -/
def Buffer.store (unlisted : Option Word) (start : Nat) (ws : List Word) (b : Buffer) : Buffer :=
  b.filter (fun c => c.1 < start) ++
    ((cellsFrom start ws).filter (fun c => decide (some c.2 ≠ unlisted)) ++
      b.filter (fun c => start + ws.length ≤ c.1))

/-- A buffer of the memory. -/
def Memory.buffer (m : Memory) : BufId → Buffer
  | .win => m.win
  | .chunk => m.chunk
  | .sig => m.sig
  | .specRe => m.specRe
  | .specIm => m.specIm
  | .out => m.out
  | .disp => m.disp

/-- The memory with one buffer replaced. -/
def Memory.setBuffer (m : Memory) (b : BufId) (cells : Buffer) : Memory :=
  match b with
  | .win => { m with win := cells }
  | .chunk => { m with chunk := cells }
  | .sig => { m with sig := cells }
  | .specRe => { m with specRe := cells }
  | .specIm => { m with specIm := cells }
  | .out => { m with out := cells }
  | .disp => { m with disp := cells }

/-- A word of a buffer, `none` where it is unwritten (R148). -/
def Memory.readWord (m : Memory) (b : BufId) (i : Nat) : Option Word :=
  match (m.buffer b).find i with
  | some w => some w
  | none => b.unlisted

/-- Consecutive words stored into a buffer. -/
def Memory.storeWords (m : Memory) (b : BufId) (start : Nat) (ws : List Word) : Memory :=
  m.setBuffer b ((m.buffer b).store b.unlisted start ws)

/-- A buffer in canonical form: the indices rise strictly and no entry equals what an unlisted
index reads as, so that equal contents are equal data. -/
abbrev Buffer.Canonical (unlisted : Option Word) (b : Buffer) : Prop :=
  b.Pairwise (fun x y => x.1 < y.1) ∧ ∀ c ∈ b, some c.2 ≠ unlisted

/-- Every buffer is in canonical form. -/
abbrev Memory.wf (m : Memory) : Prop :=
  m.win.Canonical BufId.win.unlisted ∧ m.chunk.Canonical BufId.chunk.unlisted ∧
  m.sig.Canonical BufId.sig.unlisted ∧ m.specRe.Canonical BufId.specRe.unlisted ∧
  m.specIm.Canonical BufId.specIm.unlisted ∧ m.out.Canonical BufId.out.unlisted ∧
  m.disp.Canonical BufId.disp.unlisted

/-- A word of a buffer of the state. -/
def State.readWord (s : State) (b : BufId) (i : Nat) : Option Word := s.mem.readWord b i

/-- `n` consecutive words as a command reads them, in increasing index; the first unwritten one
is a fault (R148, R802). -/
def State.readWords (s : State) (b : BufId) (start : Nat) : Nat → Except Fault (List Word)
  | 0 => .ok []
  | n + 1 =>
    match s.readWord b start with
    | none => .error (.unwrittenWord b start)
    | some w =>
      match s.readWords b (start + 1) n with
      | .error f => .error f
      | .ok ws => .ok (w :: ws)

/-- Consecutive words stored into a buffer. -/
def State.storeWords (s : State) (b : BufId) (start : Nat) (ws : List Word) : State :=
  { s with mem := s.mem.storeWords b start ws }

/-! ### Commands -/

/-- The start of a command (R705, first lines). -/
def State.startCommand (s : State) (w : Word) : State :=
  { s with lastCmd := w, status := { s.status with busy := true } }

/-- The completion of a command with a code (R705, last lines): ERRCODE is written, ERR is set on
an error and never cleared, DONE is set, BUSY is cleared. -/
def State.complete (s : State) (code : ErrCode) : State :=
  { s with
    errCode := code.toByte
    status := { s.status with
      busy := false
      done := true
      err := s.status.err || decide (code ≠ .ok) } }

/-- The completion of a command that passed its checks; later draws are fresh. -/
def State.succeed (s : State) : State :=
  { s.complete .ok with draws := s.draws + 1 }

/-- The code of the first check that fails, each check given as (it fails, its code) (R710). -/
def firstFailure : List (Bool × ErrCode) → Option ErrCode
  | [] => none
  | (fails, code) :: rest => if fails then some code else firstFailure rest

/-- The check of STATUS.CFG_VALID (R710, step 3). -/
def State.configured (s : State) : Bool × ErrCode := (!s.status.cfgValid, .notConfigured)

/-- The check phase, then the effect phase (00_scope.md R14, 60_exceptions.md R706): the first
failing check ends the command with its code and no other effect; an effect that reads an
unwritten word is a fault. -/
def State.runChecked (s : State) (checks : List (Bool × ErrCode))
    (effect : State → Except Fault State) : Outcome :=
  match firstFailure checks with
  | some code => .next (s.complete code)
  | none =>
    match effect s with
    | .ok t => .next t.succeed
    | .error f => .fault f

/-- `for i in 0 .. n-1: body i`, in increasing index (R214). -/
def forEach (body : Nat → State → Except Fault State) : Nat → State → Except Fault State
  | 0, s => .ok s
  | n + 1, s =>
    match forEach body n s with
    | .error f => .error f
    | .ok t => body n t

end Sys2Proof.Machine
end

