-- ==== Sys2Proof/Machine/Fft.lean ====
section
/-! DEFINITION. The windowed FFT unit: the two kernels and the commands FWD and INV (41_fft.md
R450 to R458). A packed spectrum is its two parts of N/2 words each. -/

namespace Sys2Proof.Machine

open Sys2Proof.Binary32

/-- A packed spectrum (R450). -/
structure Spectrum where
  /-- P.re[0 .. M−1]. -/
  re : List Word
  /-- P.im[0 .. M−1]. -/
  im : List Word
deriving DecidableEq, Repr

/-- The closed form of the forward kernel for N = 2 (R451). `nan j` is the NaN of node `j`. -/
def fftForward2 (nan : Nat → Word) (y0 y1 : Word) : Spectrum where
  re := [mul32 (nan 0) (add32 (nan 1) y0 y1) two]
  im := [mul32 (nan 2) (sub32 (nan 3) y0 y1) two]

/-- The closed form of the forward kernel for N = 4 (R451). -/
def fftForward4 (nan : Nat → Word) (y0 y1 y2 y3 : Word) : Spectrum :=
  let e := add32 (nan 0) y0 y2
  let o := add32 (nan 1) y1 y3
  { re := [mul32 (nan 2) (add32 (nan 3) e o) two, mul32 (nan 4) (sub32 (nan 5) y0 y2) two]
    im := [mul32 (nan 6) (sub32 (nan 7) e o) two, mul32 (nan 8) (sub32 (nan 9) y3 y1) two] }

/-- `FFT_FWD(N, y)` (R451): the closed forms for N = 2 and N = 4, the open kernel otherwise. -/
def fftForward (y : List Word) : Spectrum :=
  let nan := fun node => Config.nan (.transform false y node)
  match y with
  | [y0, y1] => fftForward2 nan y0 y1
  | [y0, y1, y2, y3] => fftForward4 nan y0 y1 y2 y3
  | _ =>
    { re := (List.range (y.length / 2)).map (Config.kernels.fwdRe y.length y)
      im := (List.range (y.length / 2)).map (Config.kernels.fwdIm y.length y) }

/-- The closed form of the inverse kernel for N = 2 (R456). -/
def fftInverse2 (nan : Nat → Word) (re0 im0 : Word) : List Word :=
  [add32 (nan 0) re0 im0, sub32 (nan 1) re0 im0]

/-- The closed form of the inverse kernel for N = 4 (R456). -/
def fftInverse4 (nan : Nat → Word) (re0 re1 im0 im1 : Word) : List Word :=
  let s := add32 (nan 0) re0 im0
  let t := sub32 (nan 1) re0 im0
  let c2 := mul32 (nan 2) re1 two
  let d2 := mul32 (nan 3) im1 two
  [add32 (nan 4) s c2, sub32 (nan 5) t d2, sub32 (nan 6) s c2, add32 (nan 7) t d2]

/-- `FFT_INV(N, P)` (R456). -/
def fftInverse (size : Nat) (p : Spectrum) : List Word :=
  let nan := fun node => Config.nan (.transform true (p.re ++ p.im) node)
  match size, p.re, p.im with
  | 2, [re0], [im0] => fftInverse2 nan re0 im0
  | 4, [re0, re1], [im0, im1] => fftInverse4 nan re0 re1 im0 im1
  | _, _, _ => (List.range size).map (Config.kernels.inv size p.re p.im)

/-- The windowed chunk: `y[n] = mul32(WIN[n], CHUNK[n])` (R453). `i` is the spectrum index, which
only tells one NaN from another. A NaN product is drawn afresh by every command (DESIGN CHOICE,
safe; log entry 15): two commands over one chunk may then give the kernel different words, and for
N ≥ 8, where R452 says nothing of an input with a NaN, whole words of the two spectra may differ. -/
def State.windowed (s : State) (i : Nat) (x : List Word) : List Word :=
  x.mapIdx fun n v => mul32 (Config.nan (.command s.draws .window i n))
    ((s.readWord .win n).getD posZero) v

/-- The spectrum stored as row `c` of SPEC_RE and SPEC_IM. -/
def State.storeSpectrum (s : State) (c : Nat) (p : Spectrum) : State :=
  (s.storeWords .specRe (s.rowStart c) p.re).storeWords .specIm (s.rowStart c) p.im

/-- The effect of FWD (R453). -/
def fwdEffect (c : Nat) (s : State) : Except Fault State := do
  let x ← s.readWords .chunk 0 s.sizeN
  .ok (s.storeSpectrum c (fftForward (s.windowed c x)))

/-- A spectrum as the inverse reads it: the M = N/2 words of each part (R458, R802). -/
def State.readSpectrum (s : State) (c : Nat) : Except Fault Spectrum := do
  let re ← s.readWords .specRe (s.rowStart c) (s.sizeN / 2)
  let im ← s.readWords .specIm (s.rowStart c) (s.sizeN / 2)
  .ok ⟨re, im⟩

/-- The inverse of a spectrum times 1/(2N), the power of two 2^−(k2+1) (R458). -/
def State.inverseChunk (s : State) (i : Nat) (p : Spectrum) : List Word :=
  (fftInverse s.sizeN p).mapIdx fun n u =>
    mul32 (Config.nan (.command s.draws .inverseScale i n)) u (pow2 (-(s.log2N + 1 : Int)))

/-- The effect of INV (R458). -/
def invEffect (c : Nat) (s : State) : Except Fault State := do
  let p ← s.readSpectrum c
  .ok (s.storeWords .chunk 0 (s.inverseChunk c p))

/-- FWD c (R453). -/
def execFwd (c : Nat) (s : State) : Outcome :=
  s.runChecked [s.configured, (decide (s.params.chunkCap ≤ c), .argRange)] (fwdEffect c)

/-- INV c (R458). -/
def execInv (c : Nat) (s : State) : Outcome :=
  s.runChecked [s.configured, (decide (s.params.chunkCap ≤ c), .argRange)] (invEffect c)

end Sys2Proof.Machine
end

