-- ==== Sys2Proof/Machine/Ola.lean ====
section
/-! DEFINITION. The overlap-add accumulator and the two syntheses: OLA_CLEAR, OLA_ADD, OLA_SCALE,
SYNTH and SYNTH_OLA (43_ola.md R550 to R561). -/

namespace Sys2Proof.Machine

open Sys2Proof.Binary32

/-- The check of NUM_CHUNKS against CHUNK_CAP (10_state.md R121). -/
def State.chunksFit (s : State) : Bool × ErrCode :=
  (decide (s.params.chunkCap < s.chunksC), .capacity)

/-- The length of the overlap-add output, `Lout = C·H + N` (R550). -/
def State.olaLength (s : State) : Nat := s.chunksC * s.hopH + s.sizeN

/-- The checks of OLA_CLEAR and SYNTH_OLA (R550, R557). -/
def State.olaChecks (s : State) : List (Bool × ErrCode) :=
  [s.configured, s.chunksFit, (decide (s.params.outCap < s.olaLength), .capacity)]

/-- The effect of OLA_CLEAR (R550). -/
def olaClearEffect (s : State) : State :=
  { s.storeWords .out 0 (List.replicate s.olaLength posZero) with
    outLen := BitVec.ofNat 32 s.olaLength }

/-- The words OUT[c·H ..] plus the chunk, one rounded addition each (R551). -/
def State.accumulate (s : State) (c : Nat) (acc x : List Word) : List Word :=
  (acc.zip x).mapIdx fun j p => add32 (Config.nan (.command s.draws .olaAdd c j)) p.1 p.2

/-- The effect of OLA_ADD (R551). -/
def olaAddEffect (c : Nat) (s : State) : Except Fault State := do
  let acc ← s.readWords .out (c * s.hopH) s.sizeN
  let x ← s.readWords .chunk 0 s.sizeN
  .ok (s.storeWords .out (c * s.hopH) (s.accumulate c acc x))

/-- `g`, the binary32 value R/2, a power of two (R553). -/
def State.olaGain (s : State) : Word := pow2 ((Nat.log2 s.ratioR : Int) - 1)

/-- Every word divided by the gain (R553). -/
def State.rescale (s : State) (acc : List Word) : List Word :=
  acc.mapIdx fun p w => div32 (Config.nan (.command s.draws .olaScale 0 p)) w s.olaGain

/-- The effect of OLA_SCALE (R553). -/
def olaScaleEffect (s : State) : Except Fault State := do
  let acc ← s.readWords .out 0 s.outN
  .ok (s.storeWords .out 0 (s.rescale acc))

/-- OLA_CLEAR (R550). -/
def execOlaClear (s : State) : Outcome :=
  s.runChecked s.olaChecks fun t => .ok (olaClearEffect t)

/-- OLA_ADD c (R551). -/
def execOlaAdd (c : Nat) (s : State) : Outcome :=
  s.runChecked
    [s.configured, (decide (s.outN < c * s.hopH + s.sizeN), .argRange)] (olaAddEffect c)

/-- OLA_SCALE (R553). -/
def execOlaScale (s : State) : Outcome := s.runChecked [s.configured] olaScaleEffect

/-- One round of SYNTH: the inverse of spectrum `i` into CHUNK and from there to OUT (R555). -/
def synthRound (i : Nat) (s : State) : Except Fault State := do
  let t ← invEffect i s
  let x ← t.readWords .chunk 0 t.sizeN
  .ok (t.storeWords .out (i * t.sizeN) x)

/-- The effect of SYNTH (R555). -/
def synthEffect (s : State) : Except Fault State := do
  let t ← forEach synthRound s.chunksC s
  .ok { t with outLen := BitVec.ofNat 32 (s.chunksC * s.sizeN) }

/-- SYNTH (R555). -/
def execSynth (s : State) : Outcome :=
  s.runChecked
    [s.configured, s.chunksFit, (decide (s.params.outCap < s.chunksC * s.sizeN), .capacity)]
    synthEffect

/-- One round of SYNTH_OLA: INV i, then OLA_ADD i (R557). -/
def synthOlaRound (i : Nat) (s : State) : Except Fault State := do
  let t ← invEffect i s
  olaAddEffect i t

/-- The effect of SYNTH_OLA (R557): OLA_CLEAR, the rounds in increasing index (R552), OLA_SCALE. -/
def synthOlaEffect (s : State) : Except Fault State := do
  let t ← forEach synthOlaRound s.chunksC (olaClearEffect s)
  olaScaleEffect t

/-- SYNTH_OLA (R557): the checks of OLA_CLEAR, in the same order. -/
def execSynthOla (s : State) : Outcome := s.runChecked s.olaChecks synthOlaEffect

end Sys2Proof.Machine
end

