-- ==== Sys2Proof/Machine/Band.lean ====
section
/-! DEFINITION. The frequency-band unit: BAND and ZERO_BAND (44_band.md R600 to R613). -/

namespace Sys2Proof.Machine

open Sys2Proof.Binary32

/-- The quotient `q` of BAND: three binary32 divisions, M as a binary32 value (R600). -/
def State.bandQuotient (s : State) : Word :=
  let nan := fun op => Config.nan (.command s.draws op 0 0)
  let nyq := div32 (nan .nyquist) s.sampleRate two
  let fpb := div32 (nan .freqPerBand) nyq (Binary32.ofNat s.bandsM)
  div32 (nan .bandQuotient) s.freqHz fpb

/-- The quotient has no int32 floor: it is a NaN or an infinity, or its floor is outside int32
(R600). -/
def bandOutside (q : Word) : Bool :=
  !isFinite q || decide (floorInt q < -2 ^ 31) || decide (2 ^ 31 - 1 < floorInt q)

/-- BAND (R600). -/
def execBand (s : State) : Outcome :=
  s.runChecked [s.configured, (bandOutside s.bandQuotient, .bandConvert)]
    fun t => .ok { t with bandIdx := BitVec.ofInt 32 (floorInt t.bandQuotient) }

/-- LOWER_BAND as an int32 (10_state.md R127). -/
def State.bandLo (s : State) : Int := s.lowerBand.toInt
/-- UPPER_BAND as an int32. -/
def State.bandHi (s : State) : Int := s.upperBand.toInt

/-- The checks of ZERO_BAND in order (R610, R611). -/
def State.zeroBandChecks (s : State) : List (Bool × ErrCode) :=
  [s.configured,
   (decide ((s.bandsM : Int) < s.bandHi), .rangeOutOfRange),
   (decide (s.bandHi < s.bandLo), .rangeMinGtMax),
   (decide (s.bandLo < 0), .rangeMinLtZero),
   s.chunksFit]

/-- The zeroing of one spectrum: words lo .. hi−1 of both parts become +0.0 (R610, R612). -/
def zeroBandRound (c : Nat) (s : State) : Except Fault State :=
  let lo := s.bandLo.toNat
  let zeros := List.replicate (s.bandHi.toNat - lo) posZero
  .ok ((s.storeWords .specRe (s.rowStart c + lo) zeros).storeWords .specIm (s.rowStart c + lo) zeros)

/-- ZERO_BAND (R610). -/
def execZeroBand (s : State) : Outcome :=
  s.runChecked s.zeroBandChecks fun t => forEach zeroBandRound t.chunksC t

end Sys2Proof.Machine
end

