-- ==== Sys2Proof/Machine/Window.lean ====
section
/-! DEFINITION. The window generator (40_control.md R410, R411): HANN(N, n) is the binary32 value
nearest to w(N, n) = 0.5 · (1 − cos(2πn/N)).

The ideal is evaluated in fixed point with 128 fraction bits from the series
1 − cos θ = θ²/2! − θ⁴/4! + …, at the angle of min(n, N − n), and rounded once. The error of that
evaluation is far below the distance of any coefficient from the middle between two neighbouring
binary32 values for every N ≤ 2^16 (log entry 5), so the result is the correctly rounded one. -/

namespace Sys2Proof.Machine

/-- The fraction bits of the fixed-point evaluation. -/
abbrev hannBits : Nat := 128

/-- π · 2^128, rounded down. -/
def piFixed : Nat := 1069028584064966747859680373161870783300

/-- The terms θ^(2j)/(2j)! from `j` on, for `sq` = θ² and `term` the term `j`, as the sums of the
terms with positive and with negative sign; `fuel` terms are taken. -/
def versineSums (sq : Nat) : Nat → Nat → Nat → Nat × Nat
  | 0, _, _ => (0, 0)
  | fuel + 1, j, term =>
    let next := term * sq / 2 ^ hannBits / ((2 * j + 1) * (2 * j + 2))
    let rest := versineSums sq fuel (j + 1) next
    (term + rest.2, rest.1)

/-- 1 − cos(2πn/N) in fixed point, for 0 ≤ 2n ≤ N: 28 terms of the series. -/
def versineFixed (size n : Nat) : Nat :=
  let theta := 2 * piFixed * n / size
  let sq := theta * theta / 2 ^ hannBits
  let sums := versineSums sq 28 1 (sq / 2)
  sums.1 - sums.2

/-- HANN(N, n) (R411); w(N, n) = w(N, N − n). -/
def hann (size n : Nat) : Word :=
  Binary32.round false (versineFixed size (min n (size - n)) * 2 ^ 149) (2 ^ (hannBits + 1))

/-- WIN[0 .. N−1] (R404); the words from N on are +0.0. -/
def hannWindow (size : Nat) : List Word := (List.range size).map (hann size)

end Sys2Proof.Machine
end

