-- ==== Sys2Proof/Machine/Control.lean ====
section
/-! DEFINITION. The control commands NOP and CONFIG (40_control.md R400 to R408). -/

namespace Sys2Proof.Machine

/-- NOP (R400): no check and no effect; it completes. -/
def execNop (s : State) : Outcome := s.runChecked [] .ok

/-- A power of two in [2, limit] (R402, R403): for a word w ≥ 2, `w AND (w − 1) = 0`. -/
def legalPower (w : Word) (limit : Nat) : Bool :=
  decide (2 ≤ w.toNat) && decide (w.toNat ≤ limit) && decide (w &&& (w - 1#32) = 0#32)

/-- The checks of CONFIG in order: the size (R402), then the overlap ratio (R403, R408). -/
def State.configChecks (s : State) : List (Bool × ErrCode) :=
  [(!legalPower s.size s.params.nMax, .invalidParameterSize),
   (!legalPower s.overlap s.size.toNat, .invalidParameterOverlap)]

/-- The effect phase of CONFIG (R404): the configuration registers and the whole window are
written, the results of the old configuration are forgotten. -/
def State.configure (s : State) : State :=
  let n := s.size.toNat
  let r := s.overlap.toNat
  { s with
    nActive := BitVec.ofNat 32 n
    rActive := BitVec.ofNat 32 r
    hop := BitVec.ofNat 32 (n / r)
    numBands := BitVec.ofNat 32 (n / 2)
    mem := { s.mem with win := Buffer.store BufId.win.unlisted 0 (hannWindow n) [] }
    numChunks := 0x00000000#32
    outLen := 0x00000000#32
    dispRows := 0x00000000#32
    dispW := 0x00000000#32
    status := { s.status with cfgValid := true } }

/-- CONFIG (R402 to R405). It is the one command whose failure changes state beyond the
completion: CFG_VALID is cleared (R405). -/
def execConfig (s : State) : Outcome :=
  match firstFailure s.configChecks with
  | some code =>
    .next (State.complete { s with status := { s.status with cfgValid := false } } code)
  | none => .next s.configure.succeed

end Sys2Proof.Machine
end

