-- ==== Sys2Proof/Machine/Display.lean ====
section
/-! DEFINITION. The magnitude-to-dB scaler: MAG, TRIM and DB (45_display.md R650 to R663). -/

namespace Sys2Proof.Machine

open Sys2Proof.Binary32

/-- The squared magnitudes of a spectrum, `re² + im²` with three roundings (R650). -/
def State.magnitudes (s : State) (c : Nat) (re im : List Word) : List Word :=
  (re.zip im).mapIdx fun k p =>
    let nan := fun op => Config.nan (.command s.draws op c k)
    add32 (nan .magSum) (mul32 (nan .magRe) p.1 p.1) (mul32 (nan .magIm) p.2 p.2)

/-- One row of MAG: the M = NUM_BANDS words of the spectrum's parts (R650, R802). -/
def magRound (c : Nat) (s : State) : Except Fault State := do
  let re ← s.readWords .specRe (s.rowStart c) s.bandsM
  let im ← s.readWords .specIm (s.rowStart c) s.bandsM
  .ok (s.storeWords .disp (s.rowStart c) (s.magnitudes c re im))

/-- The effect of MAG (R650). -/
def magEffect (s : State) : Except Fault State := do
  let t ← forEach magRound s.chunksC s
  .ok { t with
    dispRows := BitVec.ofNat 32 s.chunksC
    dispW := BitVec.ofNat 32 s.bandsM }

/-- MAG (R650). -/
def execMag (s : State) : Outcome := s.runChecked [s.configured, s.chunksFit] magEffect

/-- The largest index whose word exceeds TRIM_EPS, 0 if there is none (R655). `k` is the index of
the first word of the list. -/
def highestAbove (k : Nat) : List Word → Nat → Nat
  | [], best => best
  | w :: ws, best => highestAbove (k + 1) ws (if gt32 w Config.trimEps then k else best)

/-- A row of the display matrix (R655, R660, R802). -/
def State.readRow (s : State) (c : Nat) : Except Fault (List Word) :=
  s.readWords .disp (s.rowStart c) s.widthW

/-- The least of `h[0 .. n]` over the rows, read in increasing order (R655). -/
def State.leastHighest (s : State) : Nat → Except Fault Nat
  | 0 => do
    let row ← s.readRow 0
    .ok (highestAbove 0 row 0)
  | n + 1 => do
    let m ← s.leastHighest n
    let row ← s.readRow (n + 1)
    .ok (min m (highestAbove 0 row 0))

/-- The effect of TRIM (R655, R656). -/
def trimEffect (s : State) : Except Fault State :=
  match s.rowsRd with
  | 0 => .ok s
  | last + 1 => do
    let m ← s.leastHighest last
    .ok { s with dispW := BitVec.ofNat 32 (min (m + Config.trimMargin) s.widthW) }

/-- TRIM (R655). -/
def execTrim (s : State) : Outcome := s.runChecked [s.configured] trimEffect

/-- `LOG10(v)` (R662). The values the rule fixes are answered as constants (zeros, +infinity and
the powers of ten from 10^0 to 10^10), which is what the kernel's own properties say; every other
value is the open kernel's. -/
def log10 (v : Word) : Word :=
  if isZero v then negInf
  else if v = posInf then posInf
  else
    match (List.range 11).find? (fun j => decide (v = Binary32.ofNat (10 ^ j))) with
    | some j => Binary32.ofNat j
    | none => Config.kernels.log10 v

/-- ZERO_REF is not a usable reference: a NaN, an infinity, a zero or negative (R660). -/
def badReference (ref : Word) : Bool := !isFinite ref || isZero ref || signBit ref

/-- A row in decibels: 20 · LOG10(v / ref) (R660). Where the quotient of a negative word rounds to
−0.0 the pseudocode of R660 with R662 gives −infinity and the rule's corner case gives a NaN; the
model follows the pseudocode (DESIGN CHOICE, unsafe; log entry 19). -/
def State.decibels (s : State) (c : Nat) (row : List Word) : List Word :=
  row.mapIdx fun k v =>
    let nan := fun op => Config.nan (.command s.draws op c k)
    mul32 (nan .dbProduct) twenty (log10 (div32 (nan .dbQuotient) v s.zeroRef))

/-- One row of DB (R660). -/
def dbRound (c : Nat) (s : State) : Except Fault State := do
  let row ← s.readRow c
  .ok (s.storeWords .disp (s.rowStart c) (s.decibels c row))

/-- DB (R660). -/
def execDb (s : State) : Outcome :=
  s.runChecked [s.configured, (badReference s.zeroRef, .invalidParameterDbref)]
    fun t => forEach dbRound t.rowsRd t

end Sys2Proof.Machine
end

