-- ==== Sys2Proof/Machine/Framer.lean ====
section
/-! DEFINITION. The signal framer and the whole-signal analysis: FRAME and ANALYZE (42_framer.md
R500 to R512). -/

namespace Sys2Proof.Machine

/-- The signal capacity check (R500). -/
def State.signalFits (s : State) : Bool × ErrCode :=
  (decide (s.params.sigCap < s.lenL), .capacity)

/-- `frame(i, M)` (R501): the signal's words from the frame's start, bit for bit, then +0.0 up to
N words. -/
def State.frameWords (s : State) (m : Mode) (i : Nat) : Except Fault (List Word) := do
  let ws ← s.readWords .sig (s.frameStart m i) (s.frameFill m i)
  .ok (ws ++ List.replicate (s.sizeN - s.frameFill m i) posZero)

/-- The effect of FRAME (R503). -/
def frameEffect (m : Mode) (c : Nat) (s : State) : Except Fault State := do
  let ws ← s.frameWords m c
  .ok (s.storeWords .chunk 0 ws)

/-- FRAME.C c, FRAME.O c (R503). -/
def execFrame (m : Mode) (c : Nat) (s : State) : Outcome :=
  s.runChecked
    [s.configured, s.signalFits, (decide (s.frameCount m ≤ c), .argRange)] (frameEffect m c)

/-- One round of ANALYZE: frame `i` into CHUNK, its windowed transform into spectrum `i` (R510). -/
def analyzeRound (m : Mode) (i : Nat) (s : State) : Except Fault State := do
  let t ← frameEffect m i s
  fwdEffect i t

/-- The effect of ANALYZE (R510). -/
def analyzeEffect (m : Mode) (s : State) : Except Fault State := do
  let t ← forEach (analyzeRound m) (s.frameCount m) s
  .ok { t with numChunks := BitVec.ofNat 32 (s.frameCount m) }

/-- ANALYZE.C, ANALYZE.O (R510). -/
def execAnalyze (m : Mode) (s : State) : Outcome :=
  s.runChecked
    [s.configured, s.signalFits, (decide (s.params.chunkCap < s.frameCount m), .capacity)]
    (analyzeEffect m)

end Sys2Proof.Machine
end

