-- ==== Sys2Proof/Machine/Dispatch.lean ====
section
/-! DEFINITION. The meaning of every command, one arm per row of spec/opcode_table.json. A meaning
makes the checks of 60_exceptions.md R710 from step 3 on, has the command's effect and completes
it (R705). -/

namespace Sys2Proof.Machine

def exec (i : Instr) (s : State) : Host.Outcome State Fault Refusal :=
  match i with
  | .nop => Sys2Proof.Machine.execNop s
  | .config => Sys2Proof.Machine.execConfig s
  | .fwd c => Sys2Proof.Machine.execFwd c s
  | .inv c => Sys2Proof.Machine.execInv c s
  | .frame m c => Sys2Proof.Machine.execFrame m c s
  | .analyze m => Sys2Proof.Machine.execAnalyze m s
  | .olaClear => Sys2Proof.Machine.execOlaClear s
  | .olaAdd c => Sys2Proof.Machine.execOlaAdd c s
  | .olaScale => Sys2Proof.Machine.execOlaScale s
  | .synth => Sys2Proof.Machine.execSynth s
  | .synthOla => Sys2Proof.Machine.execSynthOla s
  | .band => Sys2Proof.Machine.execBand s
  | .zeroBand => Sys2Proof.Machine.execZeroBand s
  | .mag => Sys2Proof.Machine.execMag s
  | .trim => Sys2Proof.Machine.execTrim s
  | .db => Sys2Proof.Machine.execDb s

end Sys2Proof.Machine
end

