-- ==== Sys2Proof/Machine/Registers.lean ====
section
/-! DEFINITION. The register map of 10_state.md section 3: which register stands at which offset,
its access kind, what it reads as and what a host write does to it (R103 to R140). -/

namespace Sys2Proof.Machine

/-- The registers of region 0 (10_state.md section 3). -/
inductive Reg where
  | id | version | cmd | status | errCode | lastCmd | irqEn
  | size | overlap | nActive | rActive | hop | numBands
  | sigLen | numChunks | outLen
  | sampleRate | freqHz | bandIdx | lowerBand | upperBand
  | zeroRef | trimEps | trimMargin | dispRows | dispW
  | capLog2NMax | capSig | capChunk | capOut
deriving DecidableEq, Repr

/-- The register at a byte offset of region 0; `none` is a reserved offset (section 3). -/
def Reg.ofOffset : Nat → Option Reg
  | 0x000 => some .id
  | 0x004 => some .version
  | 0x008 => some .cmd
  | 0x00C => some .status
  | 0x010 => some .errCode
  | 0x014 => some .lastCmd
  | 0x018 => some .irqEn
  | 0x020 => some .size
  | 0x024 => some .overlap
  | 0x028 => some .nActive
  | 0x02C => some .rActive
  | 0x030 => some .hop
  | 0x034 => some .numBands
  | 0x040 => some .sigLen
  | 0x044 => some .numChunks
  | 0x048 => some .outLen
  | 0x050 => some .sampleRate
  | 0x054 => some .freqHz
  | 0x058 => some .bandIdx
  | 0x05C => some .lowerBand
  | 0x060 => some .upperBand
  | 0x070 => some .zeroRef
  | 0x074 => some .trimEps
  | 0x078 => some .trimMargin
  | 0x07C => some .dispRows
  | 0x080 => some .dispW
  | 0x0F0 => some .capLog2NMax
  | 0x0F4 => some .capSig
  | 0x0F8 => some .capChunk
  | 0x0FC => some .capOut
  | _ => none

/-- The offset of CMD (R106). -/
abbrev cmdOffset : Word := 0x00000008#32

/-- What a register reads as (R103 to R140). A read has no side effect (20_memory.md R204). -/
def State.readReg (s : State) : Reg → Word
  | .id => Config.idValue
  | .version => Config.versionValue
  | .cmd => 0x00000000#32
  | .status => s.status.toWord
  | .errCode => s.errCode.zeroExtend 32
  | .lastCmd => s.lastCmd
  | .irqEn => s.irqEn.toWord
  | .size => s.size
  | .overlap => s.overlap
  | .nActive => s.nActive
  | .rActive => s.rActive
  | .hop => s.hop
  | .numBands => s.numBands
  | .sigLen => s.sigLen
  | .numChunks => s.numChunks
  | .outLen => s.outLen
  | .sampleRate => s.sampleRate
  | .freqHz => s.freqHz
  | .bandIdx => s.bandIdx
  | .lowerBand => s.lowerBand
  | .upperBand => s.upperBand
  | .zeroRef => s.zeroRef
  | .trimEps => Config.trimEps
  | .trimMargin => BitVec.ofNat 32 Config.trimMargin
  | .dispRows => s.dispRows
  | .dispW => s.dispW
  | .capLog2NMax => BitVec.ofNat 32 s.params.log2NMax
  | .capSig => BitVec.ofNat 32 s.params.sigCap
  | .capChunk => BitVec.ofNat 32 s.params.chunkCap
  | .capOut => BitVec.ofNat 32 s.params.outCap

/-- STATUS.ACCERR set (R107). -/
def State.setAccErr (s : State) : State := { s with status := { s.status with accErr := true } }

/-- STATUS.OVR set: a CMD write while BUSY = 1 is ignored (R106, 70_reset_and_hazards.md R810). -/
def State.setOverrun (s : State) : State := { s with status := { s.status with ovr := true } }

/-- A host write to a register other than CMD. A write to a whole RO register is ignored and sets
ACCERR (R103, 20_memory.md R207); a write to STATUS acknowledges (R107); a write to CMD starts a
command and is the port's business (R106), so here it changes nothing. -/
def State.writeReg (s : State) (v : Word) : Reg → State
  | .id => s.setAccErr
  | .version => s.setAccErr
  | .cmd => s
  | .status => { s with status := s.status.acknowledge v }
  | .errCode => s.setAccErr
  | .lastCmd => s.setAccErr
  | .irqEn => { s with irqEn := IrqEnable.ofWord v }
  | .size => { s with size := v }
  | .overlap => { s with overlap := v }
  | .nActive => s.setAccErr
  | .rActive => s.setAccErr
  | .hop => s.setAccErr
  | .numBands => s.setAccErr
  | .sigLen => { s with sigLen := v }
  | .numChunks => { s with numChunks := v }
  | .outLen => s.setAccErr
  | .sampleRate => { s with sampleRate := v }
  | .freqHz => { s with freqHz := v }
  | .bandIdx => s.setAccErr
  | .lowerBand => { s with lowerBand := v }
  | .upperBand => { s with upperBand := v }
  | .zeroRef => { s with zeroRef := v }
  | .trimEps => s.setAccErr
  | .trimMargin => s.setAccErr
  | .dispRows => s.setAccErr
  | .dispW => s.setAccErr
  | .capLog2NMax => s.setAccErr
  | .capSig => s.setAccErr
  | .capChunk => s.setAccErr
  | .capOut => s.setAccErr

end Sys2Proof.Machine
end

