-- ==== Sys2Proof/Machine/Port.lean ====
section
/-! DEFINITION. The block's one port: the address map, the host's accesses, the start and the
completion of a command, and reset (20_memory.md R200 to R216, 60_exceptions.md R705 and R710,
70_reset_and_hazards.md R800 to R811). The block fetches no instructions (R215): a command is the
word a host writes to CMD. -/

namespace Sys2Proof.Machine

/-- What a device-relative address names (R201). -/
inductive Target where
  /-- The register at an offset of region 0, a reserved offset among them. -/
  | reg (offset : Nat)
  /-- A buffer word. -/
  | word (b : BufId) (i : Nat)
  /-- Nothing: an access to it is not admitted (R205, R207). -/
  | nothing
deriving DecidableEq, Repr

/-- The buffer of a region, addr[31:28] (R201). -/
def BufId.ofRegion : Nat → Option BufId
  | 0x1 => some .win
  | 0x2 => some .chunk
  | 0x3 => some .sig
  | 0x4 => some .specRe
  | 0x5 => some .specIm
  | 0x6 => some .out
  | 0x7 => some .disp
  | _ => none

/-- The region number of a buffer (R201). -/
def BufId.region : BufId → Nat
  | .win => 0x1
  | .chunk => 0x2
  | .sig => 0x3
  | .specRe => 0x4
  | .specIm => 0x5
  | .out => 0x6
  | .disp => 0x7

/-- The word index of an address, addr[27:2] (R201). -/
def addrIndex (addr : Word) : Nat := addr.toNat / 2 ^ 2 % 2 ^ 26

/-- The address map of R201 for an access of `size` bytes; any other width than 4, or an address
whose bits 1:0 are not zero, names nothing (R205). -/
def targetOf (p : Config.Params) (addr : Word) (size : Nat) : Target :=
  if size ≠ 4 ∨ addr.toNat % 4 ≠ 0 then .nothing
  else if addr.toNat / 2 ^ 28 = 0 then
    (if addr.toNat / 2 ^ 12 = 0 then .reg (addr.toNat % 2 ^ 12) else .nothing)
  else
    match BufId.ofRegion (addr.toNat / 2 ^ 28) with
    | none => .nothing
    | some b => if addrIndex addr < capacityOf p b then .word b (addrIndex addr) else .nothing

/-- The address of a buffer word (R201). -/
def addressOf (b : BufId) (i : Nat) : Word := BitVec.ofNat 32 (b.region * 2 ^ 28 + 4 * i)

/-- The bytes of the address space as an interconnect would present them (R208): the lane of the
word that the byte's aligned address names, little-endian; `none` where the word is unwritten or
the address names nothing. -/
def State.byteAt (s : State) (addr : Word) : Option Byte :=
  let lane := fun w : Word => (w >>> (8 * (addr.toNat % 4))).setWidth 8
  match targetOf s.params (BitVec.ofNat 32 (addr.toNat / 4 * 4)) 4 with
  | .reg off =>
    match Reg.ofOffset off with
    | some r => some (lane (s.readReg r))
    | none => some 0x00#8
  | .word b i =>
    match s.readWord b i with
    | some w => some (lane w)
    | none => none
  | .nothing => none

/-! ### Commands through CMD -/

/-- The error code of a word that is no command (R304, R305). -/
def DecodeError.code : DecodeError → ErrCode
  | .illegalOpcode => .illegalOpcode
  | .illegalField => .illegalField

/-- `run(w)` and the completion (R705, R710): a word that is no command completes with its code and
changes nothing else. -/
def runCommand (w : Word) (s : State) : Outcome :=
  match decode w with
  | .ok i => exec i s
  | .error e => .next (s.complete (DecodeError.code e))

/-- A host write to CMD: while BUSY = 1 it is ignored and sets OVR (R810); otherwise the command
starts and completes in this step (R705, R806). -/
def writeCmd (w : Word) (s : State) : Outcome :=
  if s.status.busy then .next s.setOverrun else runCommand w (s.startCommand w)

/-- A host write to CMD whose command stays in flight (R150). -/
def beginCmd (w : Word) (s : State) : Outcome :=
  if s.status.busy then .next s.setOverrun else .next (s.startCommand w)

/-- The completion of the command in flight, which is the one LAST_CMD records (R109, R705). A
command reads its inputs as they stood when it started (R212): until it completes the host can
only write STATUS, IRQ_EN and CMD (R811), which no command reads. -/
def finishCmd (s : State) : Outcome :=
  if s.status.busy then runCommand s.lastCmd s else .next s

/-! ### Host accesses -/

/-- A host read answered with a word. -/
def State.answer (s : State) (w : Word) : State := { s with reply := w }

/-- A read that is not admitted returns 0 and sets ACCERR (R207). -/
def State.rejectRead (s : State) : State := s.setAccErr.answer 0x00000000#32

/-- A host read with BUSY = 0 (R204, R207): a reserved offset reads 0 and sets nothing; an
unwritten word reads as a free word (R802). -/
def readAccess (target : Target) (s : State) : Outcome :=
  match target with
  | .reg off =>
    match Reg.ofOffset off with
    | some r => .next (s.answer (s.readReg r))
    | none => .next (s.answer 0x00000000#32)
  | .word b i =>
    match s.readWord b i with
    | some w => .next (s.answer w)
    | none => .next { s.answer (Config.unwrittenRead s.draws) with draws := s.draws + 1 }
  | .nothing => .next s.rejectRead

/-- A host write with BUSY = 0 (R204, R207): WIN, the RO registers and the reserved offsets are
not writable; a write to CMD starts a command. -/
def writeAccess (target : Target) (v : Word) (s : State) : Outcome :=
  match target with
  | .reg off =>
    match Reg.ofOffset off with
    | some .cmd => writeCmd v s
    | some r => .next (s.writeReg v r)
    | none => .next s.setAccErr
  | .word .win _ => .next s.setAccErr
  | .word b i => .next (s.storeWords b i [v])
  | .nothing => .next s.setAccErr

/-- A host access while BUSY = 1 (R811): STATUS may be read, STATUS, IRQ_EN and CMD may be written;
an access that names no word is not admitted as ever (R207, R712); every other access breaks the
protocol and is refused. -/
def busyAccess (a : Access) (s : State) : Outcome :=
  match a with
  | .read addr size =>
    match targetOf s.params addr size with
    | .reg off =>
      match Reg.ofOffset off with
      | some .status => .next (s.answer (s.readReg .status))
      | _ => .refused (.protocolViolation a)
    | .word _ _ => .refused (.protocolViolation a)
    | .nothing => .next s.rejectRead
  | .write addr size v =>
    match targetOf s.params addr size with
    | .reg off =>
      match Reg.ofOffset off with
      | some .status => .next (s.writeReg v .status)
      | some .irqEn => .next (s.writeReg v .irqEn)
      | some .cmd => writeCmd v s
      | _ => .refused (.protocolViolation a)
    | .word _ _ => .refused (.protocolViolation a)
    | .nothing => .next s.setAccErr

/-- One host access. -/
def hostAccess (a : Access) (s : State) : Outcome :=
  if s.status.busy then busyAccess a s
  else
    match a with
    | .read addr size => readAccess (targetOf s.params addr size) s
    | .write addr size v => writeAccess (targetOf s.params addr size) v s

/-! ### Reset and the order of events -/

/-- The reset input (R800), from its assertion to its release as one event (log entry 20): every
register and buffer takes its reset value, a command in flight is abandoned. The hardwired
parameters, the host's remaining events, the last answer and the draw counter are not the block's
to reset. -/
def State.applyReset (s : State) : State :=
  { State.resetWith s.params with script := s.script, reply := s.reply, draws := s.draws }

/-- One event at the block's boundary. -/
def handleEvent (e : HostEvent) (s : State) : Outcome :=
  match e with
  | .access a => hostAccess a s
  | .start w => beginCmd w s
  | .finish => finishCmd s
  | .reset => .next s.applyReset

/-- One step of the block: the next event; where the host sends nothing more, a command in flight
completes (R812) and an idle block waits (R800, R735). -/
def stepBlock (s : State) : Outcome :=
  match s.script with
  | [] => finishCmd s
  | e :: rest => handleEvent e { s with script := rest }

/-- The host write that issues a command word (R106). -/
def issueEvent (w : Word) : HostEvent := .access (.write cmdOffset 4 w)

end Sys2Proof.Machine
end

