-- ==== Sys2Proof/Machine/Step.lean ====
section
/-! DEFINITION. The step of the block, and the placing of a command where the next step takes it:
the block fetches nothing (20_memory.md R215), so a command is placed as the next host write to
CMD, with no command in flight that would make the block ignore it (10_state.md R106). -/

namespace Sys2Proof.Machine

/-- One step. -/
def step (s : State) : Host.Outcome State Fault Refusal := stepBlock s

/-- The state with the command word whose low `nbits` bits are those of `w`, the others zero, as
the next host write to CMD. -/
def State.withFetchWord (s : State) (nbits w : Nat) : State :=
  { s with
    script := issueEvent (BitVec.ofNat 32 (w % 2 ^ nbits)) :: s.script
    status := { s.status with busy := false } }

end Sys2Proof.Machine
end

