-- ==== Sys2Proof/Safety.lean ====
section
/-! DEFINITION. The terms in which statements about the block are made: what a completed command
leaves unchanged, the invariant every step keeps, and the reference readings of rules that speak of
a largest index or of an ordered sum. -/

namespace Sys2Proof.Binary32

/-- The overflow threshold of round-to-nearest in units of 2^-149: the middle between the greatest
finite value, (2^24 − 1) · 2^104, and 2^128. -/
def overflowUnits : Nat := (2 ^ 25 - 1) * 2 ^ 252

/-- `w` is what IEEE 754 rounds the exact non-zero value `v` to (00_scope.md R16): of the sign of
`v`; below the overflow threshold a finite word such that no finite word is nearer, even where
another is equally near; from the threshold on an infinity. -/
def RoundsTo (v : ℚ) (w : Word) : Prop :=
  signBit w = decide (v < 0) ∧
  (|v| < (overflowUnits : ℚ) / 2 ^ 149 → isFinite w = true ∧
    ∀ c : Word, isFinite c = true → |value w - v| ≤ |value c - v| ∧
      (|value w - v| = |value c - v| → value c ≠ value w → w.getLsbD 0 = false)) ∧
  ((overflowUnits : ℚ) / 2 ^ 149 ≤ |v| → isInf w = true)

end Sys2Proof.Binary32

namespace Sys2Proof.Machine

/-! ### What a command changes -/

/-- The command completed with code 0x00: DONE is set, BUSY is clear, no other bit of STATUS has
changed (60_exceptions.md R705). -/
def State.CompletedOk (s t : State) : Prop :=
  t.errCode = 0x00#8 ∧ t.status = { s.status with busy := false, done := true }

/-- The command completed with an error code: DONE and ERR are set, BUSY is clear, and nothing
else has changed (60_exceptions.md R705, R706). -/
def State.CompletedWith (s t : State) (code : BitVec 8) : Prop :=
  t = { s with errCode := code, status := { s.status with busy := false, done := true, err := true } }

/-- No register but ERRCODE and STATUS has changed: every other field of the state except the
memory and the draw counter is as before. -/
def State.RegistersKept (s t : State) : Prop :=
  t = { s with errCode := t.errCode, status := t.status, draws := t.draws, mem := t.mem }

/-- Every word of memory outside the stored ones reads as before. -/
def State.WordsKept (s t : State) (stored : BufId → Nat → Prop) : Prop :=
  ∀ b i, ¬ stored b i → t.readWord b i = s.readWord b i

/-- The `n` words of buffer `b` from `start` on are written and hold `x`. -/
def State.Holds (s : State) (b : BufId) (start n : Nat) (x : Nat → Word) : Prop :=
  ∀ j < n, s.readWord b (start + j) = some (x j)

/-- The range of `n` words of buffer `b` from `start` on. -/
def InRange (b : BufId) (start n : Nat) (b' : BufId) (i : Nat) : Prop :=
  b' = b ∧ start ≤ i ∧ i < start + n

/-! ### The invariant -/

/-- Every listed index lies in its buffer (10_state.md R145). -/
abbrev Memory.InBounds (p : Config.Params) (m : Memory) : Prop :=
  (∀ c ∈ m.win, c.1 < capacityOf p .win) ∧ (∀ c ∈ m.chunk, c.1 < capacityOf p .chunk) ∧
  (∀ c ∈ m.sig, c.1 < capacityOf p .sig) ∧ (∀ c ∈ m.specRe, c.1 < capacityOf p .specRe) ∧
  (∀ c ∈ m.specIm, c.1 < capacityOf p .specIm) ∧ (∀ c ∈ m.out, c.1 < capacityOf p .out) ∧
  (∀ c ∈ m.disp, c.1 < capacityOf p .disp)

/-- The configuration registers and WIN describe the transform of size 2^k with overlap ratio 2^j
(40_control.md R404, R407). -/
def State.ConfiguredAs (s : State) (k j : Nat) : Prop :=
  1 ≤ k ∧ k ≤ s.params.log2NMax ∧ 1 ≤ j ∧ j ≤ k ∧
  s.sizeN = 2 ^ k ∧ s.ratioR = 2 ^ j ∧ s.hopH = 2 ^ (k - j) ∧ s.bandsM = 2 ^ (k - 1) ∧
  s.mem.win = Buffer.store BufId.win.unlisted 0 (hannWindow (2 ^ k)) []

/-- No CONFIG has succeeded since reset (10_state.md R117, R155). -/
def State.NeverConfigured (s : State) : Prop :=
  s.status.cfgValid = false ∧ s.sizeN = 0 ∧ s.ratioR = 0 ∧ s.hopH = 0 ∧ s.bandsM = 0 ∧
  s.mem.win = []

/-- What holds in every state a run from reset reaches, and after every step of any state that has
it: legal capacities; memory in canonical form and within its bounds; a legal configuration, or
none yet; a valid error code; OUT written up to OUT_LEN, which fits; the display matrix written
and within the buffer. -/
structure State.Invariant (s : State) : Prop where
  /-- 00_scope.md R8. -/
  legal : s.params.Legal
  /-- The canonical form. -/
  wf : s.mem.wf
  /-- 10_state.md R145. -/
  bounds : s.mem.InBounds s.params
  /-- 40_control.md R407, 10_state.md R147. -/
  config : s.NeverConfigured ∨ ∃ k j, s.ConfiguredAs k j
  /-- 60_exceptions.md R701: every other code value is never written. -/
  code : ∃ c : ErrCode, s.errCode = c.toByte
  /-- 10_state.md R122, 43_ola.md R550. -/
  outFits : s.outN ≤ s.params.outCap
  /-- 70_reset_and_hazards.md R802. -/
  outWritten : ∀ p < s.outN, (s.readWord .out p).isSome
  /-- 10_state.md R132. -/
  dispFits : s.rowsRd ≤ s.params.chunkCap ∧ s.widthW ≤ s.params.rowLen
  /-- 70_reset_and_hazards.md R802. -/
  dispWritten : ∀ c < s.rowsRd, ∀ k < s.widthW, (s.readWord .disp (s.rowStart c + k)).isSome

/-! ### Reference readings -/

/-- `h` is the largest k < width with row k > TRIM_EPS, or 0 if there is none (45_display.md
R655). -/
def IsHighestAbove (row : Nat → Word) (width h : Nat) : Prop :=
  (h < width ∧ Binary32.gt32 (row h) Config.trimEps = true ∧
    ∀ k, h < k → k < width → Binary32.gt32 (row k) Config.trimEps = false) ∨
  (h = 0 ∧ ∀ k < width, Binary32.gt32 (row k) Config.trimEps = false)

/-- `m` is the least of h 0 .. h (n−1). -/
def IsLeast (h : Nat → Nat) (n m : Nat) : Prop := (∃ c < n, h c = m) ∧ ∀ c < n, m ≤ h c

/-! ### Where a command stops -/

/-- A command passes its checks (60_exceptions.md R710, R711 and the Check line of its rule). -/
def State.Passes (s : State) : Instr → Prop
  | .nop => True
  | .config => firstFailure s.configChecks = none
  | .fwd c => s.status.cfgValid = true ∧ c < s.params.chunkCap
  | .inv c => s.status.cfgValid = true ∧ c < s.params.chunkCap
  | .frame m c => s.status.cfgValid = true ∧ s.lenL ≤ s.params.sigCap ∧ c < s.frameCount m
  | .analyze m =>
    s.status.cfgValid = true ∧ s.lenL ≤ s.params.sigCap ∧ s.frameCount m ≤ s.params.chunkCap
  | .olaClear => s.status.cfgValid = true ∧ s.chunksC ≤ s.params.chunkCap ∧
    s.chunksC * s.hopH + s.sizeN ≤ s.params.outCap
  | .olaAdd c => s.status.cfgValid = true ∧ c * s.hopH + s.sizeN ≤ s.outN
  | .olaScale => s.status.cfgValid = true
  | .synth => s.status.cfgValid = true ∧ s.chunksC ≤ s.params.chunkCap ∧
    s.chunksC * s.sizeN ≤ s.params.outCap
  | .synthOla => s.status.cfgValid = true ∧ s.chunksC ≤ s.params.chunkCap ∧
    s.chunksC * s.hopH + s.sizeN ≤ s.params.outCap
  | .band => s.status.cfgValid = true ∧ bandOutside s.bandQuotient = false
  | .zeroBand => s.status.cfgValid = true ∧ s.bandHi ≤ (s.bandsM : Int) ∧
    s.bandLo ≤ s.bandHi ∧ 0 ≤ s.bandLo ∧ s.chunksC ≤ s.params.chunkCap
  | .mag => s.status.cfgValid = true ∧ s.chunksC ≤ s.params.chunkCap
  | .trim => s.status.cfgValid = true
  | .db => s.status.cfgValid = true ∧ badReference s.zeroRef = false

/-- The `n` words of row `c` of both parts of the spectrum buffer. -/
def State.InSpectrum (s : State) (c n : Nat) (b : BufId) (i : Nat) : Prop :=
  InRange .specRe (c * s.params.rowLen) n b i ∨ InRange .specIm (c * s.params.rowLen) n b i

/-- The signal words of frame `c` (42_framer.md R501). -/
def State.InFrame (s : State) (m : Mode) (c : Nat) (b : BufId) (i : Nat) : Prop :=
  InRange .sig (c * s.frameStep m) (min s.sizeN (s.lenL - c * s.frameStep m)) b i

/-- The buffer words that the pseudocode of a command reads and that the command has not itself
written before; WIN, which is never unwritten, is left out. -/
def State.Reads (s : State) : Instr → BufId → Nat → Prop
  | .nop => fun _ _ => False
  | .config => fun _ _ => False
  | .fwd _ => InRange .chunk 0 s.sizeN
  | .inv c => s.InSpectrum c (s.sizeN / 2)
  | .frame m c => s.InFrame m c
  | .analyze m => fun b i => ∃ c < s.frameCount m, s.InFrame m c b i
  | .olaClear => fun _ _ => False
  | .olaAdd c => fun b i => InRange .out (c * s.hopH) s.sizeN b i ∨ InRange .chunk 0 s.sizeN b i
  | .olaScale => InRange .out 0 s.outN
  | .synth => fun b i => ∃ c < s.chunksC, s.InSpectrum c (s.sizeN / 2) b i
  | .synthOla => fun b i => ∃ c < s.chunksC, s.InSpectrum c (s.sizeN / 2) b i
  | .band => fun _ _ => False
  | .zeroBand => fun _ _ => False
  | .mag => fun b i => ∃ c < s.chunksC, s.InSpectrum c s.bandsM b i
  | .trim => fun b i => ∃ c < s.rowsRd, InRange .disp (c * s.params.rowLen) s.widthW b i
  | .db => fun b i => ∃ c < s.rowsRd, InRange .disp (c * s.params.rowLen) s.widthW b i

/-! ### Reference sums -/

/-- The overlap-add sum at OUT[p] of the first `n` inverse chunks, in increasing chunk index, one
rounded addition each, starting from +0.0 (43_ola.md R552). -/
def State.olaSum (s : State) (chunks : Nat → List Word) (p : Nat) : Nat → Word
  | 0 => posZero
  | i + 1 =>
    if i * s.hopH ≤ p ∧ p < i * s.hopH + s.sizeN then
      Binary32.add32 (Config.nan (.command s.draws .olaAdd i (p - i * s.hopH)))
        (s.olaSum chunks p i) ((chunks i).getD (p - i * s.hopH) posZero)
    else s.olaSum chunks p i

/-- The result of a step with a function applied to its next state. -/
def mapOutcome (f : State → State) : Outcome → Outcome
  | .next t => .next (f t)
  | .fault r => .fault r
  | .refused r => .refused r

/-- The codes a command can complete with, in the order of its checks (60_exceptions.md R711). -/
def codesOf : Instr → List ErrCode
  | .nop => []
  | .config => [.invalidParameterSize, .invalidParameterOverlap]
  | .fwd _ => [.notConfigured, .argRange]
  | .inv _ => [.notConfigured, .argRange]
  | .frame _ _ => [.notConfigured, .capacity, .argRange]
  | .analyze _ => [.notConfigured, .capacity]
  | .olaClear => [.notConfigured, .capacity]
  | .olaAdd _ => [.notConfigured, .argRange]
  | .olaScale => [.notConfigured]
  | .synth => [.notConfigured, .capacity]
  | .synthOla => [.notConfigured, .capacity]
  | .band => [.notConfigured, .bandConvert]
  | .zeroBand => [.notConfigured, .rangeOutOfRange, .rangeMinGtMax, .rangeMinLtZero, .capacity]
  | .mag => [.notConfigured, .capacity]
  | .trim => [.notConfigured]
  | .db => [.notConfigured, .invalidParameterDbref]

end Sys2Proof.Machine
end

