-- ==== Sys2Proof/Certificates/Slice0/Obligations.lean ====
section
/-! DEFINITION. The statements for the provers. Each docstring names the rule of spec/ the statement
formalises, or says that it is derived. A statement whose next state contains a drawn NaN or a
kernel's word says so through `Config.nan` and `Config.kernels`, which are opaque: it holds for
every value they may have. -/

open Sys2Proof
open Sys2Proof.Machine

/-! ### Encoding -/

/-- 30_encoding.md R303, R307 (derived): decode and encode agree on every well-formed command. -/
def Obligations.DecodeOfEncode : Prop :=
  ∀ i : Instr, i.WellFormed → decode (encode i) = .ok i

/-- 30_encoding.md R306 (derived): a word that decodes is the encoding of the command it decodes
to, so no bit of a command word is ignored. -/
def Obligations.EncodeOfDecode : Prop :=
  ∀ (w : Word) (i : Instr), decode w = .ok i → i.WellFormed ∧ encode i = w

/-- 30_encoding.md R303: a word is a command of a row of the opcode map iff it matches the row's
mask and match. `j` ranges over the commands of the row of `i`. -/
def Obligations.DecodeIsMaskAndMatch : Prop :=
  ∀ (i : Instr) (w : Word),
    (∃ j : Instr, j.opcode = i.opcode ∧ decode w = .ok j) ↔ w &&& i.mask = i.matchWord

/-- 30_encoding.md R309: the encoding examples of the rule. -/
def Obligations.EncodingExamples : Prop :=
  decode 0x00000001#32 = .ok .config ∧ decode 0x00050010#32 = .ok (.fwd 5) ∧
  decode 0x00030120#32 = .ok (.frame .overlap 3) ∧
  decode 0x00010020#32 = .ok (.frame .contiguous 1) ∧
  decode 0x00000121#32 = .ok (.analyze .overlap) ∧ decode 0x00180031#32 = .ok (.olaAdd 24) ∧
  decode 0x00000034#32 = .ok .synthOla ∧
  (∀ s, runCommand 0x00010121#32 s = .next (s.complete .illegalField)) ∧
  (∀ s, runCommand 0x000000FF#32 s = .next (s.complete .illegalOpcode))

/-- 30_encoding.md R304, R305: a word written to CMD while no command is in flight completes with
ILLEGAL_OPCODE (0x20) if its opcode is reserved, whatever its other fields, and with ILLEGAL_FIELD
(0x21) if its opcode is in the map but a bit that the row's format fixes at zero is set (it does
not match the row's mask); either way nothing else changes. -/
def Obligations.IllegalCommandWords : Prop :=
  ∀ (w : Word) (s : State), s.status.busy = false →
    (opcField w ∉ [0x00, 0x01, 0x10, 0x11, 0x20, 0x21, 0x30, 0x31, 0x32, 0x33, 0x34, 0x40, 0x41,
        0x50, 0x51, 0x52] →
      ∃ t, hostAccess (.write 0x00000008#32 4 w) s = .next t ∧
        State.CompletedWith { s with lastCmd := w } t 0x20#8) ∧
    ∀ i : Instr, opcField w = i.opcode → w &&& i.mask ≠ i.matchWord →
      ∃ t, hostAccess (.write 0x00000008#32 4 w) s = .next t ∧
        State.CompletedWith { s with lastCmd := w } t 0x21#8

/-! ### The step and the command register -/

/-- 10_state.md R106, 60_exceptions.md R705 (derived): where the next event is a host write to CMD
of a word that decodes, and no command is in flight, the step is the command's meaning from the
state in which the command has started: the event taken, LAST_CMD written, BUSY set. A command
placed by `withFetchWord` (log entry 1) is run by the very next step in the same way. -/
def Obligations.StepRunsIssuedCommand : Prop :=
  (∀ (w : Word) (i : Instr) (s : State) (rest : List HostEvent),
    s.script = .access (.write 0x00000008#32 4 w) :: rest → s.status.busy = false →
    decode w = .ok i →
    step s = exec i { s with
      script := rest
      lastCmd := w
      status := { s.status with busy := true } }) ∧
  ∀ (i : Instr) (s : State), i.WellFormed →
    step (s.withFetchWord 32 (encode i).toNat) = exec i { s with
      lastCmd := encode i
      status := { s.status with busy := true } }

/-- 70_reset_and_hazards.md R806 (derived): a command whose start and completion are two events
has, over both, the effect of the same command run within one step. That the model has these two
events beside the one, and that a command runs at its finish, from LAST_CMD, is its own choice (log
entry 8). -/
def Obligations.SplitCommandIsAtomicCommand : Prop :=
  ∀ (w : Word) (s t : State), s.status.busy = false →
    handleEvent (.start w) s = .next t →
    handleEvent .finish t = handleEvent (.access (.write 0x00000008#32 4 w)) s

/-- 70_reset_and_hazards.md R810: a CMD write while BUSY = 1 is ignored and sets OVR; the written
word is not executed, not queued and not recorded. -/
def Obligations.CommandWriteWhileBusyOnlySetsOverrun : Prop :=
  ∀ (w : Word) (s : State), s.status.busy = true →
    hostAccess (.write 0x00000008#32 4 w) s =
      .next { s with status := { s.status with ovr := true } }

/-- 70_reset_and_hazards.md R811, 20_memory.md R207, 60_exceptions.md R712 (derived): while BUSY = 1
a read of STATUS answers it with BUSY = 1, writes to STATUS and IRQ_EN have their effect, a write to
CMD only sets OVR, and every access to another register offset or to a buffer word is refused. An
access that names nothing sets ACCERR alone, and a read answers 0. That a reserved offset is refused
and that an access naming nothing is not are log entry 9's deductions. -/
def Obligations.AccessesWhileBusy : Prop :=
  ∀ s : State, s.status.busy = true →
    (hostAccess (.read 0x0000000C#32 4) s = .next { s with reply := s.status.toWord } ∧
      s.status.toWord.getLsbD 0 = true) ∧
    (∀ v, hostAccess (.write 0x0000000C#32 4 v) s =
      .next { s with status := s.status.acknowledge v }) ∧
    (∀ v, hostAccess (.write 0x00000018#32 4 v) s = .next { s with irqEn := IrqEnable.ofWord v }) ∧
    (∀ v, hostAccess (.write 0x00000008#32 4 v) s =
      .next { s with status := { s.status with ovr := true } }) ∧
    (∀ addr off, targetOf s.params addr 4 = .reg off → off ≠ 0x00C →
      hostAccess (.read addr 4) s = .refused (.protocolViolation (.read addr 4))) ∧
    (∀ addr off v, targetOf s.params addr 4 = .reg off → off ∉ [0x008, 0x00C, 0x018] →
      hostAccess (.write addr 4 v) s = .refused (.protocolViolation (.write addr 4 v))) ∧
    (∀ addr b i v, targetOf s.params addr 4 = .word b i →
      hostAccess (.read addr 4) s = .refused (.protocolViolation (.read addr 4)) ∧
      hostAccess (.write addr 4 v) s = .refused (.protocolViolation (.write addr 4 v))) ∧
    (∀ addr size, targetOf s.params addr size = .nothing →
      hostAccess (.read addr size) s = .next { s with
        reply := 0x00000000#32
        status := { s.status with accErr := true } } ∧
      ∀ v, hostAccess (.write addr size v) s =
        .next { s with status := { s.status with accErr := true } })

/-! ### Completion and errors -/

/-- 60_exceptions.md R705 (derived): how every command that completes leaves STATUS: BUSY clear,
DONE set, ERR set if the code is not 0x00 and otherwise as it was; and (R712) OVR and ACCERR as
they were. -/
def Obligations.CompletionLeavesStatusSticky : Prop :=
  ∀ (i : Instr) (s t : State), exec i s = .next t →
    t.status.busy = false ∧ t.status.done = true ∧
    t.status.err = (s.status.err || decide (t.errCode ≠ 0x00#8)) ∧
    t.status.ovr = s.status.ovr ∧ t.status.accErr = s.status.accErr

/-- 60_exceptions.md R706: errors are all-or-nothing. A command word whose run ends with a
non-zero code has changed ERRCODE and STATUS BUSY, DONE and ERR only, and for CONFIG also
CFG_VALID; LAST_CMD was written when the command started. -/
def Obligations.FailedCommandChangesNothingElse : Prop :=
  ∀ (w : Word) (s t : State), runCommand w s = .next t → t.errCode ≠ 0x00#8 →
    t = { s with
      errCode := t.errCode
      status := { s.status with
        busy := false
        done := true
        err := true
        cfgValid := if decode w = .ok .config then false else s.status.cfgValid } }

/-- 60_exceptions.md R711 (derived): a command completes with 0x00 or with one of the codes the
table gives it. -/
def Obligations.CodesOfEachCommand : Prop :=
  ∀ (i : Instr) (s t : State), exec i s = .next t →
    t.errCode = 0x00#8 ∨ ∃ c ∈ codesOf i, t.errCode = c.toByte

/-- 60_exceptions.md R710, step 3 (derived): with CFG_VALID = 0 every command but NOP and CONFIG
completes with NOT_CONFIGURED (0x22) and changes nothing else. -/
def Obligations.UnconfiguredCommandIsRejected : Prop :=
  ∀ (i : Instr) (s : State), i ≠ .nop → i ≠ .config → s.status.cfgValid = false →
    ∃ t, exec i s = .next t ∧ s.CompletedWith t 0x22#8

/-- 10_state.md R146: no command writes SIG. -/
def Obligations.NoCommandWritesSignal : Prop :=
  ∀ (i : Instr) (s t : State), exec i s = .next t → t.mem.sig = s.mem.sig

/-- 10_state.md R115 to R130 (derived): no command writes a register the host writes, NUM_CHUNKS
apart, nor IRQ_EN, LAST_CMD or the capacities; only ANALYZE and CONFIG write NUM_CHUNKS. -/
def Obligations.NoCommandWritesHostRegisters : Prop :=
  ∀ (i : Instr) (s t : State), exec i s = .next t →
    t.params = s.params ∧ t.irqEn = s.irqEn ∧ t.lastCmd = s.lastCmd ∧ t.size = s.size ∧
    t.overlap = s.overlap ∧ t.sigLen = s.sigLen ∧ t.sampleRate = s.sampleRate ∧
    t.freqHz = s.freqHz ∧ t.lowerBand = s.lowerBand ∧ t.upperBand = s.upperBand ∧
    t.zeroRef = s.zeroRef ∧ t.script = s.script ∧ t.reply = s.reply ∧
    ((i ≠ .config ∧ ∀ m, i ≠ .analyze m) → t.numChunks = s.numChunks)

/-- 60_exceptions.md R720 (derived): the interrupt output, and that IRQ_EN does not influence what
a command does. -/
def Obligations.InterruptOutputAndEnable : Prop :=
  (∀ s : State, s.irq = true ↔
    (s.status.done = true ∧ s.irqEn.doneIe = true) ∨ (s.status.err = true ∧ s.irqEn.errIe = true) ∨
    ((s.status.ovr = true ∨ s.status.accErr = true) ∧ s.irqEn.faultIe = true)) ∧
  ∀ (i : Instr) (e : IrqEnable) (s : State),
    exec i { s with irqEn := e } = mapOutcome (fun t => { t with irqEn := e }) (exec i s)

/-! ### NOP and CONFIG -/

/-- 40_control.md R400 (derived): NOP completes with code 0x00 in every state and changes nothing
else. -/
def Obligations.NopCompletes : Prop :=
  ∀ s : State, ∃ t, exec .nop s = .next t ∧ s.CompletedOk t ∧ s.RegistersKept t ∧ t.mem = s.mem

/-- 40_control.md R404: CONFIG with a size 2^k, 1 ≤ k ≤ LOG2_N_MAX, and a ratio 2^j, 1 ≤ j ≤ k,
writes the configuration registers and the window, clears NUM_CHUNKS, OUT_LEN, DISP_ROWS and
DISP_W, and keeps everything else. -/
def Obligations.ConfigBuildsTransform : Prop :=
  ∀ (k j : Nat) (s : State), 1 ≤ k → k ≤ s.params.log2NMax → 1 ≤ j → j ≤ k →
    s.size.toNat = 2 ^ k → s.overlap.toNat = 2 ^ j →
    ∃ t, exec .config s = .next t ∧
      t.errCode = 0x00#8 ∧
      t.status = { s.status with busy := false, done := true, cfgValid := true } ∧
      t.sizeN = 2 ^ k ∧ t.ratioR = 2 ^ j ∧ t.hopH = 2 ^ k / 2 ^ j ∧ t.bandsM = 2 ^ k / 2 ∧
      t.numChunks = 0x00000000#32 ∧ t.outLen = 0x00000000#32 ∧ t.dispRows = 0x00000000#32 ∧
      t.dispW = 0x00000000#32 ∧
      (∀ n < s.params.nMax,
        t.readWord .win n = some (if n < 2 ^ k then hann (2 ^ k) n else posZero)) ∧
      (∀ b i, b ≠ .win → t.readWord b i = s.readWord b i) ∧
      t = { s with
        errCode := t.errCode
        status := t.status
        nActive := t.nActive
        rActive := t.rActive
        hop := t.hop
        numBands := t.numBands
        numChunks := t.numChunks
        outLen := t.outLen
        dispRows := t.dispRows
        dispW := t.dispW
        draws := t.draws
        mem := t.mem }

/-- 40_control.md R402, R403, R405: CONFIG with a size that is no power of two in [2, N_MAX]
completes with 0x01, whatever the ratio; with a legal size and a ratio that is no power of two in
[2, SIZE] it completes with 0x02; either way CFG_VALID is cleared and nothing else changes. -/
def Obligations.ConfigRejectsParameters : Prop :=
  ∀ s : State,
    ((¬ ∃ k, 1 ≤ k ∧ k ≤ s.params.log2NMax ∧ s.size.toNat = 2 ^ k) →
      ∃ t, exec .config s = .next t ∧
        State.CompletedWith { s with status := { s.status with cfgValid := false } } t 0x01#8) ∧
    ∀ k, 1 ≤ k → k ≤ s.params.log2NMax → s.size.toNat = 2 ^ k →
      (¬ ∃ j, 1 ≤ j ∧ j ≤ k ∧ s.overlap.toNat = 2 ^ j) →
      ∃ t, exec .config s = .next t ∧
        State.CompletedWith { s with status := { s.status with cfgValid := false } } t 0x02#8

/-- 40_control.md R411 (derived): the consequences the rule draws, for every size 2^k up to 2^16:
HANN(N, 0) = +0.0, HANN(N, N/2) = 1.0, HANN(N, N/4) = HANN(N, 3N/4) = 0.5 for N ≥ 4, and HANN(N,
n) = HANN(N, N − n). -/
def Obligations.HannSpecialValuesAndSymmetry : Prop :=
  ∀ k, 1 ≤ k → k ≤ 16 →
    hann (2 ^ k) 0 = posZero ∧ hann (2 ^ k) (2 ^ k / 2) = Binary32.one ∧
    (2 ≤ k → hann (2 ^ k) (2 ^ k / 4) = 0x3F000000#32 ∧
      hann (2 ^ k) (3 * 2 ^ k / 4) = 0x3F000000#32) ∧
    ∀ n, 1 ≤ n → n < 2 ^ k → hann (2 ^ k) n = hann (2 ^ k) (2 ^ k - n)

/-- 40_control.md R411 (derived): every window coefficient of every size 2^k up to 2^16 is a
binary32 value nearest to the ideal periodic Hann window of R410. -/
def Obligations.HannIsNearestToIdealWindow : Prop :=
  ∀ (k : Nat) (w : Nat → ℝ), 1 ≤ k → k ≤ 16 → Ideal.IsHann (2 ^ k) w →
    ∀ n < 2 ^ k, Binary32.isFinite (hann (2 ^ k) n) = true ∧
      ∀ v : Word, Binary32.isFinite v = true →
        |((Binary32.value (hann (2 ^ k) n) : ℚ) : ℝ) - w n| ≤ |((Binary32.value v : ℚ) : ℝ) - w n|

/-- 40_control.md R412 (derived): the ideal window's overlap sum is R/2 for every hop N/R. -/
def Obligations.IdealWindowOverlapsToConstant : Prop :=
  ∀ (N R : Nat) (w : Nat → ℝ), 2 ≤ R → R ∣ N → 0 < N → Ideal.IsHann N w →
    ∀ n, ∑ q ∈ Finset.range R, w ((n + q * (N / R)) % N) = (R : ℝ) / 2

/-! ### Arithmetic -/

/-- 00_scope.md R16 (derived): `roundUnits` rounds to nearest. For an exact magnitude num/den, in
units of 2^-149, below the overflow threshold (2^25 − 1) · 2^252 it chooses a finite magnitude, no
finite magnitude is nearer, and of two equally near ones the chosen one is even; from the threshold
on it answers infinity. -/
def Obligations.RoundingIsNearestTiesToEven : Prop :=
  ∀ num den : Nat, 0 < den →
    (num < Binary32.overflowUnits * den →
      Binary32.roundUnits num den < Binary32.infBits ∧
      ∀ c < Binary32.infBits,
        let err := fun b : Nat => ((Binary32.magUnits b * den : Nat) : Int) - (num : Int)
        |err (Binary32.roundUnits num den)| ≤ |err c| ∧
        (|err (Binary32.roundUnits num den)| = |err c| → c ≠ Binary32.roundUnits num den →
          Binary32.roundUnits num den % 2 = 0)) ∧
    (Binary32.overflowUnits * den ≤ num → Binary32.roundUnits num den = Binary32.infBits)

/-- 00_scope.md R16 (derived; the IEEE 754 results are log entry 18's): add32 and sub32. For finite
operands the exact sum or difference, rounded once; an exact zero is −0.0 only as the sum of two
negative operands of value zero (for sub32, of a negative and a non-negative one), else +0.0. A NaN
operand gives the NaN drawn, and so do opposite infinities; any other infinite operand decides the
result. -/
def Obligations.SumAndDifferenceAreIeee : Prop :=
  ∀ nan a b : Word,
    (Binary32.isFinite a = true → Binary32.isFinite b = true →
      (Binary32.value a + Binary32.value b ≠ 0 →
        Binary32.RoundsTo (Binary32.value a + Binary32.value b) (Binary32.add32 nan a b)) ∧
      (Binary32.value a + Binary32.value b = 0 → Binary32.add32 nan a b =
        if Binary32.signBit a && Binary32.signBit b then Binary32.negZero else posZero) ∧
      (Binary32.value a - Binary32.value b ≠ 0 →
        Binary32.RoundsTo (Binary32.value a - Binary32.value b) (Binary32.sub32 nan a b)) ∧
      (Binary32.value a - Binary32.value b = 0 → Binary32.sub32 nan a b =
        if Binary32.signBit a && !Binary32.signBit b then Binary32.negZero else posZero)) ∧
    (Binary32.isNaN a = true ∨ Binary32.isNaN b = true →
      Binary32.add32 nan a b = nan ∧ Binary32.sub32 nan a b = nan) ∧
    (Binary32.isInf a = true → Binary32.isFinite b = true →
      Binary32.add32 nan a b = a ∧ Binary32.sub32 nan a b = a) ∧
    (Binary32.isFinite a = true → Binary32.isInf b = true →
      Binary32.add32 nan a b = b ∧ Binary32.sub32 nan a b = Binary32.negate b) ∧
    (Binary32.isInf a = true → Binary32.isInf b = true →
      (Binary32.signBit a = Binary32.signBit b →
        Binary32.add32 nan a b = a ∧ Binary32.sub32 nan a b = nan) ∧
      (Binary32.signBit a ≠ Binary32.signBit b →
        Binary32.add32 nan a b = nan ∧ Binary32.sub32 nan a b = a))

/-- 00_scope.md R17 (derived): the NaN drawn anywhere is a NaN, and every NaN pattern can be
drawn. -/
def Obligations.DrawnNanIsAnyNan : Prop :=
  (∀ site, Binary32.isNaN (Config.nan site) = true) ∧
  ∀ w, Binary32.isNaN w = true → Binary32.nanOfBits w = w

/-- 00_scope.md R16 (derived; the IEEE 754 results are log entry 18's): mul32 and div32. For finite
operands the exact product or quotient, rounded once, a zero of the product of the signs where it
is exactly zero; 0 · infinity, infinity / infinity, 0 / 0 and a NaN operand give the NaN drawn; the
other results with an infinite operand or a zero divisor are infinities or zeros of the product of
the signs. With 93_implementation_defined.md K6, division by 1.0 leaves every word that is no NaN
unchanged bit for bit. -/
def Obligations.ProductAndQuotientAreIeee : Prop :=
  (∀ nan a b : Word,
    let neg := Binary32.signBit a != Binary32.signBit b
    (Binary32.isFinite a = true → Binary32.isFinite b = true →
      (Binary32.value a * Binary32.value b ≠ 0 →
        Binary32.RoundsTo (Binary32.value a * Binary32.value b) (Binary32.mul32 nan a b)) ∧
      (Binary32.value a * Binary32.value b = 0 →
        Binary32.mul32 nan a b = if neg then Binary32.negZero else posZero) ∧
      (Binary32.isZero a = false → Binary32.isZero b = false →
        Binary32.RoundsTo (Binary32.value a / Binary32.value b) (Binary32.div32 nan a b)) ∧
      (Binary32.isZero a = true → Binary32.isZero b = false →
        Binary32.div32 nan a b = if neg then Binary32.negZero else posZero) ∧
      (Binary32.isZero a = false → Binary32.isZero b = true →
        Binary32.div32 nan a b = if neg then Binary32.negInf else Binary32.posInf) ∧
      (Binary32.isZero a = true → Binary32.isZero b = true → Binary32.div32 nan a b = nan)) ∧
    (Binary32.isNaN a = true ∨ Binary32.isNaN b = true →
      Binary32.mul32 nan a b = nan ∧ Binary32.div32 nan a b = nan) ∧
    (Binary32.isInf a = true ∧ Binary32.isZero b = true ∨
      Binary32.isZero a = true ∧ Binary32.isInf b = true → Binary32.mul32 nan a b = nan) ∧
    (Binary32.isInf a = true ∧ Binary32.isNaN b = false ∧ Binary32.isZero b = false ∨
      Binary32.isNaN a = false ∧ Binary32.isZero a = false ∧ Binary32.isInf b = true →
      Binary32.mul32 nan a b = if neg then Binary32.negInf else Binary32.posInf) ∧
    (Binary32.isInf a = true → Binary32.isInf b = true → Binary32.div32 nan a b = nan) ∧
    (Binary32.isInf a = true → Binary32.isFinite b = true →
      Binary32.div32 nan a b = if neg then Binary32.negInf else Binary32.posInf) ∧
    (Binary32.isFinite a = true → Binary32.isInf b = true →
      Binary32.div32 nan a b = if neg then Binary32.negZero else posZero)) ∧
  ∀ nan x : Word, Binary32.isNaN x = false → Binary32.div32 nan x Binary32.one = x

/-- 41_fft.md R457 (derived): both kernels of every size 2^k map zeros to zeros of either sign. -/
def Obligations.TransformsMapZerosToZeros : Prop :=
  (∀ (k : Nat) (y : List Word), 1 ≤ k → y.length = 2 ^ k → Ideal.AllZero y →
    Ideal.AllZero (fftForward y).re ∧ Ideal.AllZero (fftForward y).im) ∧
  (∀ (k : Nat) (p : Spectrum), 1 ≤ k → p.re.length = 2 ^ k / 2 → p.im.length = 2 ^ k / 2 →
    Ideal.AllZero p.re → Ideal.AllZero p.im → Ideal.AllZero (fftInverse (2 ^ k) p))

/-- 45_display.md R662 (derived; log entry 13 reads "within 1 ulp"): the block's LOG10 has every
property the rule requires. -/
def Obligations.LogarithmHasRequiredProperties : Prop := Ideal.IsLog10 log10

/-- 41_fft.md R459 (derived): in ideal arithmetic the inverse of the forward transform is 2N times
the sequence. -/
def Obligations.IdealRoundTrip : Prop :=
  ∀ (M : Nat) (y re im u : Nat → ℝ), 1 ≤ M → Ideal.IsForward (2 * M) y re im →
    Ideal.IsInverse (2 * M) re im u → ∀ n < 2 * M, u n = 2 * ((2 * M : Nat) : ℝ) * y n

/-! ### The windowed transform -/

/-- 41_fft.md R453 (derived): FWD c with c < CHUNK_CAP and a written chunk x stores the forward
transform of WIN · x as spectrum c and changes nothing else. -/
def Obligations.FwdStoresTransformOfWindowedChunk : Prop :=
  ∀ (c : Nat) (s : State) (x win : Nat → Word), s.status.cfgValid = true →
    c < s.params.chunkCap → s.Holds .chunk 0 s.sizeN x → s.Holds .win 0 s.sizeN win →
    let y := (List.range s.sizeN).map fun n =>
      Binary32.mul32 (Config.nan (.command s.draws .window c n)) (win n) (x n)
    ∃ t, exec (.fwd c) s = .next t ∧ s.CompletedOk t ∧ s.RegistersKept t ∧
      (∀ k < s.sizeN / 2,
        t.readWord .specRe (c * s.params.rowLen + k) = (fftForward y).re[k]? ∧
        t.readWord .specIm (c * s.params.rowLen + k) = (fftForward y).im[k]? ∧
        ((fftForward y).re[k]?).isSome ∧ ((fftForward y).im[k]?).isSome) ∧
      s.WordsKept t (fun b i => InRange .specRe (c * s.params.rowLen) (s.sizeN / 2) b i ∨
        InRange .specIm (c * s.params.rowLen) (s.sizeN / 2) b i)

/-- 41_fft.md R451, R456 (derived): for N = 2 and N = 4 both kernels are the rules' closed forms,
each operation rounded once; the first argument of an operation is the NaN it answers if it
answers one. -/
def Obligations.ClosedFormsOfSmallTransforms : Prop :=
  (∀ y0 y1 : Word, ∃ n : Nat → Word, (∀ j, Binary32.isNaN (n j) = true) ∧
    fftForward [y0, y1] =
      { re := [Binary32.mul32 (n 0) (Binary32.add32 (n 1) y0 y1) Binary32.two]
        im := [Binary32.mul32 (n 2) (Binary32.sub32 (n 3) y0 y1) Binary32.two] }) ∧
  (∀ y0 y1 y2 y3 : Word, ∃ n : Nat → Word, (∀ j, Binary32.isNaN (n j) = true) ∧
    fftForward [y0, y1, y2, y3] =
      { re := [Binary32.mul32 (n 0)
                (Binary32.add32 (n 1) (Binary32.add32 (n 2) y0 y2) (Binary32.add32 (n 3) y1 y3))
                Binary32.two,
               Binary32.mul32 (n 4) (Binary32.sub32 (n 5) y0 y2) Binary32.two]
        im := [Binary32.mul32 (n 6)
                (Binary32.sub32 (n 7) (Binary32.add32 (n 2) y0 y2) (Binary32.add32 (n 3) y1 y3))
                Binary32.two,
               Binary32.mul32 (n 8) (Binary32.sub32 (n 9) y3 y1) Binary32.two] }) ∧
  (∀ re0 im0 : Word, ∃ n : Nat → Word, (∀ j, Binary32.isNaN (n j) = true) ∧
    fftInverse 2 ⟨[re0], [im0]⟩ =
      [Binary32.add32 (n 0) re0 im0, Binary32.sub32 (n 1) re0 im0]) ∧
  ∀ re0 re1 im0 im1 : Word, ∃ n : Nat → Word, (∀ j, Binary32.isNaN (n j) = true) ∧
    let s := Binary32.add32 (n 0) re0 im0
    let t := Binary32.sub32 (n 1) re0 im0
    let c2 := Binary32.mul32 (n 2) re1 Binary32.two
    let d2 := Binary32.mul32 (n 3) im1 Binary32.two
    fftInverse 4 ⟨[re0, re1], [im0, im1]⟩ =
      [Binary32.add32 (n 4) s c2, Binary32.sub32 (n 5) t d2, Binary32.sub32 (n 6) s c2,
        Binary32.add32 (n 7) t d2]

/-- 41_fft.md R452 (derived; log entry 13 reads the rule's range): for N ≥ 8 the words of both
transforms are within FFT_ERR_BOUND of their ideal values. -/
def Obligations.TransformsObeyAccuracyBound : Prop :=
  ∀ j, 3 ≤ j → 0 ≤ Config.kernels.errBound (2 ^ j) ∧
    (∀ y : List Word, y.length = 2 ^ j →
      Ideal.ForwardAccurate (Config.kernels.errBound (2 ^ j)) (2 ^ j) y
        (fun k => (fftForward y).re.getD k posZero) (fun k => (fftForward y).im.getD k posZero)) ∧
    ∀ p : Spectrum, p.re.length = 2 ^ j / 2 → p.im.length = 2 ^ j / 2 →
      Ideal.InverseAccurate (Config.kernels.errBound (2 ^ j)) (2 ^ j) p.re p.im
        (fun n => (fftInverse (2 ^ j) p).getD n posZero)

/-- 41_fft.md R458 (derived): INV c with c < CHUNK_CAP and a written spectrum stores the inverse
transform times 2^−(k2+1) in CHUNK and changes nothing else. -/
def Obligations.InvStoresScaledInverse : Prop :=
  ∀ (c : Nat) (s : State) (re im : Nat → Word), s.status.cfgValid = true →
    c < s.params.chunkCap →
    s.Holds .specRe (c * s.params.rowLen) (s.sizeN / 2) re →
    s.Holds .specIm (c * s.params.rowLen) (s.sizeN / 2) im →
    let u := fftInverse s.sizeN
      ⟨(List.range (s.sizeN / 2)).map re, (List.range (s.sizeN / 2)).map im⟩
    ∃ t, exec (.inv c) s = .next t ∧ s.CompletedOk t ∧ s.RegistersKept t ∧ u.length = s.sizeN ∧
      (∀ n < s.sizeN, t.readWord .chunk n =
        some (Binary32.mul32 (Config.nan (.command s.draws .inverseScale c n))
          (u.getD n posZero) (Binary32.pow2 (-((Nat.log2 s.sizeN : Int) + 1))))) ∧
      s.WordsKept t (InRange .chunk 0 s.sizeN)

/-- 70_reset_and_hazards.md R802 (derived; log entries 11 and 16 say which words a command reads
and that its checks come first): a command stops exactly where it passes its checks and a buffer
word that it reads is unwritten, and the fault names such a word; no command is refused. -/
def Obligations.CommandsFaultExactlyAtUnwrittenWords : Prop :=
  ∀ (i : Instr) (s : State),
    (s.Passes i → (∃ b j, s.Reads i b j ∧ s.readWord b j = none) →
      ∃ b j, s.Reads i b j ∧ s.readWord b j = none ∧ exec i s = .fault (.unwrittenWord b j)) ∧
    (∀ f, exec i s = .fault f →
      s.Passes i ∧ ∃ b j, s.Reads i b j ∧ s.readWord b j = none ∧ f = .unwrittenWord b j) ∧
    ∀ r, exec i s ≠ .refused r

/-! ### The framer -/

/-- 42_framer.md R503 with R501 (derived): FRAME c below the frame count copies the signal's words
below L bit for bit and pads with +0.0; nothing else changes. -/
def Obligations.FrameCopiesSignalAndPads : Prop :=
  ∀ (m : Mode) (c : Nat) (s : State) (x : Nat → Word), s.status.cfgValid = true →
    s.lenL ≤ s.params.sigCap → c < ceilDiv s.lenL (s.frameStep m) →
    s.Holds .sig 0 s.lenL x →
    ∃ t, exec (.frame m c) s = .next t ∧ s.CompletedOk t ∧ s.RegistersKept t ∧
      (∀ j < s.sizeN, t.readWord .chunk j =
        some (if c * s.frameStep m + j < s.lenL then x (c * s.frameStep m + j) else posZero)) ∧
      s.WordsKept t (InRange .chunk 0 s.sizeN)

/-- 42_framer.md R501 (derived): frame i exists iff it starts below the signal's end. -/
def Obligations.FrameExistsIffItStartsInSignal : Prop :=
  ∀ (m : Mode) (i : Nat) (s : State), 0 < s.frameStep m →
    (i < s.frameCount m ↔ i * s.frameStep m < s.lenL)

/-- 42_framer.md R510, R512 (derived): ANALYZE transforms every frame of the signal into the
spectrum of its index, each from its own frame alone, leaves the last frame in CHUNK and writes
NUM_CHUNKS; nothing else changes. Rows must not overlap, which 10_state.md R145 gives (N ≤ N_MAX).
-/
def Obligations.AnalyzeTransformsEveryFrame : Prop :=
  ∀ (m : Mode) (s : State) (x win : Nat → Word), s.params.Legal → s.status.cfgValid = true →
    s.sizeN / 2 ≤ s.params.rowLen → s.lenL ≤ s.params.sigCap →
    ceilDiv s.lenL (s.frameStep m) ≤ s.params.chunkCap →
    s.Holds .sig 0 s.lenL x → s.Holds .win 0 s.sizeN win →
    let C := ceilDiv s.lenL (s.frameStep m)
    let frame := fun i j : Nat =>
      if i * s.frameStep m + j < s.lenL then x (i * s.frameStep m + j) else posZero
    let y := fun i : Nat => (List.range s.sizeN).map fun n =>
      Binary32.mul32 (Config.nan (.command s.draws .window i n)) (win n) (frame i n)
    ∃ t, exec (.analyze m) s = .next t ∧ s.CompletedOk t ∧
      State.RegistersKept { s with numChunks := BitVec.ofNat 32 C } t ∧ t.chunksC = C ∧
      (∀ i < C, ∀ k < s.sizeN / 2,
        t.readWord .specRe (i * s.params.rowLen + k) = (fftForward (y i)).re[k]? ∧
        t.readWord .specIm (i * s.params.rowLen + k) = (fftForward (y i)).im[k]? ∧
        ((fftForward (y i)).re[k]?).isSome ∧ ((fftForward (y i)).im[k]?).isSome) ∧
      (0 < C → ∀ j < s.sizeN, t.readWord .chunk j = some (frame (C - 1) j)) ∧
      s.WordsKept t (fun b i => (0 < C ∧ InRange .chunk 0 s.sizeN b i) ∨
        ∃ c < C, InRange .specRe (c * s.params.rowLen) (s.sizeN / 2) b i ∨
          InRange .specIm (c * s.params.rowLen) (s.sizeN / 2) b i)

/-! ### Overlap-add and synthesis -/

/-- 43_ola.md R550 (derived): OLA_CLEAR writes C·H + N zeros and that length; nothing else
changes. -/
def Obligations.OlaClearZeroesOutput : Prop :=
  ∀ s : State, s.params.Legal → s.status.cfgValid = true → s.chunksC ≤ s.params.chunkCap →
    s.chunksC * s.hopH + s.sizeN ≤ s.params.outCap →
    ∃ t, exec .olaClear s = .next t ∧ s.CompletedOk t ∧
      State.RegistersKept { s with
        outLen := BitVec.ofNat 32 (s.chunksC * s.hopH + s.sizeN) } t ∧
      t.outN = s.chunksC * s.hopH + s.sizeN ∧
      t.Holds .out 0 (s.chunksC * s.hopH + s.sizeN) (fun _ => posZero) ∧
      s.WordsKept t (InRange .out 0 (s.chunksC * s.hopH + s.sizeN))

/-- 43_ola.md R551 (derived): OLA_ADD c that fits OUT_LEN adds the chunk to OUT at c·H, one
rounded addition a word; one that does not fit completes with ARG_RANGE (0x23). -/
def Obligations.OlaAddAccumulatesChunk : Prop :=
  ∀ (c : Nat) (s : State), s.status.cfgValid = true →
    (∀ acc x : Nat → Word, c * s.hopH + s.sizeN ≤ s.outN → s.Holds .out (c * s.hopH) s.sizeN acc →
      s.Holds .chunk 0 s.sizeN x →
      ∃ t, exec (.olaAdd c) s = .next t ∧ s.CompletedOk t ∧ s.RegistersKept t ∧
        (∀ j < s.sizeN, t.readWord .out (c * s.hopH + j) =
          some (Binary32.add32 (Config.nan (.command s.draws .olaAdd c j)) (acc j) (x j))) ∧
        s.WordsKept t (InRange .out (c * s.hopH) s.sizeN)) ∧
    (s.outN < c * s.hopH + s.sizeN →
      ∃ t, exec (.olaAdd c) s = .next t ∧ s.CompletedWith t 0x23#8)

/-- 43_ola.md R553 (derived): OLA_SCALE divides every output word by the binary32 value R/2;
nothing else changes. `pow2` gives the exact power of two (00_scope.md R18). -/
def Obligations.OlaScaleDividesOutput : Prop :=
  (∀ e : Int, -126 ≤ e → e ≤ 127 →
    Binary32.isFinite (Binary32.pow2 e) = true ∧ Binary32.value (Binary32.pow2 e) = (2 : ℚ) ^ e) ∧
  ∀ (s : State) (acc : Nat → Word), s.status.cfgValid = true → s.Holds .out 0 s.outN acc →
    ∃ t, exec .olaScale s = .next t ∧ s.CompletedOk t ∧ s.RegistersKept t ∧
      (∀ p < s.outN, t.readWord .out p =
        some (Binary32.div32 (Config.nan (.command s.draws .olaScale 0 p)) (acc p)
          (Binary32.pow2 ((Nat.log2 s.ratioR : Int) - 1)))) ∧
      s.WordsKept t (InRange .out 0 s.outN)

/-- 60_exceptions.md R711 (derived): where each configured command with an index or a length is
rejected: FWD and INV with an index that names no spectrum (0x23); FRAME with a signal that is too
long (0x24), and else with an index that names no frame (0x23); ANALYZE with a signal that is too
long or has too many frames (0x24); OLA_CLEAR, SYNTH, SYNTH_OLA and MAG with too many spectra, and
the first three with too long an output (0x24). Nothing else changes. -/
def Obligations.IndexAndCapacityRejections : Prop :=
  ∀ s : State, s.status.cfgValid = true →
    (∀ c, s.params.chunkCap ≤ c →
      (∃ t, exec (.fwd c) s = .next t ∧ s.CompletedWith t 0x23#8) ∧
      (∃ t, exec (.inv c) s = .next t ∧ s.CompletedWith t 0x23#8)) ∧
    (∀ m c, s.params.sigCap < s.lenL →
      ∃ t, exec (.frame m c) s = .next t ∧ s.CompletedWith t 0x24#8) ∧
    (∀ m c, s.lenL ≤ s.params.sigCap → ceilDiv s.lenL (s.frameStep m) ≤ c →
      ∃ t, exec (.frame m c) s = .next t ∧ s.CompletedWith t 0x23#8) ∧
    (∀ m, s.params.sigCap < s.lenL ∨ s.params.chunkCap < ceilDiv s.lenL (s.frameStep m) →
      ∃ t, exec (.analyze m) s = .next t ∧ s.CompletedWith t 0x24#8) ∧
    (s.params.chunkCap < s.chunksC → ∀ i ∈ [Instr.olaClear, .synth, .synthOla, .mag],
      ∃ t, exec i s = .next t ∧ s.CompletedWith t 0x24#8) ∧
    (s.params.outCap < s.chunksC * s.hopH + s.sizeN → ∀ i ∈ [Instr.olaClear, .synthOla],
      ∃ t, exec i s = .next t ∧ s.CompletedWith t 0x24#8) ∧
    (s.params.outCap < s.chunksC * s.sizeN →
      ∃ t, exec .synth s = .next t ∧ s.CompletedWith t 0x24#8)

/-- 43_ola.md R555 (derived): SYNTH concatenates the inverses of the spectra, leaves the last in
CHUNK and writes OUT_LEN; nothing else changes. -/
def Obligations.SynthConcatenatesInverses : Prop :=
  ∀ (s : State) (re im : Nat → Nat → Word), s.params.Legal → s.status.cfgValid = true →
    s.chunksC ≤ s.params.chunkCap → s.chunksC * s.sizeN ≤ s.params.outCap →
    (∀ c < s.chunksC, s.Holds .specRe (c * s.params.rowLen) (s.sizeN / 2) (re c) ∧
      s.Holds .specIm (c * s.params.rowLen) (s.sizeN / 2) (im c)) →
    let v := fun c : Nat => s.inverseChunk c
      ⟨(List.range (s.sizeN / 2)).map (re c), (List.range (s.sizeN / 2)).map (im c)⟩
    ∃ t, exec .synth s = .next t ∧ s.CompletedOk t ∧
      State.RegistersKept { s with outLen := BitVec.ofNat 32 (s.chunksC * s.sizeN) } t ∧
      t.outN = s.chunksC * s.sizeN ∧
      (∀ c < s.chunksC, ∀ j < s.sizeN,
        t.readWord .out (c * s.sizeN + j) = some ((v c).getD j posZero)) ∧
      (0 < s.chunksC → ∀ j < s.sizeN,
        t.readWord .chunk j = some ((v (s.chunksC - 1)).getD j posZero)) ∧
      s.WordsKept t (fun b i => InRange .out 0 (s.chunksC * s.sizeN) b i ∨
        (0 < s.chunksC ∧ InRange .chunk 0 s.sizeN b i))

/-- 43_ola.md R557 with R552 (derived): after SYNTH_OLA every output word is the sum of the
inverse chunks that cover it, in increasing chunk index from +0.0 and one rounded addition each,
divided by R/2; OUT_LEN = C·H + N; CHUNK holds the last inverse; nothing else changes. -/
def Obligations.SynthOlaSumsInIndexOrder : Prop :=
  ∀ (s : State) (re im : Nat → Nat → Word), s.params.Legal → s.status.cfgValid = true →
    s.chunksC ≤ s.params.chunkCap → s.chunksC * s.hopH + s.sizeN ≤ s.params.outCap →
    (∀ c < s.chunksC, s.Holds .specRe (c * s.params.rowLen) (s.sizeN / 2) (re c) ∧
      s.Holds .specIm (c * s.params.rowLen) (s.sizeN / 2) (im c)) →
    let v := fun c : Nat => s.inverseChunk c
      ⟨(List.range (s.sizeN / 2)).map (re c), (List.range (s.sizeN / 2)).map (im c)⟩
    let Lout := s.chunksC * s.hopH + s.sizeN
    ∃ t, exec .synthOla s = .next t ∧ s.CompletedOk t ∧
      State.RegistersKept { s with outLen := BitVec.ofNat 32 Lout } t ∧ t.outN = Lout ∧
      (∀ p < Lout, t.readWord .out p =
        some (Binary32.div32 (Config.nan (.command s.draws .olaScale 0 p))
          (s.olaSum v p s.chunksC) (Binary32.pow2 ((Nat.log2 s.ratioR : Int) - 1)))) ∧
      (0 < s.chunksC → ∀ j < s.sizeN,
        t.readWord .chunk j = some ((v (s.chunksC - 1)).getD j posZero)) ∧
      s.WordsKept t (fun b i => InRange .out 0 Lout b i ∨
        (0 < s.chunksC ∧ InRange .chunk 0 s.sizeN b i))

/-! ### The band unit -/

/-- 44_band.md R600 (derived): BAND computes q with three binary32 divisions and writes floor(q)
to BAND_IDX where q is finite and its floor an int32; otherwise it completes with BAND_CONVERT
(0x25) and BAND_IDX is unchanged. `floorInt` of a finite word is the floor of its exact value
(00_scope.md R19), and M enters as the binary32 value nearest to it. -/
def Obligations.BandWritesFloorOfQuotient : Prop :=
  (∀ q : Word, Binary32.isFinite q = true → Binary32.floorInt q = ⌊Binary32.value q⌋) ∧
  (∀ n : Nat, 0 < n → Binary32.RoundsTo (n : ℚ) (Binary32.ofNat n)) ∧
  ∀ s : State, s.status.cfgValid = true →
    let nan := fun op => Config.nan (.command s.draws op 0 0)
    let nyq := Binary32.div32 (nan .nyquist) s.sampleRate Binary32.two
    let fpb := Binary32.div32 (nan .freqPerBand) nyq (Binary32.ofNat s.bandsM)
    let q := Binary32.div32 (nan .bandQuotient) s.freqHz fpb
    ((Binary32.isFinite q = true ∧ -2 ^ 31 ≤ Binary32.floorInt q ∧
        Binary32.floorInt q ≤ 2 ^ 31 - 1) →
      ∃ t, exec .band s = .next t ∧ s.CompletedOk t ∧
        State.RegistersKept { s with bandIdx := t.bandIdx } t ∧ t.mem = s.mem ∧
        t.bandIdx.toInt = Binary32.floorInt q) ∧
    (¬ (Binary32.isFinite q = true ∧ -2 ^ 31 ≤ Binary32.floorInt q ∧
        Binary32.floorInt q ≤ 2 ^ 31 - 1) →
      ∃ t, exec .band s = .next t ∧ s.CompletedWith t 0x25#8)

/-- 44_band.md R610 (derived): ZERO_BAND over a legal range zeroes exactly the words lo .. hi−1 of
both parts of every spectrum below NUM_CHUNKS. -/
def Obligations.ZeroBandZeroesHalfOpenRange : Prop :=
  ∀ s : State, s.status.cfgValid = true → s.upperBand.toInt ≤ (s.bandsM : Int) →
    s.lowerBand.toInt ≤ s.upperBand.toInt → 0 ≤ s.lowerBand.toInt →
    s.chunksC ≤ s.params.chunkCap →
    let zeroed := fun (b : BufId) (i : Nat) => (b = .specRe ∨ b = .specIm) ∧
      ∃ c < s.chunksC, c * s.params.rowLen + s.lowerBand.toInt.toNat ≤ i ∧
        i < c * s.params.rowLen + s.upperBand.toInt.toNat
    ∃ t, exec .zeroBand s = .next t ∧ s.CompletedOk t ∧ s.RegistersKept t ∧
      (∀ b i, zeroed b i → t.readWord b i = some posZero) ∧ s.WordsKept t zeroed

/-- 44_band.md R611: of several range conditions of ZERO_BAND the first in the order of R610 is
reported. -/
def Obligations.ZeroBandReportsFirstRangeError : Prop :=
  ∀ s : State, s.status.cfgValid = true →
    let hi := s.upperBand.toInt
    let lo := s.lowerBand.toInt
    let M := (s.bandsM : Int)
    (M < hi → ∃ t, exec .zeroBand s = .next t ∧ s.CompletedWith t 0x10#8) ∧
    (hi ≤ M → hi < lo → ∃ t, exec .zeroBand s = .next t ∧ s.CompletedWith t 0x11#8) ∧
    (hi ≤ M → lo ≤ hi → lo < 0 → ∃ t, exec .zeroBand s = .next t ∧ s.CompletedWith t 0x12#8) ∧
    (hi ≤ M → lo ≤ hi → 0 ≤ lo → s.params.chunkCap < s.chunksC →
      ∃ t, exec .zeroBand s = .next t ∧ s.CompletedWith t 0x24#8)

/-- 44_band.md R613 (derived): ZERO_BAND is idempotent on memory. -/
def Obligations.ZeroBandIsIdempotent : Prop :=
  ∀ s t u : State, s.mem.wf → exec .zeroBand s = .next t → exec .zeroBand t = .next u →
    u.mem = t.mem

/-! ### The display unit -/

/-- 45_display.md R650 (derived): MAG writes re² + im² with three roundings for every slot of
every spectrum, and the matrix's size; nothing else changes. Rows must not overlap, which
10_state.md R145 gives. -/
def Obligations.MagWritesSquaredMagnitudes : Prop :=
  ∀ (s : State) (re im : Nat → Nat → Word), s.status.cfgValid = true →
    s.chunksC ≤ s.params.chunkCap → s.bandsM ≤ s.params.rowLen →
    (∀ c < s.chunksC, s.Holds .specRe (c * s.params.rowLen) s.bandsM (re c) ∧
      s.Holds .specIm (c * s.params.rowLen) s.bandsM (im c)) →
    ∃ t, exec .mag s = .next t ∧ s.CompletedOk t ∧
      State.RegistersKept { s with dispRows := s.numChunks, dispW := s.numBands } t ∧
      (∀ c < s.chunksC, ∀ k < s.bandsM, t.readWord .disp (c * s.params.rowLen + k) =
        some (Binary32.add32 (Config.nan (.command s.draws .magSum c k))
          (Binary32.mul32 (Config.nan (.command s.draws .magRe c k)) (re c k) (re c k))
          (Binary32.mul32 (Config.nan (.command s.draws .magIm c k)) (im c k) (im c k)))) ∧
      s.WordsKept t (fun b i => ∃ c < s.chunksC, InRange .disp (c * s.params.rowLen) s.bandsM b i)

/-- 45_display.md R650, corner cases (derived): a squared magnitude is never negative and never
−0.0. -/
def Obligations.SquaredMagnitudeIsNotNegative : Prop :=
  ∀ n1 n2 n3 re im : Word,
    let m := Binary32.add32 n1 (Binary32.mul32 n2 re re) (Binary32.mul32 n3 im im)
    Binary32.isNaN n1 = true → Binary32.isNaN n2 = true → Binary32.isNaN n3 = true →
    Binary32.isNaN m = true ∨ Binary32.signBit m = false

/-- 45_display.md R655 (derived): TRIM with at least one row, all of the matrix written, narrows
the matrix to min(m + 25, W), m the least over the rows of the largest index above TRIM_EPS; with
no rows nothing changes. No memory word changes. The comparison is the ordered one: false with a
NaN, that of the exact values for finite words, and +infinity is above every finite word, TRIM_EPS
among them. -/
def Obligations.TrimNarrowsToLeastHighest : Prop :=
  (∀ a b : Word,
    (Binary32.isNaN a = true ∨ Binary32.isNaN b = true → Binary32.gt32 a b = false) ∧
    (Binary32.isFinite a = true → Binary32.isFinite b = true →
      (Binary32.gt32 a b = true ↔ Binary32.value b < Binary32.value a)) ∧
    (Binary32.isFinite b = true →
      Binary32.gt32 Binary32.posInf b = true ∧ Binary32.gt32 Binary32.negInf b = false)) ∧
  Binary32.isFinite Config.trimEps = true ∧
  ∀ s : State, s.status.cfgValid = true →
    (s.rowsRd = 0 →
      ∃ t, exec .trim s = .next t ∧ s.CompletedOk t ∧ s.RegistersKept t ∧ t.mem = s.mem) ∧
    (∀ (row : Nat → Nat → Word) (h : Nat → Nat) (m : Nat), 0 < s.rowsRd →
      (∀ c < s.rowsRd, s.Holds .disp (c * s.params.rowLen) s.widthW (row c) ∧
        IsHighestAbove (row c) s.widthW (h c)) →
      IsLeast h s.rowsRd m →
      ∃ t, exec .trim s = .next t ∧ s.CompletedOk t ∧
        State.RegistersKept { s with dispW := t.dispW } t ∧ t.mem = s.mem ∧
        t.widthW = min (m + 25) s.widthW)

/-- 45_display.md R660 (derived): DB with a usable reference replaces every word of the matrix by
20 · LOG10(word / ZERO_REF); a NaN, infinite, zero or negative reference completes with
INVALID_PARAMETER_DBREF (0x03). Where the quotient of a negative word rounds to −0.0 the result is
that of the pseudocode, −infinity, which is the model's choice (log entry 19). Rows must not
overlap, which 10_state.md R145 gives. -/
def Obligations.DbConvertsMatrix : Prop :=
  ∀ s : State, s.status.cfgValid = true →
    (∀ row : Nat → Nat → Word, s.widthW ≤ s.params.rowLen →
      Binary32.isFinite s.zeroRef = true → Binary32.isZero s.zeroRef = false →
      Binary32.signBit s.zeroRef = false →
      (∀ c < s.rowsRd, s.Holds .disp (c * s.params.rowLen) s.widthW (row c)) →
      ∃ t, exec .db s = .next t ∧ s.CompletedOk t ∧ s.RegistersKept t ∧
        (∀ c < s.rowsRd, ∀ k < s.widthW, t.readWord .disp (c * s.params.rowLen + k) =
          some (Binary32.mul32 (Config.nan (.command s.draws .dbProduct c k)) Binary32.twenty
            (log10 (Binary32.div32 (Config.nan (.command s.draws .dbQuotient c k)) (row c k)
              s.zeroRef)))) ∧
        s.WordsKept t (fun b i => ∃ c < s.rowsRd, InRange .disp (c * s.params.rowLen) s.widthW b i)) ∧
    ((Binary32.isFinite s.zeroRef = false ∨ Binary32.isZero s.zeroRef = true ∨
        Binary32.signBit s.zeroRef = true) →
      ∃ t, exec .db s = .next t ∧ s.CompletedWith t 0x03#8)

/-! ### The host's port -/

/-- 20_memory.md R201, R203, R205, R207 (derived): the address map, both ways. Each line of the
table is a buffer, its region and its number of words: an access names a word, a register offset or
nothing exactly where the rules say so, and `addressOf` gives the address of each word. -/
def Obligations.AddressMapNamesExactlyItsWords : Prop :=
  ∀ p : Config.Params, p.Legal →
    let row := 2 ^ p.log2NMax / 2
    let regions : List (BufId × Nat × Nat) := [(.win, 0x1, 2 ^ p.log2NMax),
      (.chunk, 0x2, 2 ^ p.log2NMax), (.sig, 0x3, p.sigCap), (.specRe, 0x4, p.chunkCap * row),
      (.specIm, 0x5, p.chunkCap * row), (.out, 0x6, p.outCap), (.disp, 0x7, p.chunkCap * row)]
    (∀ r ∈ regions, capacityOf p r.1 = r.2.2 ∧ ∀ i < r.2.2,
      (addressOf r.1 i).toNat = r.2.1 * 2 ^ 28 + 4 * i ∧
      targetOf p (addressOf r.1 i) 4 = .word r.1 i) ∧
    ∀ (addr : Word) (size : Nat),
      (∀ r ∈ regions, ∀ i, targetOf p addr size = .word r.1 i ↔
        size = 4 ∧ i < r.2.2 ∧ addr.toNat = r.2.1 * 2 ^ 28 + 4 * i) ∧
      (∀ off, targetOf p addr size = .reg off ↔
        size = 4 ∧ off < 2 ^ 12 ∧ off % 4 = 0 ∧ addr.toNat = off) ∧
      (targetOf p addr size = .nothing ↔
        size ≠ 4 ∨ addr.toNat % 4 ≠ 0 ∨ 0x8 ≤ addr.toNat / 2 ^ 28 ∨
        (addr.toNat / 2 ^ 28 = 0 ∧ addr.toNat / 2 ^ 12 ≠ 0) ∨
        ∃ r ∈ regions, addr.toNat / 2 ^ 28 = r.2.1 ∧ r.2.2 ≤ addr.toNat % 2 ^ 28 / 4)

/-- 20_memory.md R204, R207 (derived): a host write to a word of a buffer other than WIN stores
that word alone; a write to WIN is not admitted. -/
def Obligations.HostWritesOneWord : Prop :=
  ∀ (b : BufId) (i : Nat) (v : Word) (s : State), s.status.busy = false → s.params.Legal →
    i < capacityOf s.params b →
    (b ≠ .win → ∃ t, hostAccess (.write (addressOf b i) 4 v) s = .next t ∧
      t = { s with mem := t.mem } ∧ t.readWord b i = some v ∧ s.WordsKept t (InRange b i 1)) ∧
    (b = .win → hostAccess (.write (addressOf b i) 4 v) s =
      .next { s with status := { s.status with accErr := true } })

/-- 20_memory.md R204, R207 (derived): no read has a side effect. A read with no command in flight
changes the answer, STATUS.ACCERR where it is not admitted, and nothing else; the draw counter is
the model's own and moves only for an unwritten word (log entry 4). A register answers its value, a
reserved offset and an access that is not admitted answer 0, a written buffer word answers
itself. -/
def Obligations.ReadsHaveNoSideEffect : Prop :=
  ∀ (addr : Word) (size : Nat) (s : State), s.status.busy = false →
    ∃ t, hostAccess (.read addr size) s = .next t ∧
      t = { s with
        reply := t.reply
        draws := t.draws
        status := { s.status with
          accErr := s.status.accErr || decide (targetOf s.params addr size = .nothing) } } ∧
      (targetOf s.params addr size = .nothing → t.reply = 0x00000000#32 ∧ t.draws = s.draws) ∧
      (∀ off r, targetOf s.params addr size = .reg off → Reg.ofOffset off = some r →
        t.reply = s.readReg r ∧ t.draws = s.draws) ∧
      (∀ off, targetOf s.params addr size = .reg off → Reg.ofOffset off = none →
        t.reply = 0x00000000#32 ∧ t.draws = s.draws) ∧
      (∀ b i w, targetOf s.params addr size = .word b i → s.readWord b i = some w →
        t.reply = w ∧ t.draws = s.draws)

/-- 20_memory.md R207 (derived): writes that are not admitted change nothing and set ACCERR: those
that name nothing, and those to an offset of region 0 that is reserved or a whole read-only
register, which is every one but CMD, STATUS, IRQ_EN and the nine RW registers. -/
def Obligations.RejectedWritesOnlySetAccErr : Prop :=
  ∀ (addr : Word) (size : Nat) (v : Word) (s : State), s.status.busy = false →
    (targetOf s.params addr size = .nothing ∨
      ∃ off, targetOf s.params addr size = .reg off ∧
        off ∉ [0x008, 0x00C, 0x018, 0x020, 0x024, 0x040, 0x044, 0x050, 0x054, 0x05C, 0x060,
          0x070]) →
    hostAccess (.write addr size v) s =
      .next { s with status := { s.status with accErr := true } }

/-- 10_state.md R103 to R140, section 3 (derived): the register map through the port, with no
command in flight. Every register of the table reads at its offset as its field, every other aligned
offset as 0, and STATUS and IRQ_EN hold their fields at the bits of R107 and R110. A host write to
an RW register changes that register alone, and it reads back; a write of 1s to STATUS clears DONE,
ERR, OVR and ACCERR and no other bit. -/
def Obligations.RegisterMap : Prop :=
  ∀ s : State, s.status.busy = false →
    let map : List (Nat × Word) := [(0x000, 0x53544654#32), (0x004, 0x00000001#32),
      (0x008, 0x00000000#32), (0x00C, s.status.toWord), (0x010, s.errCode.zeroExtend 32),
      (0x014, s.lastCmd), (0x018, s.irqEn.toWord), (0x020, s.size), (0x024, s.overlap),
      (0x028, s.nActive), (0x02C, s.rActive), (0x030, s.hop), (0x034, s.numBands),
      (0x040, s.sigLen), (0x044, s.numChunks), (0x048, s.outLen), (0x050, s.sampleRate),
      (0x054, s.freqHz), (0x058, s.bandIdx), (0x05C, s.lowerBand), (0x060, s.upperBand),
      (0x070, s.zeroRef), (0x074, 0x358637BD#32), (0x078, 0x00000019#32), (0x07C, s.dispRows),
      (0x080, s.dispW), (0x0F0, BitVec.ofNat 32 s.params.log2NMax),
      (0x0F4, BitVec.ofNat 32 s.params.sigCap), (0x0F8, BitVec.ofNat 32 s.params.chunkCap),
      (0x0FC, BitVec.ofNat 32 s.params.outCap)]
    let writes : Word → List (Nat × State) := fun v => [(0x020, { s with size := v }),
      (0x024, { s with overlap := v }), (0x040, { s with sigLen := v }),
      (0x044, { s with numChunks := v }), (0x050, { s with sampleRate := v }),
      (0x054, { s with freqHz := v }), (0x05C, { s with lowerBand := v }),
      (0x060, { s with upperBand := v }), (0x070, { s with zeroRef := v })]
    (∀ e ∈ map, hostAccess (.read (BitVec.ofNat 32 e.1) 4) s = .next { s with reply := e.2 }) ∧
    (∀ off < 0x1000, off % 4 = 0 → off ∉ map.map Prod.fst →
      hostAccess (.read (BitVec.ofNat 32 off) 4) s = .next { s with reply := 0x00000000#32 }) ∧
    (∀ i, s.status.toWord.getLsbD i = [s.status.busy, s.status.done, s.status.err,
      s.status.cfgValid, s.status.ovr, s.status.accErr].getD i false) ∧
    (∀ i, s.irqEn.toWord.getLsbD i =
      [s.irqEn.doneIe, s.irqEn.errIe, s.irqEn.faultIe].getD i false) ∧
    (∀ v : Word,
      (∀ e ∈ writes v, hostAccess (.write (BitVec.ofNat 32 e.1) 4 v) s = .next e.2 ∧
        hostAccess (.read (BitVec.ofNat 32 e.1) 4) e.2 = .next { e.2 with reply := v }) ∧
      (∃ t, hostAccess (.write 0x00000018#32 4 v) s = .next t ∧ t = { s with irqEn := t.irqEn } ∧
        t.readReg .irqEn = v &&& 0x00000007#32) ∧
      (∃ t, hostAccess (.write 0x0000000C#32 4 v) s = .next t ∧ t = { s with status := t.status } ∧
        t.readReg .status = s.readReg .status &&& ~~~(v &&& 0x00000036#32)))

/-! ### Reset and the invariant -/

/-- 10_state.md R155, 70_reset_and_hazards.md R800 (derived): what reset leaves, read through the register
map, for every choice of the capacities: no buffer word but WIN's is written, WIN is +0.0, irq is
0. The reset input gives that state and abandons a command in flight; the host's remaining events,
its last answer and the draw counter are the model's own (log entry 10). -/
def Obligations.ResetValues : Prop :=
  (∀ p r, (State.resetWith p).readReg r =
    match r with
    | .id => 0x53544654#32
    | .version => 0x00000001#32
    | .size => 0x00000200#32
    | .overlap => 0x00000008#32
    | .zeroRef => 0x3DCCCCCD#32
    | .trimEps => 0x358637BD#32
    | .trimMargin => 0x00000019#32
    | .capLog2NMax => BitVec.ofNat 32 p.log2NMax
    | .capSig => BitVec.ofNat 32 p.sigCap
    | .capChunk => BitVec.ofNat 32 p.chunkCap
    | .capOut => BitVec.ofNat 32 p.outCap
    | _ => 0x00000000#32) ∧
  (∀ p b i, (State.resetWith p).readWord b i = if b = .win then some posZero else none) ∧
  (∀ p, (State.resetWith p).irq = false) ∧
  ∀ (s : State) (rest : List HostEvent), s.script = .reset :: rest →
    step s = .next { State.resetWith s.params with
      script := rest
      reply := s.reply
      draws := s.draws }

/-- 10_state.md R155 (derived): the invariant holds right after reset, for all legal capacities.
-/
def Obligations.InvariantHoldsAtReset : Prop :=
  ∀ p : Config.Params, p.Legal → (State.resetWith p).Invariant

/-- 40_control.md R407, 43_ola.md R557 and others (derived): every step of every state that has
the invariant keeps it. -/
def Obligations.EveryStepKeepsInvariant : Prop :=
  ∀ s t : State, s.Invariant → step s = .next t → t.Invariant

/-- 70_reset_and_hazards.md R802 (derived): in a state with the invariant OLA_SCALE, TRIM, DB,
OLA_CLEAR, ZERO_BAND, BAND, NOP and CONFIG always complete. -/
def Obligations.CommandsThatNeverFault : Prop :=
  ∀ s : State, s.Invariant →
    ∀ i ∈ [Instr.nop, .config, .olaClear, .olaScale, .band, .zeroBand, .trim, .db],
      ∃ t, exec i s = .next t
end

