-- ==== Sys2Proof/Laws/Binary32.lean ====
section
/-! SUPPORT. The layout of binary32 words, said once: the fields of a word built with `withSign`,
the sign inverted, the classes of words, and the order of the magnitudes. -/

namespace Sys2Proof.Binary32

/-! ### The layout -/

theorem magBits_lt (w : Word) : magBits w < 2 ^ 31 := Nat.mod_lt _ (by decide)

theorem withSign_toNat (neg : Bool) (b : Nat) (h : b < 2 ^ 31) :
    (withSign neg b).toNat = (if neg then 2 ^ 31 else 0) + b := by
  unfold withSign
  rw [BitVec.toNat_ofNat]
  cases neg <;> simp <;> omega

theorem signBit_withSign (neg : Bool) (b : Nat) (h : b < 2 ^ 31) :
    signBit (withSign neg b) = neg := by
  unfold signBit
  rw [withSign_toNat _ _ h]
  cases neg <;> simp
  omega

theorem magBits_withSign (neg : Bool) (b : Nat) (h : b < 2 ^ 31) : magBits (withSign neg b) = b := by
  unfold magBits
  rw [withSign_toNat _ _ h]
  cases neg <;> simp <;> omega

/-- The parity of a word is that of its magnitude. -/
theorem getLsbD_zero_withSign (neg : Bool) (b : Nat) (h : b < 2 ^ 31) :
    (withSign neg b).getLsbD 0 = decide (b % 2 = 1) := by
  rw [BitVec.getLsbD, withSign_toNat _ _ h, Nat.testBit_zero]
  cases neg <;> simp
  omega

@[simp] theorem signBit_negate (w : Word) : signBit (negate w) = !signBit w :=
  signBit_withSign _ _ (magBits_lt w)

@[simp] theorem magBits_negate (w : Word) : magBits (negate w) = magBits w :=
  magBits_withSign _ _ (magBits_lt w)

@[simp] theorem isNaN_negate (w : Word) : isNaN (negate w) = isNaN w := by simp [isNaN]
@[simp] theorem isInf_negate (w : Word) : isInf (negate w) = isInf w := by simp [isInf]
@[simp] theorem isFinite_negate (w : Word) : isFinite (negate w) = isFinite w := by simp [isFinite]

/-! ### The classes -/

theorem isNaN_of_isFinite (w : Word) (h : isFinite w = true) : isNaN w = false := by
  simp only [isFinite, isNaN, decide_eq_true_eq, decide_eq_false_iff_not] at *
  omega

theorem isInf_of_isFinite (w : Word) (h : isFinite w = true) : isInf w = false := by
  simp only [isFinite, isInf, decide_eq_true_eq, decide_eq_false_iff_not] at *
  omega

theorem isNaN_of_isInf (w : Word) (h : isInf w = true) : isNaN w = false := by
  simp only [isInf, isNaN, decide_eq_true_eq, decide_eq_false_iff_not] at *
  omega

/-! ### The magnitudes -/

/-- The next magnitude is larger. -/
theorem magUnits_lt_succ (b : Nat) : magUnits b < magUnits (b + 1) := by
  unfold magUnits
  by_cases h : b % 2 ^ 23 = 2 ^ 23 - 1
  · have e1 : (b + 1) / 2 ^ 23 = b / 2 ^ 23 + 1 := by omega
    have e2 : (b + 1) % 2 ^ 23 = 0 := by omega
    rw [e1, e2, h, if_neg (show ¬ b / 2 ^ 23 + 1 = 0 by omega)]
    split
    · rename_i h0
      rw [h0]
      norm_num
    · rename_i h0
      have hp : 2 ^ (b / 2 ^ 23 + 1 - 1) = 2 * 2 ^ (b / 2 ^ 23 - 1) := by
        rw [← pow_succ']
        congr 1
        omega
      have := Nat.two_pow_pos (b / 2 ^ 23 - 1)
      rw [hp]
      generalize 2 ^ (b / 2 ^ 23 - 1) = p at *
      omega
  · have e1 : (b + 1) / 2 ^ 23 = b / 2 ^ 23 := by omega
    have e2 : (b + 1) % 2 ^ 23 = b % 2 ^ 23 + 1 := by omega
    rw [e1, e2]
    split
    · omega
    · exact Nat.mul_lt_mul_of_pos_right (by omega) (Nat.two_pow_pos _)

theorem magUnits_strictMono : StrictMono magUnits := strictMono_nat_of_lt_succ magUnits_lt_succ

theorem magUnits_eq_zero (b : Nat) : magUnits b = 0 ↔ b = 0 := by
  constructor
  · intro h
    rcases Nat.eq_zero_or_pos b with h0 | h0
    · exact h0
    · have := magUnits_strictMono h0
      omega
  · rintro rfl
    decide

/-- The magnitude of mantissa `m` in quantum 2^s, a carry into the next binade included. -/
theorem magUnits_quantum (s m : Nat) (h : m ≤ 2 ^ 24) (h' : s = 0 ∨ 2 ^ 23 ≤ m) :
    magUnits (s * 2 ^ 23 + m) = m * 2 ^ s := by
  unfold magUnits
  by_cases h0 : s * 2 ^ 23 + m < 2 ^ 23
  · have hs : s = 0 := by omega
    subst hs
    rw [if_pos (by omega)]
    omega
  · have hm : 2 ^ 23 ≤ m := by omega
    rw [if_neg (by omega)]
    by_cases h24 : m = 2 ^ 24
    · subst h24
      have e1 : (s * 2 ^ 23 + 2 ^ 24) / 2 ^ 23 = s + 2 := by omega
      have e2 : (s * 2 ^ 23 + 2 ^ 24) % 2 ^ 23 = 0 := by omega
      rw [e1, e2, show s + 2 - 1 = s + 1 by omega, pow_succ]
      omega
    · have e1 : (s * 2 ^ 23 + m) / 2 ^ 23 = s + 1 := by omega
      have e2 : (s * 2 ^ 23 + m) % 2 ^ 23 = m - 2 ^ 23 := by omega
      rw [e1, e2, Nat.add_sub_cancel, show m - 2 ^ 23 + 2 ^ 23 = m by omega]

theorem roundUnits_le (num den : Nat) : roundUnits num den ≤ infBits := Nat.min_le_right _ _

end Sys2Proof.Binary32
end

