-- ==== Sys2Proof/Laws/State.lean ====
section
/-! SUPPORT. One lemma per field of State per named update, so that no later proof unfolds a record
update. -/

namespace Sys2Proof.Machine

/-! ### `storeWords` changes no register -/

@[simp] theorem State.storeWords_params (s : State) (b : BufId) (i : Nat) (ws : List Word) :
    (s.storeWords b i ws).params = s.params := rfl
@[simp] theorem State.storeWords_errCode (s : State) (b : BufId) (i : Nat) (ws : List Word) :
    (s.storeWords b i ws).errCode = s.errCode := rfl
@[simp] theorem State.storeWords_lastCmd (s : State) (b : BufId) (i : Nat) (ws : List Word) :
    (s.storeWords b i ws).lastCmd = s.lastCmd := rfl
@[simp] theorem State.storeWords_irqEn (s : State) (b : BufId) (i : Nat) (ws : List Word) :
    (s.storeWords b i ws).irqEn = s.irqEn := rfl
@[simp] theorem State.storeWords_size (s : State) (b : BufId) (i : Nat) (ws : List Word) :
    (s.storeWords b i ws).size = s.size := rfl
@[simp] theorem State.storeWords_overlap (s : State) (b : BufId) (i : Nat) (ws : List Word) :
    (s.storeWords b i ws).overlap = s.overlap := rfl
@[simp] theorem State.storeWords_nActive (s : State) (b : BufId) (i : Nat) (ws : List Word) :
    (s.storeWords b i ws).nActive = s.nActive := rfl
@[simp] theorem State.storeWords_rActive (s : State) (b : BufId) (i : Nat) (ws : List Word) :
    (s.storeWords b i ws).rActive = s.rActive := rfl
@[simp] theorem State.storeWords_hop (s : State) (b : BufId) (i : Nat) (ws : List Word) :
    (s.storeWords b i ws).hop = s.hop := rfl
@[simp] theorem State.storeWords_numBands (s : State) (b : BufId) (i : Nat) (ws : List Word) :
    (s.storeWords b i ws).numBands = s.numBands := rfl
@[simp] theorem State.storeWords_sigLen (s : State) (b : BufId) (i : Nat) (ws : List Word) :
    (s.storeWords b i ws).sigLen = s.sigLen := rfl
@[simp] theorem State.storeWords_numChunks (s : State) (b : BufId) (i : Nat) (ws : List Word) :
    (s.storeWords b i ws).numChunks = s.numChunks := rfl
@[simp] theorem State.storeWords_outLen (s : State) (b : BufId) (i : Nat) (ws : List Word) :
    (s.storeWords b i ws).outLen = s.outLen := rfl
@[simp] theorem State.storeWords_sampleRate (s : State) (b : BufId) (i : Nat) (ws : List Word) :
    (s.storeWords b i ws).sampleRate = s.sampleRate := rfl
@[simp] theorem State.storeWords_freqHz (s : State) (b : BufId) (i : Nat) (ws : List Word) :
    (s.storeWords b i ws).freqHz = s.freqHz := rfl
@[simp] theorem State.storeWords_bandIdx (s : State) (b : BufId) (i : Nat) (ws : List Word) :
    (s.storeWords b i ws).bandIdx = s.bandIdx := rfl
@[simp] theorem State.storeWords_lowerBand (s : State) (b : BufId) (i : Nat) (ws : List Word) :
    (s.storeWords b i ws).lowerBand = s.lowerBand := rfl
@[simp] theorem State.storeWords_upperBand (s : State) (b : BufId) (i : Nat) (ws : List Word) :
    (s.storeWords b i ws).upperBand = s.upperBand := rfl
@[simp] theorem State.storeWords_zeroRef (s : State) (b : BufId) (i : Nat) (ws : List Word) :
    (s.storeWords b i ws).zeroRef = s.zeroRef := rfl
@[simp] theorem State.storeWords_dispRows (s : State) (b : BufId) (i : Nat) (ws : List Word) :
    (s.storeWords b i ws).dispRows = s.dispRows := rfl
@[simp] theorem State.storeWords_dispW (s : State) (b : BufId) (i : Nat) (ws : List Word) :
    (s.storeWords b i ws).dispW = s.dispW := rfl
@[simp] theorem State.storeWords_script (s : State) (b : BufId) (i : Nat) (ws : List Word) :
    (s.storeWords b i ws).script = s.script := rfl
@[simp] theorem State.storeWords_reply (s : State) (b : BufId) (i : Nat) (ws : List Word) :
    (s.storeWords b i ws).reply = s.reply := rfl
@[simp] theorem State.storeWords_draws (s : State) (b : BufId) (i : Nat) (ws : List Word) :
    (s.storeWords b i ws).draws = s.draws := rfl
@[simp] theorem State.storeWords_status (s : State) (b : BufId) (i : Nat) (ws : List Word) :
    (s.storeWords b i ws).status = s.status := rfl
@[simp] theorem State.storeWords_sizeN (s : State) (b : BufId) (i : Nat) (ws : List Word) :
    (s.storeWords b i ws).sizeN = s.sizeN := rfl
@[simp] theorem State.storeWords_ratioR (s : State) (b : BufId) (i : Nat) (ws : List Word) :
    (s.storeWords b i ws).ratioR = s.ratioR := rfl
@[simp] theorem State.storeWords_hopH (s : State) (b : BufId) (i : Nat) (ws : List Word) :
    (s.storeWords b i ws).hopH = s.hopH := rfl
@[simp] theorem State.storeWords_bandsM (s : State) (b : BufId) (i : Nat) (ws : List Word) :
    (s.storeWords b i ws).bandsM = s.bandsM := rfl
@[simp] theorem State.storeWords_log2N (s : State) (b : BufId) (i : Nat) (ws : List Word) :
    (s.storeWords b i ws).log2N = s.log2N := rfl
@[simp] theorem State.storeWords_lenL (s : State) (b : BufId) (i : Nat) (ws : List Word) :
    (s.storeWords b i ws).lenL = s.lenL := rfl
@[simp] theorem State.storeWords_chunksC (s : State) (b : BufId) (i : Nat) (ws : List Word) :
    (s.storeWords b i ws).chunksC = s.chunksC := rfl
@[simp] theorem State.storeWords_outN (s : State) (b : BufId) (i : Nat) (ws : List Word) :
    (s.storeWords b i ws).outN = s.outN := rfl
@[simp] theorem State.storeWords_rowsRd (s : State) (b : BufId) (i : Nat) (ws : List Word) :
    (s.storeWords b i ws).rowsRd = s.rowsRd := rfl
@[simp] theorem State.storeWords_widthW (s : State) (b : BufId) (i : Nat) (ws : List Word) :
    (s.storeWords b i ws).widthW = s.widthW := rfl
@[simp] theorem State.storeWords_rowStart (s : State) (b : BufId) (i : Nat) (ws : List Word) (c : Nat) :
    (s.storeWords b i ws).rowStart c = s.rowStart c := rfl
@[simp] theorem State.storeWords_mem (s : State) (b : BufId) (i : Nat) (ws : List Word) :
    (s.storeWords b i ws).mem = s.mem.storeWords b i ws := rfl

@[simp] theorem Memory.setBuffer_buffer_self (m : Memory) (b : BufId) (x : Buffer) :
    (m.setBuffer b x).buffer b = x := by cases b <;> rfl
theorem Memory.setBuffer_buffer_ne (m : Memory) (b b' : BufId) (x : Buffer) (h : b' ≠ b) :
    (m.setBuffer b x).buffer b' = m.buffer b' := by
  cases b <;> cases b' <;> first | rfl | exact absurd rfl h

/-! ### `complete`, `succeed` and `startCommand` -/

@[simp] theorem State.complete_params (s : State) (code : ErrCode) :
    (s.complete code).params = s.params := rfl
@[simp] theorem State.complete_errCode (s : State) (code : ErrCode) :
    (s.complete code).errCode = code.toByte := rfl
@[simp] theorem State.complete_lastCmd (s : State) (code : ErrCode) :
    (s.complete code).lastCmd = s.lastCmd := rfl
@[simp] theorem State.complete_irqEn (s : State) (code : ErrCode) :
    (s.complete code).irqEn = s.irqEn := rfl
@[simp] theorem State.complete_size (s : State) (code : ErrCode) :
    (s.complete code).size = s.size := rfl
@[simp] theorem State.complete_overlap (s : State) (code : ErrCode) :
    (s.complete code).overlap = s.overlap := rfl
@[simp] theorem State.complete_nActive (s : State) (code : ErrCode) :
    (s.complete code).nActive = s.nActive := rfl
@[simp] theorem State.complete_rActive (s : State) (code : ErrCode) :
    (s.complete code).rActive = s.rActive := rfl
@[simp] theorem State.complete_hop (s : State) (code : ErrCode) :
    (s.complete code).hop = s.hop := rfl
@[simp] theorem State.complete_numBands (s : State) (code : ErrCode) :
    (s.complete code).numBands = s.numBands := rfl
@[simp] theorem State.complete_sigLen (s : State) (code : ErrCode) :
    (s.complete code).sigLen = s.sigLen := rfl
@[simp] theorem State.complete_numChunks (s : State) (code : ErrCode) :
    (s.complete code).numChunks = s.numChunks := rfl
@[simp] theorem State.complete_outLen (s : State) (code : ErrCode) :
    (s.complete code).outLen = s.outLen := rfl
@[simp] theorem State.complete_sampleRate (s : State) (code : ErrCode) :
    (s.complete code).sampleRate = s.sampleRate := rfl
@[simp] theorem State.complete_freqHz (s : State) (code : ErrCode) :
    (s.complete code).freqHz = s.freqHz := rfl
@[simp] theorem State.complete_bandIdx (s : State) (code : ErrCode) :
    (s.complete code).bandIdx = s.bandIdx := rfl
@[simp] theorem State.complete_lowerBand (s : State) (code : ErrCode) :
    (s.complete code).lowerBand = s.lowerBand := rfl
@[simp] theorem State.complete_upperBand (s : State) (code : ErrCode) :
    (s.complete code).upperBand = s.upperBand := rfl
@[simp] theorem State.complete_zeroRef (s : State) (code : ErrCode) :
    (s.complete code).zeroRef = s.zeroRef := rfl
@[simp] theorem State.complete_dispRows (s : State) (code : ErrCode) :
    (s.complete code).dispRows = s.dispRows := rfl
@[simp] theorem State.complete_dispW (s : State) (code : ErrCode) :
    (s.complete code).dispW = s.dispW := rfl
@[simp] theorem State.complete_script (s : State) (code : ErrCode) :
    (s.complete code).script = s.script := rfl
@[simp] theorem State.complete_reply (s : State) (code : ErrCode) :
    (s.complete code).reply = s.reply := rfl
@[simp] theorem State.complete_draws (s : State) (code : ErrCode) :
    (s.complete code).draws = s.draws := rfl
@[simp] theorem State.complete_status (s : State) (code : ErrCode) :
    (s.complete code).status = { s.status with busy := false, done := true, err := s.status.err || decide (code ≠ .ok) } := rfl
@[simp] theorem State.complete_mem (s : State) (code : ErrCode) :
    (s.complete code).mem = s.mem := rfl
@[simp] theorem State.complete_readWord (s : State) (code : ErrCode) (b : BufId) (i : Nat) :
    (s.complete code).readWord b i = s.readWord b i := rfl
@[simp] theorem State.succeed_params (s : State) :
    (s.succeed).params = s.params := rfl
@[simp] theorem State.succeed_errCode (s : State) :
    (s.succeed).errCode = 0x00#8 := rfl
@[simp] theorem State.succeed_lastCmd (s : State) :
    (s.succeed).lastCmd = s.lastCmd := rfl
@[simp] theorem State.succeed_irqEn (s : State) :
    (s.succeed).irqEn = s.irqEn := rfl
@[simp] theorem State.succeed_size (s : State) :
    (s.succeed).size = s.size := rfl
@[simp] theorem State.succeed_overlap (s : State) :
    (s.succeed).overlap = s.overlap := rfl
@[simp] theorem State.succeed_nActive (s : State) :
    (s.succeed).nActive = s.nActive := rfl
@[simp] theorem State.succeed_rActive (s : State) :
    (s.succeed).rActive = s.rActive := rfl
@[simp] theorem State.succeed_hop (s : State) :
    (s.succeed).hop = s.hop := rfl
@[simp] theorem State.succeed_numBands (s : State) :
    (s.succeed).numBands = s.numBands := rfl
@[simp] theorem State.succeed_sigLen (s : State) :
    (s.succeed).sigLen = s.sigLen := rfl
@[simp] theorem State.succeed_numChunks (s : State) :
    (s.succeed).numChunks = s.numChunks := rfl
@[simp] theorem State.succeed_outLen (s : State) :
    (s.succeed).outLen = s.outLen := rfl
@[simp] theorem State.succeed_sampleRate (s : State) :
    (s.succeed).sampleRate = s.sampleRate := rfl
@[simp] theorem State.succeed_freqHz (s : State) :
    (s.succeed).freqHz = s.freqHz := rfl
@[simp] theorem State.succeed_bandIdx (s : State) :
    (s.succeed).bandIdx = s.bandIdx := rfl
@[simp] theorem State.succeed_lowerBand (s : State) :
    (s.succeed).lowerBand = s.lowerBand := rfl
@[simp] theorem State.succeed_upperBand (s : State) :
    (s.succeed).upperBand = s.upperBand := rfl
@[simp] theorem State.succeed_zeroRef (s : State) :
    (s.succeed).zeroRef = s.zeroRef := rfl
@[simp] theorem State.succeed_dispRows (s : State) :
    (s.succeed).dispRows = s.dispRows := rfl
@[simp] theorem State.succeed_dispW (s : State) :
    (s.succeed).dispW = s.dispW := rfl
@[simp] theorem State.succeed_script (s : State) :
    (s.succeed).script = s.script := rfl
@[simp] theorem State.succeed_reply (s : State) :
    (s.succeed).reply = s.reply := rfl
@[simp] theorem State.succeed_draws (s : State) :
    (s.succeed).draws = s.draws + 1 := rfl
@[simp] theorem State.succeed_status (s : State) :
    (s.succeed).status = { s.status with busy := false, done := true } := by
  simp [State.succeed]
@[simp] theorem State.succeed_mem (s : State) :
    (s.succeed).mem = s.mem := rfl
@[simp] theorem State.succeed_readWord (s : State) (b : BufId) (i : Nat) :
    (s.succeed).readWord b i = s.readWord b i := rfl
@[simp] theorem State.startCommand_params (s : State) (w : Word) :
    (s.startCommand w).params = s.params := rfl
@[simp] theorem State.startCommand_errCode (s : State) (w : Word) :
    (s.startCommand w).errCode = s.errCode := rfl
@[simp] theorem State.startCommand_lastCmd (s : State) (w : Word) :
    (s.startCommand w).lastCmd = w := rfl
@[simp] theorem State.startCommand_irqEn (s : State) (w : Word) :
    (s.startCommand w).irqEn = s.irqEn := rfl
@[simp] theorem State.startCommand_size (s : State) (w : Word) :
    (s.startCommand w).size = s.size := rfl
@[simp] theorem State.startCommand_overlap (s : State) (w : Word) :
    (s.startCommand w).overlap = s.overlap := rfl
@[simp] theorem State.startCommand_nActive (s : State) (w : Word) :
    (s.startCommand w).nActive = s.nActive := rfl
@[simp] theorem State.startCommand_rActive (s : State) (w : Word) :
    (s.startCommand w).rActive = s.rActive := rfl
@[simp] theorem State.startCommand_hop (s : State) (w : Word) :
    (s.startCommand w).hop = s.hop := rfl
@[simp] theorem State.startCommand_numBands (s : State) (w : Word) :
    (s.startCommand w).numBands = s.numBands := rfl
@[simp] theorem State.startCommand_sigLen (s : State) (w : Word) :
    (s.startCommand w).sigLen = s.sigLen := rfl
@[simp] theorem State.startCommand_numChunks (s : State) (w : Word) :
    (s.startCommand w).numChunks = s.numChunks := rfl
@[simp] theorem State.startCommand_outLen (s : State) (w : Word) :
    (s.startCommand w).outLen = s.outLen := rfl
@[simp] theorem State.startCommand_sampleRate (s : State) (w : Word) :
    (s.startCommand w).sampleRate = s.sampleRate := rfl
@[simp] theorem State.startCommand_freqHz (s : State) (w : Word) :
    (s.startCommand w).freqHz = s.freqHz := rfl
@[simp] theorem State.startCommand_bandIdx (s : State) (w : Word) :
    (s.startCommand w).bandIdx = s.bandIdx := rfl
@[simp] theorem State.startCommand_lowerBand (s : State) (w : Word) :
    (s.startCommand w).lowerBand = s.lowerBand := rfl
@[simp] theorem State.startCommand_upperBand (s : State) (w : Word) :
    (s.startCommand w).upperBand = s.upperBand := rfl
@[simp] theorem State.startCommand_zeroRef (s : State) (w : Word) :
    (s.startCommand w).zeroRef = s.zeroRef := rfl
@[simp] theorem State.startCommand_dispRows (s : State) (w : Word) :
    (s.startCommand w).dispRows = s.dispRows := rfl
@[simp] theorem State.startCommand_dispW (s : State) (w : Word) :
    (s.startCommand w).dispW = s.dispW := rfl
@[simp] theorem State.startCommand_script (s : State) (w : Word) :
    (s.startCommand w).script = s.script := rfl
@[simp] theorem State.startCommand_reply (s : State) (w : Word) :
    (s.startCommand w).reply = s.reply := rfl
@[simp] theorem State.startCommand_draws (s : State) (w : Word) :
    (s.startCommand w).draws = s.draws := rfl
@[simp] theorem State.startCommand_status (s : State) (w : Word) :
    (s.startCommand w).status = { s.status with busy := true } := rfl
@[simp] theorem State.startCommand_mem (s : State) (w : Word) :
    (s.startCommand w).mem = s.mem := rfl
@[simp] theorem State.startCommand_readWord (s : State) (w : Word) (b : BufId) (i : Nat) :
    (s.startCommand w).readWord b i = s.readWord b i := rfl

end Sys2Proof.Machine
end

