-- ==== Sys2Proof/Laws/Buffers.lean ====
section
/-! SUPPORT. What the buffer operations do, said once: a store writes exactly its words, a read of
consecutive words answers exactly them or faults at an unwritten one, and a store keeps a buffer in
canonical form. -/

namespace Sys2Proof.Machine

/-! ### Listed cells -/

@[simp] theorem Buffer.find_nil (i : Nat) : Buffer.find i [] = none := rfl

@[simp] theorem Buffer.find_cons (i : Nat) (c : Cell) (b : Buffer) :
    Buffer.find i (c :: b) = if c.1 = i then some c.2 else Buffer.find i b := rfl

theorem Buffer.find_eq_none (i : Nat) (b : Buffer) (h : ∀ c ∈ b, c.1 ≠ i) :
    Buffer.find i b = none := by
  induction b with
  | nil => rfl
  | cons c b ih =>
    rw [find_cons, if_neg (h c (List.mem_cons_self ..))]
    exact ih fun d hd => h d (List.mem_cons_of_mem _ hd)

theorem Buffer.find_append (i : Nat) (a b : Buffer) :
    Buffer.find i (a ++ b) = (Buffer.find i a).or (Buffer.find i b) := by
  induction a with
  | nil => simp
  | cons c a ih =>
    rw [List.cons_append, find_cons, find_cons, ih]
    split <;> simp

/-- Filtering by a test on the index keeps the words the test admits. -/
theorem Buffer.find_filter_index (i : Nat) (p : Nat → Bool) (b : Buffer) :
    Buffer.find i (b.filter fun c => p c.1) = if p i then Buffer.find i b else none := by
  induction b with
  | nil => simp
  | cons c b ih =>
    rw [List.filter_cons]
    by_cases hc : c.1 = i
    · subst hc
      split <;> simp_all
    · split <;> simp_all

theorem cellsFrom_index (start : Nat) (ws : List Word) :
    ∀ c ∈ cellsFrom start ws, start ≤ c.1 ∧ c.1 < start + ws.length ∧ c.2 ∈ ws := by
  induction ws generalizing start with
  | nil => simp [cellsFrom]
  | cons w ws ih =>
    intro c hc
    rcases List.mem_cons.1 hc with rfl | hc
    · simp
    · obtain ⟨h1, h2, h3⟩ := ih (start + 1) c hc
      rw [List.length_cons]
      exact ⟨by omega, by omega, List.mem_cons_of_mem _ h3⟩

/-- The stored cells, without those that equal the unlisted value. -/
theorem Buffer.find_cellsFrom (u : Option Word) (start i : Nat) (ws : List Word) :
    Buffer.find i ((cellsFrom start ws).filter fun c => decide (some c.2 ≠ u)) =
      if start ≤ i ∧ i < start + ws.length then
        (if ws[i - start]? = u then none else ws[i - start]?) else none := by
  induction ws generalizing start with
  | nil => rw [if_neg (by simp)]; rfl
  | cons w ws ih =>
    have hlen : (w :: ws).length = ws.length + 1 := rfl
    rw [cellsFrom, List.filter_cons]
    by_cases hi : i = start
    · subst hi
      have hrest : Buffer.find i ((cellsFrom (i + 1) ws).filter fun c => decide (some c.2 ≠ u)) =
          none := by rw [ih, if_neg (by omega)]
      have hr : i ≤ i ∧ i < i + (w :: ws).length := ⟨Nat.le_refl i, by omega⟩
      rw [if_pos hr, Nat.sub_self, List.getElem?_cons_zero]
      by_cases hu : some w = u
      · have ht : ¬ decide (some w ≠ u) = true := by simpa using hu
        rw [if_neg ht, if_pos hu, hrest]
      · have ht : decide (some w ≠ u) = true := by simpa using hu
        rw [if_pos ht, if_neg hu, find_cons, if_pos rfl]
    · have hstep : Buffer.find i ((cellsFrom (start + 1) ws).filter
          fun c => decide (some c.2 ≠ u)) = if start ≤ i ∧ i < start + (w :: ws).length then
            (if (w :: ws)[i - start]? = u then none else (w :: ws)[i - start]?) else none := by
        rw [ih]
        by_cases hr : start + 1 ≤ i ∧ i < start + 1 + ws.length
        · obtain ⟨k, hk⟩ : ∃ k, i - start = k + 1 := ⟨i - start - 1, by omega⟩
          have hr' : start ≤ i ∧ i < start + (w :: ws).length := by omega
          rw [if_pos hr, if_pos hr', hk, show i - (start + 1) = k by omega,
            List.getElem?_cons_succ]
        · rw [if_neg hr, if_neg (by omega)]
      split
      · rw [find_cons, if_neg (fun h => hi h.symm), hstep]
      · exact hstep

/-- A store writes exactly its words. -/
theorem Buffer.find_store (u : Option Word) (start i : Nat) (ws : List Word) (b : Buffer) :
    Buffer.find i (Buffer.store u start ws b) =
      if start ≤ i ∧ i < start + ws.length then
        (if ws[i - start]? = u then none else ws[i - start]?) else Buffer.find i b := by
  unfold Buffer.store
  rw [find_append, find_append, find_cellsFrom,
    find_filter_index i (fun j => decide (j < start)),
    find_filter_index i (fun j => decide (start + ws.length ≤ j))]
  rcases Nat.lt_or_ge i start with h1 | h1
  · have hr : ¬ (start ≤ i ∧ i < start + ws.length) := by omega
    have hlo : decide (i < start) = true := decide_eq_true h1
    have hhi : ¬ decide (start + ws.length ≤ i) = true := by simp; omega
    rw [if_pos hlo, if_neg hr, if_neg hhi, if_neg hr]
    simp
  · have hlo : ¬ decide (i < start) = true := by simp; omega
    rw [if_neg hlo]
    rcases Nat.lt_or_ge i (start + ws.length) with h2 | h2
    · have hr : start ≤ i ∧ i < start + ws.length := ⟨h1, h2⟩
      have hhi : ¬ decide (start + ws.length ≤ i) = true := by simp; omega
      rw [if_pos hr, if_pos hr, if_neg hhi]
      simp
    · have hr : ¬ (start ≤ i ∧ i < start + ws.length) := by omega
      have hhi : decide (start + ws.length ≤ i) = true := decide_eq_true h2
      rw [if_neg hr, if_neg hr, if_pos hhi]
      simp

/-! ### Words of the memory and of the state -/

/-- After a store, the stored words read back and every other word is as before. -/
theorem Memory.readWord_storeWords (m : Memory) (b b' : BufId) (start i : Nat) (ws : List Word) :
    (m.storeWords b start ws).readWord b' i =
      if b' = b ∧ start ≤ i ∧ i < start + ws.length then ws[i - start]? else m.readWord b' i := by
  unfold Memory.readWord Memory.storeWords
  by_cases hb : b' = b
  · subst hb
    rw [setBuffer_buffer_self, Buffer.find_store]
    by_cases hr : start ≤ i ∧ i < start + ws.length
    · have hr' : b' = b' ∧ start ≤ i ∧ i < start + ws.length := ⟨rfl, hr⟩
      rw [if_pos hr, if_pos hr']
      obtain ⟨w, hw⟩ : ∃ w, ws[i - start]? = some w :=
        ⟨_, List.getElem?_eq_getElem (by omega)⟩
      rw [hw]
      by_cases hu : some w = b'.unlisted
      · rw [if_pos hu]; exact hu.symm
      · rw [if_neg hu]
    · have hr' : ¬ (b' = b' ∧ start ≤ i ∧ i < start + ws.length) := fun h => hr h.2
      rw [if_neg hr, if_neg hr']
  · rw [setBuffer_buffer_ne _ _ _ _ hb, if_neg (fun h => hb h.1)]

theorem State.readWord_storeWords (s : State) (b b' : BufId) (start i : Nat) (ws : List Word) :
    (s.storeWords b start ws).readWord b' i =
      if b' = b ∧ start ≤ i ∧ i < start + ws.length then ws[i - start]? else s.readWord b' i :=
  Memory.readWord_storeWords s.mem b b' start i ws

/-- A store into another buffer changes no word. -/
@[simp] theorem State.readWord_storeWords_ne (s : State) (b b' : BufId) (start i : Nat)
    (ws : List Word) (h : b' ≠ b) :
    (s.storeWords b start ws).readWord b' i = s.readWord b' i := by
  rw [readWord_storeWords, if_neg (fun hc => h hc.1)]

theorem State.readWord_win (s : State) (i : Nat) : ∃ w, s.readWord .win i = some w := by
  unfold State.readWord Memory.readWord
  split
  · exact ⟨_, rfl⟩
  · exact ⟨_, rfl⟩

/-- A successful read of consecutive words answers exactly them. -/
theorem State.readWords_ok_iff (s : State) (b : BufId) (start n : Nat) (ws : List Word) :
    s.readWords b start n = .ok ws ↔
      ws.length = n ∧ ∀ j < n, s.readWord b (start + j) = ws[j]? := by
  induction n generalizing start ws with
  | zero =>
    rw [readWords]
    constructor
    · intro h; injection h with h; subst h; exact ⟨rfl, by simp⟩
    · rintro ⟨h, _⟩; rw [List.length_eq_zero_iff.1 h]
  | succ n ih =>
    rw [readWords]
    cases hw : s.readWord b start with
    | none =>
      constructor
      · intro h; exact absurd h (by simp)
      · rintro ⟨hl, h⟩
        have := h 0 (by omega)
        rw [Nat.add_zero, hw] at this
        rw [eq_comm, List.getElem?_eq_none_iff] at this
        omega
    | some w =>
      cases hr : s.readWords b (start + 1) n with
      | error f =>
        constructor
        · intro h; exact absurd h (by simp)
        · rintro ⟨hl, h⟩
          cases ws with
          | nil => simp at hl
          | cons v vs =>
            have : s.readWords b (start + 1) n = .ok vs := by
              rw [ih]
              refine ⟨by simpa using hl, fun j hj => ?_⟩
              have := h (j + 1) (by omega)
              rw [show start + (j + 1) = start + 1 + j by omega] at this
              simpa using this
            rw [hr] at this
            exact absurd this (by simp)
      | ok vs =>
        obtain ⟨hl, hv⟩ := (ih _ _).1 hr
        constructor
        · intro h
          injection h with h
          subst h
          refine ⟨by simp [hl], fun j hj => ?_⟩
          cases j with
          | zero => simpa using hw
          | succ j =>
            have := hv j (by omega)
            rw [show start + (j + 1) = start + 1 + j by omega]
            simpa using this
        · rintro ⟨hl', h⟩
          refine congrArg Except.ok (List.ext_getElem? fun j => ?_)
          by_cases hj : j < n + 1
          · rw [← h j hj]
            cases j with
            | zero => simpa using hw.symm
            | succ j =>
              have := hv j (by omega)
              rw [show start + (j + 1) = start + 1 + j by omega, this]
              simp
          · rw [List.getElem?_eq_none (by simp [hl]; omega),
              List.getElem?_eq_none (by omega)]

/-- Where every word is written, the read answers them. -/
theorem State.readWords_of_written (s : State) (b : BufId) (start n : Nat) (x : Nat → Word)
    (h : ∀ j < n, s.readWord b (start + j) = some (x j)) :
    s.readWords b start n = .ok ((List.range n).map x) := by
  rw [readWords_ok_iff]
  refine ⟨by simp, fun j hj => ?_⟩
  rw [h j hj]
  simp [hj]

/-- A read faults only at an unwritten word. -/
theorem State.readWords_error (s : State) (b : BufId) (start n : Nat) (f : Fault)
    (h : s.readWords b start n = .error f) :
    ∃ j < n, f = .unwrittenWord b (start + j) ∧ s.readWord b (start + j) = none := by
  induction n generalizing start with
  | zero => simp [readWords] at h
  | succ n ih =>
    rw [readWords] at h
    cases hw : s.readWord b start with
    | none =>
      rw [hw] at h
      injection h with h
      exact ⟨0, by omega, by simpa using h.symm, by simpa using hw⟩
    | some w =>
      rw [hw] at h
      cases hr : s.readWords b (start + 1) n with
      | error g =>
        rw [hr] at h
        injection h with h
        subst h
        obtain ⟨j, hj, h1, h2⟩ := ih _ hr
        exact ⟨j + 1, by omega, by rw [h1]; congr 1; omega,
          by rw [← h2]; congr 1; omega⟩
      | ok vs =>
        rw [hr] at h
        exact absurd h (by simp)

/-- Reading consecutive words succeeds exactly where they are all written. -/
theorem State.readWords_isOk (s : State) (b : BufId) (start n : Nat)
    (h : ∀ j < n, (s.readWord b (start + j)).isSome) : ∃ ws, s.readWords b start n = .ok ws := by
  cases hr : s.readWords b start n with
  | ok ws => exact ⟨ws, rfl⟩
  | error f =>
    obtain ⟨j, hj, _, hn⟩ := s.readWords_error b start n f hr
    have := h j hj
    rw [hn] at this
    exact absurd this (by simp)

/-- Reading either answers the words, all of them written, or faults at one of them that is
unwritten. -/
theorem State.readWords_cases (s : State) (b : BufId) (start n : Nat) :
    (∃ ws, s.readWords b start n = .ok ws ∧ ∀ j < n, (s.readWord b (start + j)).isSome) ∨
    ∃ j < n, s.readWord b (start + j) = none ∧
      s.readWords b start n = .error (.unwrittenWord b (start + j)) := by
  cases h : s.readWords b start n with
  | ok ws =>
    refine .inl ⟨ws, rfl, fun j hj => ?_⟩
    obtain ⟨hl, hw⟩ := (s.readWords_ok_iff b start n ws).1 h
    rw [hw j hj, List.getElem?_eq_getElem (by omega)]
    rfl
  | error f =>
    obtain ⟨j, hj, rfl, hn⟩ := s.readWords_error b start n f h
    exact .inr ⟨j, hj, hn, rfl⟩

/-- A store leaves a written word written. -/
theorem State.isSome_readWord_storeWords (s : State) (b b' : BufId) (start i : Nat) (ws : List Word)
    (h : (s.readWord b' i).isSome) : ((s.storeWords b start ws).readWord b' i).isSome := by
  rw [readWord_storeWords]
  split
  · rw [List.getElem?_eq_getElem (by omega)]
    rfl
  · exact h

end Sys2Proof.Machine
end

