-- ==== Sys2Proof/Laws/Commands.lean ====
section
/-! SUPPORT. What the shared operations of the commands can do, said once: the check and effect
phases, the loop, and the frame of every effect. -/

namespace Sys2Proof.Machine

/-! ### The canonical form -/

theorem cellsFrom_pairwise (start : Nat) (ws : List Word) :
    (cellsFrom start ws).Pairwise fun x y => x.1 < y.1 := by
  induction ws generalizing start with
  | nil => exact List.Pairwise.nil
  | cons w ws ih =>
    refine List.Pairwise.cons (fun c hc => ?_) (ih (start + 1))
    have := (cellsFrom_index (start + 1) ws c hc).1
    show start < c.1
    omega

/-- A store keeps the canonical form. -/
theorem Buffer.store_canonical (u : Option Word) (start : Nat) (ws : List Word) (b : Buffer)
    (h : b.Canonical u) : (Buffer.store u start ws b).Canonical u := by
  obtain ⟨hp, hu⟩ := h
  have hlow : ∀ c ∈ b.filter (fun c => decide (c.1 < start)), c.1 < start := fun c hc => by
    simpa using (List.mem_filter.1 hc).2
  have hmid : ∀ c ∈ (cellsFrom start ws).filter (fun c => decide (some c.2 ≠ u)),
      start ≤ c.1 ∧ c.1 < start + ws.length := fun c hc =>
    let h := cellsFrom_index start ws c (List.mem_filter.1 hc).1
    ⟨h.1, h.2.1⟩
  have hhigh : ∀ c ∈ b.filter (fun c => decide (start + ws.length ≤ c.1)),
      start + ws.length ≤ c.1 := fun c hc => by simpa using (List.mem_filter.1 hc).2
  constructor
  · unfold store
    refine List.pairwise_append.2 ⟨hp.filter _, List.pairwise_append.2
      ⟨(cellsFrom_pairwise start ws).filter _, hp.filter _, ?_⟩, ?_⟩
    · intro x hx y hy
      have := (hmid x hx).2
      have := hhigh y hy
      omega
    · intro x hx y hy
      have := hlow x hx
      rcases List.mem_append.1 hy with hy | hy
      · have := (hmid y hy).1; omega
      · have := hhigh y hy; omega
  · intro c hc
    unfold store at hc
    rcases List.mem_append.1 hc with hc | hc
    · exact hu c (List.mem_filter.1 hc).1
    · rcases List.mem_append.1 hc with hc | hc
      · simpa using (List.mem_filter.1 hc).2
      · exact hu c (List.mem_filter.1 hc).1

/-- A stored index is an old one or one of the stored range. -/
theorem Buffer.store_index (u : Option Word) (start : Nat) (ws : List Word) (b : Buffer) (c : Cell)
    (h : c ∈ Buffer.store u start ws b) : c ∈ b ∨ (start ≤ c.1 ∧ c.1 < start + ws.length) := by
  unfold store at h
  rcases List.mem_append.1 h with h | h
  · exact .inl (List.mem_filter.1 h).1
  · rcases List.mem_append.1 h with h | h
    · have := cellsFrom_index start ws c (List.mem_filter.1 h).1
      exact .inr ⟨this.1, this.2.1⟩
    · exact .inl (List.mem_filter.1 h).1

theorem Memory.wf_iff (m : Memory) : m.wf ↔ ∀ b : BufId, (m.buffer b).Canonical b.unlisted := by
  constructor
  · rintro ⟨h1, h2, h3, h4, h5, h6, h7⟩ b
    cases b <;> assumption
  · intro h
    exact ⟨h .win, h .chunk, h .sig, h .specRe, h .specIm, h .out, h .disp⟩

/-- Every store keeps the memory's canonical form. -/
theorem Memory.storeWords_wf (m : Memory) (b : BufId) (start : Nat) (ws : List Word) (h : m.wf) :
    (m.storeWords b start ws).wf := by
  rw [wf_iff] at h ⊢
  intro b'
  unfold storeWords
  by_cases hb : b' = b
  · subst hb
    rw [setBuffer_buffer_self]
    exact Buffer.store_canonical _ _ _ _ (h b')
  · rw [setBuffer_buffer_ne _ _ _ _ hb]
    exact h b'

theorem Memory.empty_wf : Memory.empty.wf := by decide

theorem Memory.inBounds_iff (p : Config.Params) (m : Memory) :
    m.InBounds p ↔ ∀ b : BufId, ∀ c ∈ m.buffer b, c.1 < capacityOf p b := by
  constructor
  · rintro ⟨h1, h2, h3, h4, h5, h6, h7⟩ b
    cases b <;> assumption
  · intro h
    exact ⟨h .win, h .chunk, h .sig, h .specRe, h .specIm, h .out, h .disp⟩

theorem Memory.storeWords_inBounds (p : Config.Params) (m : Memory) (b : BufId) (start : Nat)
    (ws : List Word) (h : m.InBounds p) (hr : start + ws.length ≤ capacityOf p b) :
    (m.storeWords b start ws).InBounds p := by
  rw [inBounds_iff] at h ⊢
  intro b' c hc
  unfold storeWords at hc
  by_cases hb : b' = b
  · subst hb
    rw [setBuffer_buffer_self] at hc
    rcases Buffer.store_index _ _ _ _ _ hc with hc | hc
    · exact h b' c hc
    · omega
  · rw [setBuffer_buffer_ne _ _ _ _ hb] at hc
    exact h b' c hc

/-- Canonical buffers that list the same words at the same indices are equal. -/
theorem Buffer.eq_of_find (u : Option Word) (a b : Buffer) (ha : a.Canonical u)
    (hb : b.Canonical u) (h : ∀ i, Buffer.find i a = Buffer.find i b) : a = b := by
  have tail : ∀ (c : Cell) (x : Buffer), Canonical u (c :: x) →
      Canonical u x ∧ ∀ d ∈ x, c.1 < d.1 := fun c x hx =>
    ⟨⟨(List.pairwise_cons.1 hx.1).2, fun d hd => hx.2 d (List.mem_cons_of_mem _ hd)⟩,
      (List.pairwise_cons.1 hx.1).1⟩
  have low : ∀ (c : Cell) (x : Buffer) (i : Nat), Canonical u (c :: x) → i ≤ c.1 →
      Buffer.find i x = none := fun c x i hx hi =>
    find_eq_none i x fun d hd => by have := (tail c x hx).2 d hd; omega
  induction a generalizing b with
  | nil =>
    cases b with
    | nil => rfl
    | cons d b => have := h d.1; simp at this
  | cons c a ih =>
    cases b with
    | nil => have := h c.1; simp at this
    | cons d b =>
      have hcd : c.1 = d.1 := by
        rcases Nat.lt_trichotomy c.1 d.1 with hlt | heq | hgt
        · have := h c.1
          rw [find_cons, find_cons, if_pos rfl, if_neg (by omega), low d b c.1 hb (by omega)] at this
          exact absurd this (by simp)
        · exact heq
        · have := h d.1
          rw [find_cons, find_cons, if_neg (by omega), if_pos rfl, low c a d.1 ha (by omega)] at this
          exact absurd this (by simp)
      have hw : c.2 = d.2 := by
        have := h c.1
        rw [find_cons, find_cons, if_pos rfl, if_pos hcd.symm] at this
        exact Option.some.inj this
      have hrest : a = b := ih b (tail c a ha).1 (tail d b hb).1 fun i => by
        by_cases hi : i ≤ c.1
        · rw [low c a i ha hi, low d b i hb (by omega)]
        · have := h i
          rwa [find_cons, find_cons, if_neg (by omega), if_neg (by omega)] at this
      rw [hrest, show c = d from Prod.ext hcd hw]

/-! ### The phases of a command -/

/-- What `runChecked` answers as a next state: the completion of the first failing check, or of
the effect. -/
theorem State.runChecked_next_iff (s t : State) (checks : List (Bool × ErrCode))
    (effect : State → Except Fault State) :
    s.runChecked checks effect = .next t ↔
      (∃ code, firstFailure checks = some code ∧ t = s.complete code) ∨
      (firstFailure checks = none ∧ ∃ u, effect s = .ok u ∧ t = u.succeed) := by
  unfold runChecked
  cases hc : firstFailure checks with
  | some code => simp [eq_comm]
  | none =>
    cases he : effect s with
    | ok u => simp [eq_comm]
    | error f => simp

theorem State.runChecked_of_ok (s u : State) (checks : List (Bool × ErrCode))
    (effect : State → Except Fault State) (hc : firstFailure checks = none)
    (he : effect s = .ok u) : s.runChecked checks effect = .next u.succeed := by
  unfold runChecked; rw [hc, he]

theorem State.runChecked_of_fail (s : State) (checks : List (Bool × ErrCode))
    (effect : State → Except Fault State) (code : ErrCode) (hc : firstFailure checks = some code) :
    s.runChecked checks effect = .next (s.complete code) := by
  unfold runChecked; rw [hc]

/-- A command stops only at an unwritten word its effect reads. -/
theorem State.runChecked_ne_refused (s : State) (checks : List (Bool × ErrCode))
    (effect : State → Except Fault State) (r : Refusal) : s.runChecked checks effect ≠ .refused r := by
  unfold runChecked
  cases firstFailure checks with
  | some code => simp
  | none => cases effect s <;> simp

@[simp] theorem firstFailure_nil : firstFailure [] = none := rfl

theorem firstFailure_cons (fails : Bool) (code : ErrCode) (rest : List (Bool × ErrCode)) :
    firstFailure ((fails, code) :: rest) = if fails then some code else firstFailure rest := rfl

/-- A reported code is one of the list. -/
theorem firstFailure_mem (checks : List (Bool × ErrCode)) (code : ErrCode)
    (h : firstFailure checks = some code) : code ∈ checks.map Prod.snd := by
  induction checks with
  | nil => simp at h
  | cons c rest ih =>
    obtain ⟨fails, k⟩ := c
    rw [firstFailure_cons] at h
    split at h
    · injection h with h; simp [h]
    · simp [ih h]

theorem forEach_zero (body : Nat → State → Except Fault State) (s : State) :
    forEach body 0 s = .ok s := rfl

theorem forEach_succ (body : Nat → State → Except Fault State) (n : Nat) (s : State) :
    forEach body (n + 1) s = (match forEach body n s with
      | .error f => .error f
      | .ok t => body n t) := rfl

theorem forEach_succ_ok (body : Nat → State → Except Fault State) (n : Nat) (s t : State)
    (h : forEach body (n + 1) s = .ok t) : ∃ u, forEach body n s = .ok u ∧ body n u = .ok t := by
  rw [forEach_succ] at h
  cases hu : forEach body n s with
  | error f => rw [hu] at h; exact absurd h (by simp)
  | ok u => rw [hu] at h; exact ⟨u, rfl, h⟩

/-- A loop keeps what each round keeps: an invariant indexed by the rounds done. -/
theorem forEach_induct (body : Nat → State → Except Fault State) (P : Nat → State → Prop)
    (n : Nat) (s t : State) (h0 : P 0 s)
    (hstep : ∀ i < n, ∀ u v, P i u → body i u = .ok v → P (i + 1) v)
    (h : forEach body n s = .ok t) : P n t := by
  induction n generalizing t with
  | zero => injection h with h; subst h; exact h0
  | succ n ih =>
    obtain ⟨u, hu, hb⟩ := forEach_succ_ok _ _ _ _ h
    exact hstep n (by omega) u t (ih u (fun i hi => hstep i (by omega)) hu) hb

/-- A loop whose rounds all succeed from states that have the invariant succeeds. -/
theorem forEach_total (body : Nat → State → Except Fault State) (P : Nat → State → Prop)
    (n : Nat) (s : State) (h0 : P 0 s)
    (hstep : ∀ i < n, ∀ u, P i u → ∃ v, body i u = .ok v ∧ P (i + 1) v) :
    ∃ t, forEach body n s = .ok t ∧ P n t := by
  induction n with
  | zero => exact ⟨s, rfl, h0⟩
  | succ n ih =>
    obtain ⟨u, hu, hp⟩ := ih fun i hi => hstep i (by omega)
    obtain ⟨v, hv, hp'⟩ := hstep n (by omega) u hp
    exact ⟨v, by rw [forEach_succ, hu]; exact hv, hp'⟩

/-- A loop that faults does so in one of its rounds, after the rounds before it. -/
theorem forEach_error (body : Nat → State → Except Fault State) (n : Nat) (s : State) (f : Fault)
    (h : forEach body n s = .error f) :
    ∃ i < n, ∃ u, forEach body i s = .ok u ∧ body i u = .error f := by
  induction n with
  | zero => rw [forEach_zero] at h; cases h
  | succ n ih =>
    rw [forEach_succ] at h
    cases hu : forEach body n s with
    | ok u => rw [hu] at h; exact ⟨n, by omega, u, hu, h⟩
    | error g =>
      rw [hu] at h
      obtain ⟨i, hi, hr⟩ := ih (hu.trans h)
      exact ⟨i, by omega, hr⟩

end Sys2Proof.Machine
end

