-- ==== Sys2Proof/Laws/Effects.lean ====
section
/-! SUPPORT. What each effect of a command can do: for every effect that can fault one lemma that
says exactly when it answers a next state and which, and the lengths of the word lists the effects
store. Proofs about commands cite these instead of unfolding the effects. -/

namespace Sys2Proof.Machine

theorem bind_ok_iff {α β : Type} (x : Except Fault α) (f : α → Except Fault β) (b : β) :
    (x >>= f) = .ok b ↔ ∃ a, x = .ok a ∧ f a = .ok b := by
  cases x <;> simp [bind, Except.bind]

theorem bind_ok_eq_iff {α β : Type} (x : Except Fault α) (f : α → β) (b : β) :
    (x >>= fun a => .ok (f a)) = .ok b ↔ ∃ a, x = .ok a ∧ b = f a := by
  rw [bind_ok_iff]
  exact exists_congr fun a => and_congr_right fun _ => by rw [Except.ok.injEq, eq_comm]

/-! ### Lengths -/

theorem fftForward_length (y : List Word) :
    (fftForward y).re.length = y.length / 2 ∧ (fftForward y).im.length = y.length / 2 := by
  unfold fftForward
  split
  · simp [fftForward2]
  · simp [fftForward4]
  · simp

theorem fftInverse_length (size : Nat) (p : Spectrum) : (fftInverse size p).length = size := by
  unfold fftInverse
  split
  · rfl
  · rfl
  · simp

@[simp] theorem State.windowed_length (s : State) (i : Nat) (x : List Word) :
    (s.windowed i x).length = x.length := by simp [windowed]

@[simp] theorem State.inverseChunk_length (s : State) (i : Nat) (p : Spectrum) :
    (s.inverseChunk i p).length = s.sizeN := by simp [inverseChunk, fftInverse_length]

@[simp] theorem State.accumulate_length (s : State) (c : Nat) (acc x : List Word) :
    (s.accumulate c acc x).length = min acc.length x.length := by simp [accumulate]

@[simp] theorem State.rescale_length (s : State) (acc : List Word) :
    (s.rescale acc).length = acc.length := by simp [rescale]

@[simp] theorem State.magnitudes_length (s : State) (c : Nat) (re im : List Word) :
    (s.magnitudes c re im).length = min re.length im.length := by simp [magnitudes]

@[simp] theorem State.decibels_length (s : State) (c : Nat) (row : List Word) :
    (s.decibels c row).length = row.length := by simp [decibels]

theorem State.readWords_length (s : State) (b : BufId) (start n : Nat) (ws : List Word)
    (h : s.readWords b start n = .ok ws) : ws.length = n := ((s.readWords_ok_iff b start n ws).1 h).1

theorem hannWindow_length (size : Nat) : (hannWindow size).length = size := by simp [hannWindow]

/-! ### The effects -/

theorem fwdEffect_ok_iff (c : Nat) (s t : State) :
    fwdEffect c s = .ok t ↔ ∃ x, s.readWords .chunk 0 s.sizeN = .ok x ∧
      t = s.storeSpectrum c (fftForward (s.windowed c x)) := by
  simp only [fwdEffect, bind_ok_eq_iff]

theorem readSpectrum_ok_iff (c : Nat) (s : State) (p : Spectrum) :
    s.readSpectrum c = .ok p ↔
      s.readWords .specRe (s.rowStart c) (s.sizeN / 2) = .ok p.re ∧
      s.readWords .specIm (s.rowStart c) (s.sizeN / 2) = .ok p.im := by
  simp only [State.readSpectrum, bind_ok_iff, Except.ok.injEq]
  constructor
  · rintro ⟨re, h1, im, h2, rfl⟩; exact ⟨h1, h2⟩
  · rintro ⟨h1, h2⟩; exact ⟨_, h1, _, h2, rfl⟩

theorem invEffect_ok_iff (c : Nat) (s t : State) :
    invEffect c s = .ok t ↔ ∃ p, s.readSpectrum c = .ok p ∧
      t = s.storeWords .chunk 0 (s.inverseChunk c p) := by
  simp only [invEffect, bind_ok_eq_iff]

theorem frameWords_ok_iff (m : Mode) (i : Nat) (s : State) (ws : List Word) :
    s.frameWords m i = .ok ws ↔
      ∃ x, s.readWords .sig (s.frameStart m i) (s.frameFill m i) = .ok x ∧
        ws = x ++ List.replicate (s.sizeN - s.frameFill m i) posZero := by
  simp only [State.frameWords, bind_ok_eq_iff]

/-- A frame has N words. -/
theorem frameWords_length (m : Mode) (i : Nat) (s : State) (ws : List Word)
    (h : s.frameWords m i = .ok ws) : ws.length = s.sizeN := by
  obtain ⟨x, hx, rfl⟩ := (frameWords_ok_iff m i s ws).1 h
  have h1 := s.readWords_length _ _ _ _ hx
  have h2 : s.frameFill m i ≤ s.sizeN := Nat.min_le_left _ _
  simp only [List.length_append, List.length_replicate]
  omega

theorem frameEffect_ok_iff (m : Mode) (c : Nat) (s t : State) :
    frameEffect m c s = .ok t ↔ ∃ ws, s.frameWords m c = .ok ws ∧
      t = s.storeWords .chunk 0 ws := by
  simp only [frameEffect, bind_ok_eq_iff]

theorem analyzeRound_ok_iff (m : Mode) (i : Nat) (s t : State) :
    analyzeRound m i s = .ok t ↔ ∃ u, frameEffect m i s = .ok u ∧ fwdEffect i u = .ok t := by
  simp only [analyzeRound, bind_ok_iff]

theorem analyzeEffect_ok_iff (m : Mode) (s t : State) :
    analyzeEffect m s = .ok t ↔ ∃ u, forEach (analyzeRound m) (s.frameCount m) s = .ok u ∧
      t = { u with numChunks := BitVec.ofNat 32 (s.frameCount m) } := by
  simp only [analyzeEffect, bind_ok_eq_iff]

theorem olaAddEffect_ok_iff (c : Nat) (s t : State) :
    olaAddEffect c s = .ok t ↔ ∃ acc x, s.readWords .out (c * s.hopH) s.sizeN = .ok acc ∧
      s.readWords .chunk 0 s.sizeN = .ok x ∧
      t = s.storeWords .out (c * s.hopH) (s.accumulate c acc x) := by
  simp only [olaAddEffect, bind_ok_iff, Except.ok.injEq]
  constructor
  · rintro ⟨acc, h1, x, h2, rfl⟩; exact ⟨acc, x, h1, h2, rfl⟩
  · rintro ⟨acc, x, h1, h2, rfl⟩; exact ⟨acc, h1, x, h2, rfl⟩

theorem olaScaleEffect_ok_iff (s t : State) :
    olaScaleEffect s = .ok t ↔ ∃ acc, s.readWords .out 0 s.outN = .ok acc ∧
      t = s.storeWords .out 0 (s.rescale acc) := by
  simp only [olaScaleEffect, bind_ok_eq_iff]

theorem synthRound_ok_iff (i : Nat) (s t : State) :
    synthRound i s = .ok t ↔ ∃ u x, invEffect i s = .ok u ∧
      u.readWords .chunk 0 u.sizeN = .ok x ∧ t = u.storeWords .out (i * u.sizeN) x := by
  simp only [synthRound, bind_ok_iff, Except.ok.injEq]
  constructor
  · rintro ⟨u, h1, x, h2, rfl⟩; exact ⟨u, x, h1, h2, rfl⟩
  · rintro ⟨u, x, h1, h2, rfl⟩; exact ⟨u, h1, x, h2, rfl⟩

theorem synthEffect_ok_iff (s t : State) :
    synthEffect s = .ok t ↔ ∃ u, forEach synthRound s.chunksC s = .ok u ∧
      t = { u with outLen := BitVec.ofNat 32 (s.chunksC * s.sizeN) } := by
  simp only [synthEffect, bind_ok_eq_iff]

theorem synthOlaRound_ok_iff (i : Nat) (s t : State) :
    synthOlaRound i s = .ok t ↔ ∃ u, invEffect i s = .ok u ∧ olaAddEffect i u = .ok t := by
  simp only [synthOlaRound, bind_ok_iff]

theorem synthOlaEffect_ok_iff (s t : State) :
    synthOlaEffect s = .ok t ↔
      ∃ u, forEach synthOlaRound s.chunksC (olaClearEffect s) = .ok u ∧
        olaScaleEffect u = .ok t := by
  simp only [synthOlaEffect, bind_ok_iff]

theorem magRound_ok_iff (c : Nat) (s t : State) :
    magRound c s = .ok t ↔ ∃ re im, s.readWords .specRe (s.rowStart c) s.bandsM = .ok re ∧
      s.readWords .specIm (s.rowStart c) s.bandsM = .ok im ∧
      t = s.storeWords .disp (s.rowStart c) (s.magnitudes c re im) := by
  simp only [magRound, bind_ok_iff, Except.ok.injEq]
  constructor
  · rintro ⟨acc, h1, x, h2, rfl⟩; exact ⟨acc, x, h1, h2, rfl⟩
  · rintro ⟨acc, x, h1, h2, rfl⟩; exact ⟨acc, h1, x, h2, rfl⟩

theorem magEffect_ok_iff (s t : State) :
    magEffect s = .ok t ↔ ∃ u, forEach magRound s.chunksC s = .ok u ∧
      t = { u with dispRows := BitVec.ofNat 32 s.chunksC, dispW := BitVec.ofNat 32 s.bandsM } := by
  simp only [magEffect, bind_ok_eq_iff]

theorem dbRound_ok_iff (c : Nat) (s t : State) :
    dbRound c s = .ok t ↔ ∃ row, s.readRow c = .ok row ∧
      t = s.storeWords .disp (s.rowStart c) (s.decibels c row) := by
  simp only [dbRound, bind_ok_eq_iff]

/-- TRIM with no rows changes nothing; with rows it writes DISP_W alone. -/
theorem trimEffect_ok_iff (s t : State) :
    trimEffect s = .ok t ↔ (s.rowsRd = 0 ∧ t = s) ∨ ∃ last m, s.rowsRd = last + 1 ∧
      s.leastHighest last = .ok m ∧
      t = { s with dispW := BitVec.ofNat 32 (min (m + Config.trimMargin) s.widthW) } := by
  unfold trimEffect
  split
  · rename_i h
    simp [h, eq_comm]
  · rename_i last h
    simp only [h, bind_ok_eq_iff]
    constructor
    · rintro ⟨m, h1, h2⟩; exact .inr ⟨last, m, rfl, h1, h2⟩
    · rintro (⟨h1, _⟩ | ⟨k, m, h1, h2, h3⟩)
      · exact absurd h1 (by omega)
      · obtain rfl : last = k := by omega
        exact ⟨m, h2, h3⟩

/-! ### Effects that change memory alone -/

theorem State.mem_only_trans (s u : State) (h : u = { s with mem := u.mem }) (m : Memory) :
    ({ u with mem := m } : State) = { s with mem := m } := by rw [h]

theorem fwdEffect_mem_only (c : Nat) (s t : State) (ht : fwdEffect c s = .ok t) :
    t = { s with mem := t.mem } := by
  obtain ⟨x, _, rfl⟩ := (fwdEffect_ok_iff c s t).1 ht; rfl

theorem invEffect_mem_only (c : Nat) (s t : State) (ht : invEffect c s = .ok t) :
    t = { s with mem := t.mem } := by
  obtain ⟨x, _, rfl⟩ := (invEffect_ok_iff c s t).1 ht; rfl

theorem frameEffect_mem_only (m : Mode) (c : Nat) (s t : State) (ht : frameEffect m c s = .ok t) :
    t = { s with mem := t.mem } := by
  obtain ⟨x, _, rfl⟩ := (frameEffect_ok_iff m c s t).1 ht; rfl

theorem olaAddEffect_mem_only (c : Nat) (s t : State) (ht : olaAddEffect c s = .ok t) :
    t = { s with mem := t.mem } := by
  obtain ⟨x, y, _, _, rfl⟩ := (olaAddEffect_ok_iff c s t).1 ht; rfl

theorem olaScaleEffect_mem_only (s t : State) (ht : olaScaleEffect s = .ok t) :
    t = { s with mem := t.mem } := by
  obtain ⟨x, _, rfl⟩ := (olaScaleEffect_ok_iff s t).1 ht; rfl

theorem analyzeRound_mem_only (m : Mode) (c : Nat) (s t : State) (ht : analyzeRound m c s = .ok t) :
    t = { s with mem := t.mem } := by
  obtain ⟨u, h1, h2⟩ := (analyzeRound_ok_iff m c s t).1 ht
  rw [fwdEffect_mem_only _ _ _ h2, frameEffect_mem_only _ _ _ _ h1]

theorem synthRound_mem_only (c : Nat) (s t : State) (ht : synthRound c s = .ok t) :
    t = { s with mem := t.mem } := by
  obtain ⟨u, x, h1, _, rfl⟩ := (synthRound_ok_iff c s t).1 ht
  exact s.mem_only_trans u (invEffect_mem_only _ _ _ h1) _

theorem synthOlaRound_mem_only (c : Nat) (s t : State) (ht : synthOlaRound c s = .ok t) :
    t = { s with mem := t.mem } := by
  obtain ⟨u, h1, h2⟩ := (synthOlaRound_ok_iff c s t).1 ht
  rw [olaAddEffect_mem_only _ _ _ h2, invEffect_mem_only _ _ _ h1]

theorem magRound_mem_only (c : Nat) (s t : State) (ht : magRound c s = .ok t) :
    t = { s with mem := t.mem } := by
  obtain ⟨x, y, _, _, rfl⟩ := (magRound_ok_iff c s t).1 ht; rfl

theorem dbRound_mem_only (c : Nat) (s t : State) (ht : dbRound c s = .ok t) :
    t = { s with mem := t.mem } := by
  obtain ⟨x, _, rfl⟩ := (dbRound_ok_iff c s t).1 ht; rfl

theorem zeroBandRound_mem_only (c : Nat) (s t : State) (ht : zeroBandRound c s = .ok t) :
    t = { s with mem := t.mem } := by
  simp only [zeroBandRound, Except.ok.injEq] at ht; subst ht; rfl

/-! ### A loop commutes with an update its rounds commute with -/

theorem forEach_map (body : Nat → State → Except Fault State) (g : State → State)
    (h : ∀ i s, body i (g s) = (body i s).map g) (n : Nat) (s : State) :
    forEach body n (g s) = (forEach body n s).map g := by
  induction n with
  | zero => rfl
  | succ n ih =>
    rw [forEach_succ, forEach_succ, ih]
    cases forEach body n s with
    | error f => rfl
    | ok t => exact h n t

/-- A loop whose rounds only change memory only changes memory. -/
theorem forEach_mem_only (body : Nat → State → Except Fault State)
    (h : ∀ i s t, body i s = .ok t → t = { s with mem := t.mem }) (n : Nat) (s t : State)
    (ht : forEach body n s = .ok t) : t = { s with mem := t.mem } := by
  refine forEach_induct body (fun _ u => u = { s with mem := u.mem }) n s t rfl ?_ ht
  intro i _ u v hu hv
  rw [h i u v hv, hu]

end Sys2Proof.Machine
end

