-- ==== Sys2Proof/Laws/PerInstr.lean ====
section
/-! SUPPORT. Statements made per instruction. The family `EncodingMatchesRow` says that the word
of a command matches the mask and match columns of its row (30_encoding.md R303). -/

namespace Sys2Proof.Laws

/-- A command whose row leaves IDX free: under the mask its word is its mode bit and opcode. -/
theorem encode_and_mask (i : Instr) (hmask : i.mask = 0x0000FFFF#32 &&& i.mask) :
    encode i &&& i.mask = BitVec.ofNat 32 (i.modeBit * 2 ^ 8 + i.opcode) &&& i.mask := by
  have h : ∀ x : Nat, BitVec.ofNat 32 x &&& 0x0000FFFF#32 = BitVec.ofNat 32 (x % 2 ^ 16) := by
    intro x
    apply BitVec.eq_of_toNat_eq
    have hx : (BitVec.ofNat 32 x &&& 0x0000FFFF#32).toNat = x % 2 ^ 32 % 2 ^ 16 :=
      Nat.and_two_pow_sub_one_eq_mod (x % 2 ^ 32) 16
    rw [hx, BitVec.toNat_ofNat]
    omega
  have hx : (i.idx * 2 ^ 16 + i.modeBit * 2 ^ 8 + i.opcode) % 2 ^ 16 =
      (i.modeBit * 2 ^ 8 + i.opcode) % 2 ^ 16 := by omega
  rw [hmask, ← BitVec.and_assoc, ← BitVec.and_assoc, encode, h, h, hx]

/-- The family's statement: a command with an encoding matches its row. -/
def EncodingMatchesRow.Statement (i : Instr) : Prop :=
  i.WellFormed → encode i &&& i.mask = i.matchWord

theorem EncodingMatchesRow.nop : EncodingMatchesRow.Statement .nop := fun _ => by decide
theorem EncodingMatchesRow.config : EncodingMatchesRow.Statement .config := fun _ => by decide
theorem EncodingMatchesRow.fwd (c : Nat) :
    EncodingMatchesRow.Statement (.fwd c) := fun _ => by
  rw [encode_and_mask _ (by simp only [Instr.mask]; decide)]
  simp only [Instr.mask, Instr.modeBit, Instr.opcode, Instr.matchWord]
  decide
theorem EncodingMatchesRow.inv (c : Nat) :
    EncodingMatchesRow.Statement (.inv c) := fun _ => by
  rw [encode_and_mask _ (by simp only [Instr.mask]; decide)]
  simp only [Instr.mask, Instr.modeBit, Instr.opcode, Instr.matchWord]
  decide
theorem EncodingMatchesRow.frame (m : Mode) (c : Nat) :
    EncodingMatchesRow.Statement (.frame m c) := fun _ => by
  cases m <;> rw [encode_and_mask _ (by simp only [Instr.mask]; decide)] <;>
    simp only [Instr.mask, Instr.modeBit, Instr.opcode, Instr.matchWord, Mode.bit] <;> decide
theorem EncodingMatchesRow.analyze (m : Mode) : EncodingMatchesRow.Statement (.analyze m) := fun _ => by
  cases m <;> decide
theorem EncodingMatchesRow.olaClear : EncodingMatchesRow.Statement .olaClear := fun _ => by decide
theorem EncodingMatchesRow.olaAdd (c : Nat) :
    EncodingMatchesRow.Statement (.olaAdd c) := fun _ => by
  rw [encode_and_mask _ (by simp only [Instr.mask]; decide)]
  simp only [Instr.mask, Instr.modeBit, Instr.opcode, Instr.matchWord]
  decide
theorem EncodingMatchesRow.olaScale : EncodingMatchesRow.Statement .olaScale := fun _ => by decide
theorem EncodingMatchesRow.synth : EncodingMatchesRow.Statement .synth := fun _ => by decide
theorem EncodingMatchesRow.synthOla : EncodingMatchesRow.Statement .synthOla := fun _ => by decide
theorem EncodingMatchesRow.band : EncodingMatchesRow.Statement .band := fun _ => by decide
theorem EncodingMatchesRow.zeroBand : EncodingMatchesRow.Statement .zeroBand := fun _ => by decide
theorem EncodingMatchesRow.mag : EncodingMatchesRow.Statement .mag := fun _ => by decide
theorem EncodingMatchesRow.trim : EncodingMatchesRow.Statement .trim := fun _ => by decide
theorem EncodingMatchesRow.db : EncodingMatchesRow.Statement .db := fun _ => by decide

end Sys2Proof.Laws
end

