-- ==== Sys2Proof/Laws/Port.lean ====
section
/-! SUPPORT. What the port does with the accesses the commands and the protocol need: the targets
of the fixed register offsets, a CMD write, and one step's event. -/

namespace Sys2Proof.Machine

theorem targetOf_cmd (p : Config.Params) : targetOf p 0x00000008#32 4 = .reg 0x008 := rfl
theorem targetOf_status (p : Config.Params) : targetOf p 0x0000000C#32 4 = .reg 0x00C := rfl
theorem targetOf_irqEn (p : Config.Params) : targetOf p 0x00000018#32 4 = .reg 0x018 := rfl

/-- A word that an address names lies in its buffer (20_memory.md R201). -/
theorem targetOf_word (p : Config.Params) (addr : Word) (size : Nat) (b : BufId) (i : Nat)
    (h : targetOf p addr size = .word b i) : i < capacityOf p b := by
  unfold targetOf at h
  split at h
  · cases h
  · split at h
    · split at h <;> cases h
    · split at h
      · cases h
      · split at h
        · cases h; assumption
        · cases h

/-- A CMD write with no command in flight runs the word from the started state (R705). -/
theorem hostAccess_cmd (w : Word) (s : State) (h : s.status.busy = false) :
    hostAccess (.write 0x00000008#32 4 w) s = runCommand w (s.startCommand w) := by
  simp [hostAccess, h, targetOf_cmd, writeAccess, Reg.ofOffset, writeCmd]

/-- A CMD write with a command in flight is an overrun (R810). -/
theorem hostAccess_cmd_busy (w : Word) (s : State) (h : s.status.busy = true) :
    hostAccess (.write 0x00000008#32 4 w) s = .next s.setOverrun := by
  simp [hostAccess, h, busyAccess, targetOf_cmd, Reg.ofOffset, writeCmd]

theorem runCommand_ok (w : Word) (i : Instr) (s : State) (h : decode w = .ok i) :
    runCommand w s = exec i s := by simp [runCommand, h]

theorem runCommand_error (w : Word) (e : DecodeError) (s : State) (h : decode w = .error e) :
    runCommand w s = .next (s.complete (DecodeError.code e)) := by simp [runCommand, h]

/-- A step takes the first event of the script. -/
theorem step_cons (s : State) (e : HostEvent) (rest : List HostEvent) (h : s.script = e :: rest) :
    step s = handleEvent e { s with script := rest } := by simp [step, stepBlock, h]

/-- A step of an empty script completes a command in flight or idles. -/
theorem step_nil (s : State) (h : s.script = []) : step s = finishCmd s := by
  simp [step, stepBlock, h]

end Sys2Proof.Machine
end

