-- ==== Sys2Proof/Tests/Slice0.lean ====
section
/-! SUPPORT. The model's own tests: the smoke test of WellFormed, the decoding of words written out
from 30_encoding.md, at most two vectors of 95_test_vectors.md per command, and for every statement
with hypotheses a state and operands that meet them (`witness_<statement>`).

The theorems are elaborated one after another: as many kernel evaluations waiting for each other as
there are theorems would each hold a thread. -/

set_option Elab.async false

namespace Sys2Proof.Tests

open Sys2Proof.Machine

/-! ### Well-formedness (30_encoding.md R300: IDX has 16 bits) -/

theorem test_fwd_index_too_wide : ¬ (Instr.fwd 65536).WellFormed := by decide
theorem test_inv_index_too_wide : ¬ (Instr.inv 65536).WellFormed := by decide
theorem test_frame_index_too_wide : ¬ (Instr.frame .overlap 65536).WellFormed := by decide
theorem test_olaAdd_index_too_wide : ¬ (Instr.olaAdd 65536).WellFormed := by decide
theorem test_widest_index : (Instr.fwd 65535).WellFormed := by decide

/-! ### Decoding: words written out from the formats and the opcode map (R300 to R303), V1 -/

theorem test_decode_nop : decode 0x00000000#32 = .ok .nop := by rfl
theorem test_decode_config : decode 0x00000001#32 = .ok .config := by rfl
theorem test_decode_fwd : decode 0x00050010#32 = .ok (.fwd 5) := by rfl
theorem test_decode_inv : decode 0xFFFF0011#32 = .ok (.inv 65535) := by rfl
theorem test_decode_frame_contiguous : decode 0x00010020#32 = .ok (.frame .contiguous 1) := by rfl
theorem test_decode_frame_overlap : decode 0x80030120#32 = .ok (.frame .overlap 0x8003) := by rfl
theorem test_decode_analyze_contiguous : decode 0x00000021#32 = .ok (.analyze .contiguous) := by rfl
theorem test_decode_analyze_overlap : decode 0x00000121#32 = .ok (.analyze .overlap) := by rfl
theorem test_decode_olaClear : decode 0x00000030#32 = .ok .olaClear := by rfl
theorem test_decode_olaAdd : decode 0x00180031#32 = .ok (.olaAdd 24) := by rfl
theorem test_decode_olaScale : decode 0x00000032#32 = .ok .olaScale := by rfl
theorem test_decode_synth : decode 0x00000033#32 = .ok .synth := by rfl
theorem test_decode_synthOla : decode 0x00000034#32 = .ok .synthOla := by rfl
theorem test_decode_band : decode 0x00000040#32 = .ok .band := by rfl
theorem test_decode_zeroBand : decode 0x00000041#32 = .ok .zeroBand := by rfl
theorem test_decode_mag : decode 0x00000050#32 = .ok .mag := by rfl
theorem test_decode_trim : decode 0x00000051#32 = .ok .trim := by rfl
theorem test_decode_db : decode 0x00000052#32 = .ok .db := by rfl
/-- V1.11 to V1.14, V1.16: the opcode is checked before the fields. -/
theorem test_decode_rejects :
    decode 0x00000110#32 = .error .illegalField ∧ decode 0x00000220#32 = .error .illegalField ∧
    decode 0x00000101#32 = .error .illegalField ∧ decode 0x00000035#32 = .error .illegalOpcode ∧
    decode 0x80000002#32 = .error .illegalOpcode := ⟨rfl, rfl, rfl, rfl, rfl⟩
theorem test_decodeTableWord : decodeTableWord 32 0x00050010 = some (.fwd 5) := by decide
theorem test_encode : encode (.frame .overlap 3) = 0x00030120#32 := by decide

/-! ### The small machine the tests run on -/

/-- N_MAX = 4, so that a row has two words. -/
def small : Config.Params := ⟨2, 16, 4, 32⟩

/-- The small block configured with N = 4, R = 2. -/
def ready : State :=
  { State.resetWith small with
    status := ⟨false, false, false, true, false, false⟩
    nActive := 4#32
    rActive := 2#32
    hop := 2#32
    numBands := 2#32
    mem := { Memory.empty with win := Buffer.store BufId.win.unlisted 0 (hannWindow 4) [] } }

/-- The signal 1, 2, 3, 4, 5 of V5. -/
def withSignal : State :=
  { ready.storeWords .sig 0
      [0x3F800000#32, 0x40000000#32, 0x40400000#32, 0x40800000#32, 0x40A00000#32] with
    sigLen := 5#32 }

/-- A spectrum as row `c`. -/
def withRow (s : State) (c : Nat) (re im : List Word) : State :=
  (s.storeWords .specRe (s.rowStart c) re).storeWords .specIm (s.rowStart c) im

/-- Words of a buffer after a step. -/
def wordsAfter (o : Outcome) (b : BufId) (start n : Nat) : List (Option Word) :=
  match o with
  | .next t => (List.range n).map fun j => t.readWord b (start + j)
  | .fault _ => []
  | .refused _ => []

/-- A register after a step. -/
def regAfter (o : Outcome) (r : Reg) : Option Word :=
  match o with
  | .next t => some (t.readReg r)
  | .fault _ => none
  | .refused _ => none

/-! ### The commands, on vectors of 95_test_vectors.md -/

/-- V10.1: after reset, NOP leaves STATUS 0x2. -/
theorem test_nop_from_reset :
    regAfter (step (State.reset.withFetchWord 32 0x00000000)) .status = some 0x00000002#32 := by
  decide +kernel
/-- V2.9: SIZE 2 with OVERLAP 2 gives HOP 1. -/
theorem test_config_smallest :
    regAfter (exec .config { State.reset with size := 2#32, overlap := 2#32 }) .hop = some 1#32 := by
  decide +kernel
/-- V2.22: the window of N = 8. -/
theorem test_window_of_8 : hannWindow 8 =
    [0x00000000#32, 0x3E15F61A#32, 0x3F000000#32, 0x3F5A827A#32, 0x3F800000#32, 0x3F5A827A#32,
     0x3F000000#32, 0x3E15F61A#32] := by decide +kernel
/-- V3.1: CHUNK [1, 2, 3, 4] gives SPEC_RE [12, −6]. -/
theorem test_fwd_real_part :
    wordsAfter (exec (.fwd 3) (ready.storeWords .chunk 0
      [0x3F800000#32, 0x40000000#32, 0x40400000#32, 0x40800000#32])) .specRe 6 2 =
      [some 0x41400000#32, some 0xC0C00000#32] := by decide +kernel
/-- V3.6: an overflow gives SPEC_IM [+inf, +0]. -/
theorem test_fwd_overflow :
    wordsAfter (exec (.fwd 0) (ready.storeWords .chunk 0
      [0x00000000#32, 0x00000000#32, 0x7F000000#32, 0x00000000#32])) .specIm 0 2 =
      [some 0x7F800000#32, some 0x00000000#32] := by decide +kernel
/-- V4.1: RE [12, −6], IM [0, 2] gives CHUNK [0, 1, 3, 2]. -/
theorem test_inv_chunk :
    wordsAfter (exec (.inv 1) (withRow ready 1 [0x41400000#32, 0xC0C00000#32]
      [0x00000000#32, 0x40000000#32])) .chunk 0 4 =
      [some 0x00000000#32, some 0x3F800000#32, some 0x40400000#32, some 0x40000000#32] := by
  decide +kernel
/-- V4.4: a spectrum with only P.im[0] = 16 gives CHUNK [2, −2, 2, −2]. -/
theorem test_inv_nyquist :
    wordsAfter (exec (.inv 0) (withRow ready 0 [0x00000000#32, 0x00000000#32]
      [0x41800000#32, 0x00000000#32])) .chunk 0 4 =
      [some 0x40000000#32, some 0xC0000000#32, some 0x40000000#32, some 0xC0000000#32] := by
  decide +kernel
/-- V5.5: FRAME.O 1 gives [3, 4, 5, 0]. -/
theorem test_frame_overlap :
    wordsAfter (exec (.frame .overlap 1) withSignal) .chunk 0 4 =
      [some 0x40400000#32, some 0x40800000#32, some 0x40A00000#32, some 0x00000000#32] := by
  decide +kernel
/-- V5.3: FRAME.C 2 names no frame. -/
theorem test_frame_out_of_range :
    regAfter (exec (.frame .contiguous 2) withSignal) .errCode = some 0x23#32 := by decide +kernel
/-- V5.15: spectrum 1 has RE [14, −10]. -/
theorem test_analyze_second_spectrum :
    wordsAfter (exec (.analyze .overlap) withSignal) .specRe 2 2 =
      [some 0x41600000#32, some 0xC1200000#32] := by decide +kernel
/-- V5.14: contiguous mode gives NUM_CHUNKS 2. -/
theorem test_analyze_count :
    regAfter (exec (.analyze .contiguous) withSignal) .numChunks = some 2#32 := by decide +kernel
/-- V6.12: NUM_CHUNKS 0 gives OUT_LEN N. -/
theorem test_olaClear_no_chunks : regAfter (exec .olaClear ready) .outLen = some 4#32 := by
  decide +kernel
/-- V6.2: CHUNK [0, 2, 5, 3] added at 2. -/
theorem test_olaAdd_at_hop :
    wordsAfter (exec (.olaAdd 1) { (ready.storeWords .out 0 (List.replicate 8 posZero)).storeWords
      .chunk 0 [0x00000000#32, 0x40000000#32, 0x40A00000#32, 0x40400000#32] with outLen := 8#32 })
      .out 1 5 =
      [some 0x00000000#32, some 0x00000000#32, some 0x40000000#32, some 0x40A00000#32,
       some 0x40400000#32] := by decide +kernel
/-- V6.6: 3·2 + 4 > 8. -/
theorem test_olaAdd_out_of_range :
    regAfter (exec (.olaAdd 3) { ready with outLen := 8#32 }) .errCode = some 0x23#32 := by
  decide +kernel
/-- V6.3: R = 4, OUT [0, 4, 18, 32] gives [0, 2, 9, 16]. -/
theorem test_olaScale_halves :
    wordsAfter (exec .olaScale { ready.storeWords .out 0
      [0x00000000#32, 0x40800000#32, 0x41900000#32, 0x42000000#32] with
        rActive := 4#32, outLen := 4#32 }) .out 0 4 =
      [some 0x00000000#32, some 0x40000000#32, some 0x41100000#32, some 0x41800000#32] := by
  decide +kernel
/-- V6.14: one spectrum RE [24, 0], IM [8, 0] gives OUT [4, 2, 4, 2]. -/
theorem test_synth_one_chunk :
    wordsAfter (exec .synth { withRow ready 0 [0x41C00000#32, 0x00000000#32]
      [0x41000000#32, 0x00000000#32] with numChunks := 1#32 }) .out 0 5 =
      [some 0x40800000#32, some 0x40000000#32, some 0x40800000#32, some 0x40000000#32, none] := by
  decide +kernel
/-- P1: the spectra of the three frames give OUT [0, 1, 3, 4, 5, 6, 0, 0, 0, 0]. -/
theorem test_synthOla_program_1 :
    wordsAfter (exec .synthOla { withRow (withRow (withRow ready 0 [0x41400000#32, 0xC0C00000#32]
      [0x00000000#32, 0x40000000#32]) 1 [0x41A00000#32, 0xC1200000#32]
      [0x00000000#32, 0x40000000#32]) 2 [0x40C00000#32, 0x00000000#32]
      [0xC0C00000#32, 0xC0C00000#32] with numChunks := 3#32 }) .out 0 10 =
      [some 0x00000000#32, some 0x3F800000#32, some 0x40400000#32, some 0x40800000#32,
       some 0x40A00000#32, some 0x40C00000#32, some 0x00000000#32, some 0x00000000#32,
       some 0x00000000#32, some 0x00000000#32] := by decide +kernel
/-- R600, example: 1000 Hz at 44100 Hz with 256 bands is band 11. -/
theorem test_band_example :
    regAfter (exec .band { ready with
      numBands := 256#32, sampleRate := 0x472C4400#32, freqHz := 0x447A0000#32 }) .bandIdx =
      some 11#32 := by decide +kernel
/-- V7.15: 1e30 Hz has no int32 band. -/
theorem test_band_too_high :
    regAfter (exec .band { ready with
      numBands := 256#32, sampleRate := 0x472C4400#32, freqHz := 0x7149F2CA#32 }) .errCode =
      some 0x25#32 := by decide +kernel
/-- V8.14: the range [1, 2) of RE [24, −16]. -/
theorem test_zeroBand_one_slot :
    wordsAfter (exec .zeroBand { withRow ready 0 [0x41C00000#32, 0xC1800000#32]
      [0x41000000#32, 0x00000000#32] with
        numChunks := 1#32, lowerBand := 1#32, upperBand := 2#32 }) .specRe 0 2 =
      [some 0x41C00000#32, some 0x00000000#32] := by decide +kernel
/-- V8.5: lo = −1, hi = −2 reports min greater than max. -/
theorem test_zeroBand_order_of_errors :
    regAfter (exec .zeroBand { ready with
      lowerBand := 0xFFFFFFFF#32, upperBand := 0xFFFFFFFE#32 }) .errCode = some 0x11#32 := by
  decide +kernel
/-- V9.1, second row: RE [8, −1], IM [−6, 3] gives [100, 10]. -/
theorem test_mag_row :
    wordsAfter (exec .mag { withRow ready 0 [0x41000000#32, 0xBF800000#32]
      [0xC0C00000#32, 0x40400000#32] with numChunks := 1#32 }) .disp 0 2 =
      [some 0x42C80000#32, some 0x41200000#32] := by decide +kernel
/-- R655 by hand: rows 32 words wide with highest indices 3 and 4 give 3 + 25. -/
theorem test_trim_margin :
    regAfter (exec .trim { ({ ready with params := ⟨6, 16, 4, 512⟩ } : State).storeWords .disp 0
      (List.replicate 3 posZero ++ [Binary32.one] ++ List.replicate 32 posZero ++
        [Binary32.one] ++ List.replicate 27 posZero) with
          dispRows := 2#32, dispW := 32#32 }) .dispW = some 28#32 := by decide +kernel
/-- V9.12: a word equal to TRIM_EPS does not count. -/
theorem test_trim_strict :
    regAfter (exec .trim { ({ ready with params := ⟨6, 16, 4, 512⟩ } : State).storeWords .disp 0
      (List.replicate 29 posZero ++ [0x358637BD#32]) with
        dispRows := 1#32, dispW := 30#32 }) .dispW = some 25#32 := by decide +kernel
/-- V9.15: reference 0.1f, [0, 1] gives [−inf, 20]. -/
theorem test_db_row :
    wordsAfter (exec .db { ready.storeWords .disp 0 [0x00000000#32, 0x3F800000#32] with
      dispRows := 1#32, dispW := 2#32 }) .disp 0 2 =
      [some 0xFF800000#32, some 0x41A00000#32] := by decide +kernel
/-- V9.20: a reference of −1.0 is refused. -/
theorem test_db_bad_reference :
    regAfter (exec .db { ready with zeroRef := 0xBF800000#32 }) .errCode = some 0x03#32 := by
  decide +kernel

/-! ### The host's port -/

/-- V11.4: a misaligned read answers 0 and sets ACCERR. -/
theorem test_misaligned_read :
    regAfter (hostAccess (.read 0x00000002#32 4) State.reset) .status = some 0x20#32 := by
  decide +kernel
/-- V11.12: the address of SPEC_IM[3][5]. -/
theorem test_address_of_spectrum_word :
    addressOf .specIm (State.reset.rowStart 3 + 5) = 0x50006014#32 := by decide +kernel
/-- V11.15: SIG index SIG_CAP names nothing. -/
theorem test_index_beyond_capacity :
    targetOf State.reset.params 0x31000000#32 4 = .nothing := by decide +kernel
/-- R208: bits 7:0 of ID at byte 0, bits 15:8 at byte 1. -/
theorem test_little_endian :
    State.reset.byteAt 0x00000000#32 = some 0x54#8 ∧
    State.reset.byteAt 0x00000001#32 = some 0x46#8 := by
  decide +kernel

/-! ### Witnesses: states and operands that meet the hypotheses of each statement that has any.
A statement with several clauses has one for each, at a boundary value. -/

theorem witness_DecodeOfEncode : (Instr.fwd 65535).WellFormed := by decide
theorem witness_EncodeOfDecode : decode 0xFFFF0120#32 = .ok (.frame .overlap 65535) := by rfl
theorem witness_IllegalCommandWords :
    State.reset.status.busy = false ∧
    opcField 0x80000002#32 ∉ [0x00, 0x01, 0x10, 0x11, 0x20, 0x21, 0x30, 0x31, 0x32, 0x33, 0x34,
      0x40, 0x41, 0x50, 0x51, 0x52] ∧
    opcField 0x00010121#32 = (Instr.analyze .overlap).opcode ∧
    0x00010121#32 &&& (Instr.analyze .overlap).mask ≠ (Instr.analyze .overlap).matchWord := by
  decide
theorem witness_StepRunsIssuedCommand :
    let s := { ready with script := [issueEvent 0x00050010#32, .reset] }
    s.script = .access (.write 0x00000008#32 4 0x00050010#32) :: [.reset] ∧
    s.status.busy = false ∧ decode 0x00050010#32 = .ok (.fwd 5) ∧
    (Instr.fwd 65535).WellFormed := ⟨rfl, rfl, rfl, by decide⟩

/-- A block with a command in flight. -/
def inFlight : State := ready.startCommand 0x00000050#32

theorem witness_SplitCommandIsAtomicCommand :
    ready.status.busy = false ∧ handleEvent (.start 0x00000050#32) ready = .next inFlight :=
  ⟨rfl, rfl⟩
theorem witness_CommandWriteWhileBusyOnlySetsOverrun : inFlight.status.busy = true := rfl
theorem witness_AccessesWhileBusy :
    inFlight.status.busy = true ∧
    targetOf inFlight.params 0x00000FFC#32 4 = .reg 0xFFC ∧ 0xFFC ∉ [0x008, 0x00C, 0x018] ∧
    targetOf inFlight.params 0x00000000#32 4 = .reg 0x000 ∧
    targetOf inFlight.params 0x1000000C#32 4 = .word .win 3 ∧
    targetOf inFlight.params 0x6000007C#32 4 = .word .out 31 ∧
    targetOf inFlight.params 0x60000080#32 4 = .nothing := by decide
/-- For CompletionLeavesStatusSticky, CodesOfEachCommand, NoCommandWritesSignal,
NoCommandWritesHostRegisters. -/
theorem witness_command_that_completes :
    exec .nop ready = .next ready.succeed ∧ Instr.nop ≠ .config ∧ ∀ m, Instr.nop ≠ .analyze m :=
  ⟨rfl, by decide, fun _ h => by cases h⟩
theorem witness_FailedCommandChangesNothingElse :
    runCommand 0x00000010#32 State.reset = .next (State.reset.complete .notConfigured) ∧
    (State.reset.complete .notConfigured).errCode ≠ 0x00#8 := ⟨rfl, by decide⟩
theorem witness_FailedCommandChangesNothingElse_config :
    ∃ t, runCommand 0x00000001#32 { ready with size := 6#32 } = .next t ∧ t.errCode ≠ 0x00#8 :=
  ⟨_, rfl, by decide⟩
theorem witness_UnconfiguredCommandIsRejected :
    Instr.db ≠ .nop ∧ Instr.db ≠ .config ∧ State.reset.status.cfgValid = false := by decide
theorem witness_ConfigBuildsTransform_least :
    let s := { State.reset with size := 2#32, overlap := 2#32 }
    1 ≤ 1 ∧ 1 ≤ s.params.log2NMax ∧ s.size.toNat = 2 ^ 1 ∧ s.overlap.toNat = 2 ^ 1 := by decide
theorem witness_ConfigBuildsTransform_greatest :
    let s := { State.reset with size := 4096#32, overlap := 4096#32 }
    1 ≤ 12 ∧ 12 ≤ s.params.log2NMax ∧ 12 ≤ 12 ∧
    s.size.toNat = 2 ^ 12 ∧ s.overlap.toNat = 2 ^ 12 := by decide

/-- A number strictly between two neighbouring powers of two is no power of two. -/
theorem no_power (n j : Nat) (h1 : 2 ^ j < n) (h2 : n < 2 ^ (j + 1)) (k : Nat) : n ≠ 2 ^ k := by
  rintro rfl
  have a := (Nat.pow_lt_pow_iff_right (by decide : 1 < 2)).1 h1
  have b := (Nat.pow_lt_pow_iff_right (by decide : 1 < 2)).1 h2
  omega

theorem witness_ConfigRejectsParameters_size_513 :
    ¬ ∃ k, 1 ≤ k ∧ k ≤ ({ State.reset with size := 513#32 } : State).params.log2NMax ∧
      ({ State.reset with size := 513#32 } : State).size.toNat = 2 ^ k :=
  fun ⟨k, _, _, h⟩ => no_power 513 9 (by decide) (by decide) k h
theorem witness_ConfigRejectsParameters_size_8192 :
    ¬ ∃ k, 1 ≤ k ∧ k ≤ ({ State.reset with size := 8192#32 } : State).params.log2NMax ∧
      ({ State.reset with size := 8192#32 } : State).size.toNat = 2 ^ k := by
  rintro ⟨k, _, hk, h⟩
  have hk : k ≤ 12 := hk
  have h : 8192 = 2 ^ k := h
  have := Nat.pow_le_pow_right (by decide : 0 < 2) hk
  omega
theorem witness_ConfigRejectsParameters_overlap_1 :
    let s := { State.reset with overlap := 1#32 }
    1 ≤ 9 ∧ 9 ≤ s.params.log2NMax ∧ s.size.toNat = 2 ^ 9 ∧
    ¬ ∃ j, 1 ≤ j ∧ j ≤ 9 ∧ s.overlap.toNat = 2 ^ j := by
  refine ⟨by decide, by decide, by decide, ?_⟩
  rintro ⟨j, h1, _, h⟩
  have h : 1 = 2 ^ j := h
  have := Nat.pow_le_pow_right (by decide : 0 < 2) h1
  omega
theorem witness_HannSpecialValuesAndSymmetry :
    1 ≤ 16 ∧ 16 ≤ 16 ∧ 2 ≤ 16 ∧ 1 ≤ 65535 ∧ 65535 < 2 ^ 16 := by decide
theorem witness_HannIsNearestToIdealWindow :
    ∃ w : Nat → ℝ, Ideal.IsHann (2 ^ 16) w ∧ 65535 < 2 ^ 16 ∧
      Binary32.isFinite 0x7F7FFFFF#32 = true :=
  ⟨fun i => (1 / 2) * (1 - Real.cos (2 * Real.pi * i / (2 ^ 16 : Nat))), fun _ _ => rfl,
    by decide, by decide⟩
theorem witness_IdealWindowOverlapsToConstant :
    ∃ w : Nat → ℝ, 2 ≤ 2 ∧ 2 ∣ 2 ∧ 0 < 2 ∧ Ideal.IsHann 2 w :=
  ⟨fun i => (1 / 2) * (1 - Real.cos (2 * Real.pi * i / (2 : Nat))), by decide, by decide,
    by decide, fun _ _ => rfl⟩
theorem witness_RoundingIsNearestTiesToEven :
    0 < 1 ∧ (2 ^ 25 - 1) * 2 ^ 252 - 1 < Binary32.overflowUnits * 1 ∧
    0x7F7FFFFF < Binary32.infBits ∧
    Binary32.overflowUnits * 1 ≤ (2 ^ 25 - 1) * 2 ^ 252 := by
  decide +kernel
/-- One pair of words for each clause. -/
theorem witness_SumAndDifferenceAreIeee :
    Binary32.isFinite 0x7F7FFFFF#32 = true ∧ Binary32.isFinite 0x80000000#32 = true ∧
    Binary32.units 0x7F7FFFFF#32 + Binary32.units 0x00000001#32 ≠ 0 ∧
    Binary32.units 0x80000000#32 + Binary32.units 0x80000000#32 = 0 ∧
    Binary32.units 0x7F7FFFFF#32 - Binary32.units 0xFF7FFFFF#32 ≠ 0 ∧
    Binary32.units 0x80000000#32 - Binary32.units 0x00000000#32 = 0 ∧
    Binary32.isNaN 0x7F800001#32 = true ∧ Binary32.isInf 0xFF800000#32 = true ∧
    Binary32.isInf 0x7F800000#32 = true ∧
    Binary32.signBit 0xFF800000#32 ≠ Binary32.signBit 0x7F800000#32 := by
  decide +kernel
theorem witness_DrawnNanIsAnyNan : Binary32.isNaN 0xFFFFFFFF#32 = true := by decide
/-- Words of every class, the operands of the clauses, and a word that division by 1.0 keeps. -/
theorem witness_ProductAndQuotientAreIeee :
    Binary32.isFinite 0x00000001#32 = true ∧ Binary32.isZero 0x00000001#32 = false ∧
    Binary32.units 0x00000001#32 * Binary32.units 0x7F7FFFFF#32 ≠ 0 ∧
    Binary32.isFinite 0x80000000#32 = true ∧ Binary32.isZero 0x80000000#32 = true ∧
    Binary32.units 0x80000000#32 * Binary32.units 0x7F7FFFFF#32 = 0 ∧
    Binary32.isInf 0x7F800000#32 = true ∧ Binary32.isNaN 0x7F800000#32 = false ∧
    Binary32.isZero 0x7F800000#32 = false ∧ Binary32.isNaN 0xFF800001#32 = true ∧
    Binary32.isNaN 0x80000001#32 = false := by
  decide +kernel
theorem witness_TransformsMapZerosToZeros :
    1 ≤ 1 ∧ [0x80000000#32, posZero].length = 2 ^ 1 ∧
    Ideal.AllZero [0x80000000#32, posZero] ∧ Ideal.AllZero [0x80000000#32] ∧
    [0x80000000#32].length = 2 ^ 1 / 2 := by
  have h : ∀ ws : List Word, ws.all Binary32.isZero = true → Ideal.AllZero ws :=
    fun ws hw w hmem => List.all_eq_true.1 hw w hmem
  exact ⟨le_refl 1, rfl, h _ (by decide +kernel), h _ (by decide +kernel), rfl⟩
/-- The ideal spectrum and the ideal inverse of zeros are zeros; the bound is 0. -/
theorem witness_TransformsObeyAccuracyBound :
    3 ≤ 3 ∧ (List.replicate 8 posZero).length = 2 ^ 3 ∧
    Ideal.IsValueOf (List.replicate 8 posZero) (fun _ => 0) ∧
    Ideal.IsForward (2 ^ 3) (fun _ => 0) (fun _ => 0) (fun _ => 0) ∧
    Ideal.IsInverse (2 ^ 3) (fun _ => 0) (fun _ => 0) (fun _ => 0) ∧
    (List.replicate 4 posZero).length = 2 ^ 3 / 2 := by
  refine ⟨le_refl 3, rfl, ?_, ⟨?_, ?_, ?_⟩, ?_, rfl⟩
  · intro i
    have h : (List.replicate 8 posZero).getD i posZero = posZero := by
      rw [List.getD_eq_getElem?_getD, List.getElem?_replicate]
      split <;> rfl
    rw [h]
    simp [Binary32.value, Binary32.units, Binary32.magBits, Binary32.magUnits]
  all_goals simp [Ideal.IsInverse]
theorem witness_LogarithmHasRequiredProperties :
    Binary32.isZero 0x80000000#32 = true ∧ Binary32.isNaN 0x7F800001#32 = true ∧
    Binary32.signBit 0x80000001#32 = true ∧ Binary32.isZero 0x80000001#32 = false ∧ 10 ≤ 10 ∧
    Binary32.infBits ≤ Binary32.infBits ∧ Ideal.IsPositiveFinite 0x00000001#32 := by
  refine ⟨by decide +kernel, by decide +kernel, by decide +kernel, by decide +kernel, le_refl _,
    le_refl _, by decide +kernel, by decide +kernel, by decide +kernel⟩
theorem witness_IdealRoundTrip :
    ∃ y re im u : Nat → ℝ, 1 ≤ 1 ∧ Ideal.IsForward (2 * 1) y re im ∧
      Ideal.IsInverse (2 * 1) re im u :=
  ⟨fun _ => 1,
    fun k => 2 * ∑ i ∈ Finset.range (2 * 1),
      (1 : ℝ) * Real.cos (2 * Real.pi * k * i / ((2 * 1 : Nat) : ℝ)),
    fun _ => 2 * ∑ i ∈ Finset.range (2 * 1), (1 : ℝ) * (-1) ^ i, _, by decide,
    ⟨fun _ _ => rfl, rfl, fun k h1 h2 => by omega⟩, fun _ _ => rfl⟩

/-- Every buffer the tests read is written: CHUNK, two rows, OUT and the display matrix. -/
def loaded : State :=
  let ws := [0x3F800000#32, 0xC0000000#32, 0x7F800000#32, 0x00000001#32]
  let s := withRow (withRow (withRow (withRow withSignal 0 [0x3F800000#32, 0xBF800000#32]
    [0x3F800000#32, 0x40000000#32]) 1 [0x3F800000#32, 0x3F800000#32]
    [0x3F800000#32, 0x3F800000#32]) 2 [0x3F800000#32, 0x3F800000#32]
    [0x3F800000#32, 0x3F800000#32]) 3 [0x3F800000#32, 0x3F800000#32] [0x3F800000#32, 0x7FC00000#32]
  { (((s.storeWords .chunk 0 ws).storeWords .out 0 (ws ++ ws ++ ws)).storeWords .disp 0
      (ws ++ ws)) with
    numChunks := 4#32, outLen := 12#32, dispRows := 4#32, dispW := 2#32 }

/-- The word a buffer of `loaded` holds. -/
def at_ (b : BufId) (start j : Nat) : Word := (loaded.readWord b (start + j)).getD posZero

theorem witness_FwdStoresTransformOfWindowedChunk :
    loaded.status.cfgValid = true ∧ 3 < loaded.params.chunkCap ∧
    loaded.Holds .chunk 0 loaded.sizeN (at_ .chunk 0) ∧
    loaded.Holds .win 0 loaded.sizeN (at_ .win 0) := by
  unfold State.Holds; decide +kernel
theorem witness_InvStoresScaledInverse :
    loaded.status.cfgValid = true ∧ 3 < loaded.params.chunkCap ∧
    loaded.Holds .specRe (3 * loaded.params.rowLen) (loaded.sizeN / 2) (at_ .specRe 6) ∧
    loaded.Holds .specIm (3 * loaded.params.rowLen) (loaded.sizeN / 2) (at_ .specIm 6) := by
  unfold State.Holds; decide +kernel
/-- A configured block with lengths of every kind and no buffer word but WIN's written. -/
def unwritten : State :=
  { ready with
    sigLen := 8#32, numChunks := 2#32, outLen := 8#32, dispRows := 2#32, dispW := 2#32 }

/-- For each reading command a word that it reads and that is unwritten, at the end of its range. -/
theorem witness_CommandsFaultExactlyAtUnwrittenWords :
    (unwritten.Passes (.fwd 3) ∧ unwritten.Reads (.fwd 3) .chunk 3) ∧
    (unwritten.Passes (.inv 3) ∧ unwritten.Reads (.inv 3) .specIm 7) ∧
    (unwritten.Passes (.frame .overlap 3) ∧ unwritten.Reads (.frame .overlap 3) .sig 7) ∧
    (unwritten.Passes (.analyze .contiguous) ∧
      unwritten.Reads (.analyze .contiguous) .sig 7) ∧
    (unwritten.Passes (.olaAdd 2) ∧ unwritten.Reads (.olaAdd 2) .out 7) ∧
    (unwritten.Passes .olaScale ∧ unwritten.Reads .olaScale .out 7) ∧
    (unwritten.Passes .synth ∧ unwritten.Reads .synth .specRe 3) ∧
    (unwritten.Passes .synthOla ∧ unwritten.Reads .synthOla .specIm 3) ∧
    (unwritten.Passes .mag ∧ unwritten.Reads .mag .specRe 3) ∧
    (unwritten.Passes .trim ∧ unwritten.Reads .trim .disp 3) ∧
    (unwritten.Passes .db ∧ unwritten.Reads .db .disp 3) ∧
    ∀ e ∈ [(BufId.chunk, 3), (.specIm, 7), (.sig, 7), (.out, 7), (.specRe, 3), (.specIm, 3),
      (.disp, 3)], unwritten.readWord e.1 e.2 = none := by
  have at1 : ∀ {b : BufId} {start n i : Nat}, start ≤ i → i < start + n → InRange b start n b i :=
    fun h1 h2 => ⟨rfl, h1, h2⟩
  refine ⟨⟨by unfold State.Passes; decide, at1 (by decide) (by decide)⟩,
    ⟨by unfold State.Passes; decide, .inr (at1 (by decide) (by decide))⟩,
    ⟨by unfold State.Passes; decide, at1 (by decide) (by decide)⟩,
    ⟨by unfold State.Passes; decide, 1, by decide, at1 (by decide) (by decide)⟩,
    ⟨by unfold State.Passes; decide, .inl (at1 (by decide) (by decide))⟩,
    ⟨by unfold State.Passes; decide, at1 (by decide) (by decide)⟩,
    ⟨by unfold State.Passes; decide, 1, by decide, .inl (at1 (by decide) (by decide))⟩,
    ⟨by unfold State.Passes; decide, 1, by decide, .inr (at1 (by decide) (by decide))⟩,
    ⟨by unfold State.Passes; decide, 1, by decide, .inl (at1 (by decide) (by decide))⟩,
    ⟨by unfold State.Passes; decide, 1, by decide, at1 (by decide) (by decide)⟩,
    ⟨by unfold State.Passes; decide +kernel, 1, by decide, at1 (by decide) (by decide)⟩,
    by decide⟩
theorem witness_FrameCopiesSignalAndPads :
    loaded.status.cfgValid = true ∧ loaded.lenL ≤ loaded.params.sigCap ∧
    2 < ceilDiv loaded.lenL (loaded.frameStep .overlap) ∧
    1 < ceilDiv loaded.lenL (loaded.frameStep .contiguous) ∧
    loaded.Holds .sig 0 loaded.lenL (at_ .sig 0) := by
  unfold State.Holds; decide +kernel
theorem witness_FrameExistsIffItStartsInSignal : 0 < loaded.frameStep .overlap := by decide
theorem witness_AnalyzeTransformsEveryFrame :
    loaded.params.Legal ∧ loaded.status.cfgValid = true ∧
    loaded.sizeN / 2 ≤ loaded.params.rowLen ∧ loaded.lenL ≤ loaded.params.sigCap ∧
    ceilDiv loaded.lenL (loaded.frameStep .overlap) ≤ loaded.params.chunkCap ∧
    0 < ceilDiv loaded.lenL (loaded.frameStep .overlap) ∧
    loaded.Holds .sig 0 loaded.lenL (at_ .sig 0) ∧
    loaded.Holds .win 0 loaded.sizeN (at_ .win 0) := by
  unfold State.Holds; decide +kernel
theorem witness_OlaClearZeroesOutput :
    let s := { loaded with params := ⟨2, 16, 4, 12⟩ }
    s.params.Legal ∧ s.status.cfgValid = true ∧ s.chunksC ≤ s.params.chunkCap ∧
    s.chunksC * s.hopH + s.sizeN ≤ s.params.outCap := by decide
theorem witness_OlaAddAccumulatesChunk_last :
    loaded.status.cfgValid = true ∧ 4 * loaded.hopH + loaded.sizeN ≤ loaded.outN ∧
    loaded.Holds .out (4 * loaded.hopH) loaded.sizeN (at_ .out 8) ∧
    loaded.Holds .chunk 0 loaded.sizeN (at_ .chunk 0) := by
  unfold State.Holds; decide +kernel
theorem witness_OlaAddAccumulatesChunk_beyond : loaded.outN < 5 * loaded.hopH + loaded.sizeN := by
  decide
theorem witness_OlaScaleDividesOutput :
    -126 ≤ (Nat.log2 loaded.ratioR : Int) - 1 ∧ (Nat.log2 loaded.ratioR : Int) - 1 ≤ 127 ∧
    loaded.status.cfgValid = true ∧ loaded.Holds .out 0 loaded.outN (at_ .out 0) := by
  unfold State.Holds; decide +kernel
theorem witness_IndexAndCapacityRejections_index :
    loaded.status.cfgValid = true ∧ loaded.params.chunkCap ≤ 4 ∧
    loaded.lenL ≤ loaded.params.sigCap ∧
    ceilDiv loaded.lenL (loaded.frameStep .contiguous) ≤ 2 := by decide
theorem witness_IndexAndCapacityRejections_signal :
    let s := { loaded with sigLen := 17#32 }
    s.status.cfgValid = true ∧ s.params.sigCap < s.lenL := by decide
theorem witness_IndexAndCapacityRejections_frames :
    let s := { loaded with sigLen := 9#32 }
    s.status.cfgValid = true ∧ s.params.chunkCap < ceilDiv s.lenL (s.frameStep .overlap) := by decide
theorem witness_IndexAndCapacityRejections_chunks :
    let s := { loaded with numChunks := 5#32 }
    s.status.cfgValid = true ∧ s.params.chunkCap < s.chunksC := by decide
theorem witness_IndexAndCapacityRejections_output :
    let s := { loaded with params := ⟨2, 16, 4, 11⟩ }
    s.status.cfgValid = true ∧ s.params.outCap < s.chunksC * s.hopH + s.sizeN ∧
    s.params.outCap < s.chunksC * s.sizeN := by decide
/-- For SynthConcatenatesInverses and SynthOlaSumsInIndexOrder; CHUNK_CAP spectra are used. -/
theorem witness_synthesis :
    loaded.params.Legal ∧ loaded.status.cfgValid = true ∧
    loaded.chunksC ≤ loaded.params.chunkCap ∧ 0 < loaded.chunksC ∧
    loaded.chunksC * loaded.sizeN ≤ loaded.params.outCap ∧
    loaded.chunksC * loaded.hopH + loaded.sizeN ≤ loaded.params.outCap ∧
    (∀ c < loaded.chunksC,
      loaded.Holds .specRe (c * loaded.params.rowLen) (loaded.sizeN / 2) (at_ .specRe (c * 2)) ∧
      loaded.Holds .specIm (c * loaded.params.rowLen) (loaded.sizeN / 2) (at_ .specIm (c * 2))) := by
  unfold State.Holds; decide +kernel
/-- 4000 Hz at 8000 Hz with 2 bands: q = 2 (V7.9). -/
theorem witness_BandWritesFloorOfQuotient_inside :
    let s := { ready with sampleRate := 0x45FA0000#32, freqHz := 0x457A0000#32 }
    s.status.cfgValid = true ∧ s.bandQuotient = 0x40000000#32 ∧
    Binary32.isFinite s.bandQuotient = true ∧ -2 ^ 31 ≤ Binary32.floorInt s.bandQuotient ∧
    Binary32.floorInt s.bandQuotient ≤ 2 ^ 31 - 1 ∧
    Binary32.isFinite 0x80000001#32 = true ∧ 0 < s.bandsM := by decide +kernel
/-- A quotient of exactly 2^31 is outside. -/
theorem witness_BandWritesFloorOfQuotient_outside :
    let s := { ready with sampleRate := 0x40800000#32, freqHz := 0x4F000000#32 }
    s.status.cfgValid = true ∧ s.bandQuotient = 0x4F000000#32 ∧
    ¬ (Binary32.isFinite s.bandQuotient = true ∧ -2 ^ 31 ≤ Binary32.floorInt s.bandQuotient ∧
      Binary32.floorInt s.bandQuotient ≤ 2 ^ 31 - 1) := by decide +kernel
/-- hi = M, the last legal bound. -/
theorem witness_ZeroBandZeroesHalfOpenRange :
    let s := { loaded with lowerBand := 0#32, upperBand := 2#32 }
    s.status.cfgValid = true ∧ s.upperBand.toInt ≤ (s.bandsM : Int) ∧
    s.lowerBand.toInt ≤ s.upperBand.toInt ∧ 0 ≤ s.lowerBand.toInt ∧
    s.chunksC ≤ s.params.chunkCap := by decide
theorem witness_ZeroBandReportsFirstRangeError :
    (let s := { loaded with lowerBand := 0xFFFFFFFF#32, upperBand := 3#32 }
     s.status.cfgValid = true ∧ (s.bandsM : Int) < s.upperBand.toInt) ∧
    (let s := { loaded with lowerBand := 2#32, upperBand := 1#32 }
     s.upperBand.toInt ≤ (s.bandsM : Int) ∧ s.upperBand.toInt < s.lowerBand.toInt) ∧
    (let s := { loaded with lowerBand := 0xFFFFFFFF#32, upperBand := 0xFFFFFFFF#32 }
     s.upperBand.toInt ≤ (s.bandsM : Int) ∧ s.lowerBand.toInt ≤ s.upperBand.toInt ∧
     s.lowerBand.toInt < 0) ∧
    (let s := { loaded with numChunks := 5#32 }
     s.upperBand.toInt ≤ (s.bandsM : Int) ∧ s.lowerBand.toInt ≤ s.upperBand.toInt ∧
     0 ≤ s.lowerBand.toInt ∧ s.params.chunkCap < s.chunksC) := by decide
theorem witness_ZeroBandIsIdempotent :
    ∃ t u, ({ loaded with upperBand := 1#32 } : State).mem.wf ∧
      exec .zeroBand { loaded with upperBand := 1#32 } = .next t ∧ exec .zeroBand t = .next u :=
  ⟨_, _, by decide +kernel, rfl, rfl⟩
theorem witness_MagWritesSquaredMagnitudes :
    loaded.status.cfgValid = true ∧ loaded.chunksC ≤ loaded.params.chunkCap ∧
    loaded.bandsM ≤ loaded.params.rowLen ∧
    (∀ c < loaded.chunksC,
      loaded.Holds .specRe (c * loaded.params.rowLen) loaded.bandsM (at_ .specRe (c * 2)) ∧
      loaded.Holds .specIm (c * loaded.params.rowLen) loaded.bandsM (at_ .specIm (c * 2))) := by
  unfold State.Holds; decide +kernel
theorem witness_SquaredMagnitudeIsNotNegative : Binary32.isNaN 0xFF800001#32 = true := by decide
/-- Words for each clause about the comparison. -/
theorem witness_TrimNarrowsToLeastHighest_comparison :
    Binary32.isNaN 0xFF800001#32 = true ∧ Binary32.isFinite 0x80000000#32 = true ∧
    Binary32.isFinite 0x7F7FFFFF#32 = true := by decide
theorem witness_TrimNarrowsToLeastHighest_no_rows :
    ready.status.cfgValid = true ∧ ready.rowsRd = 0 := by decide
theorem witness_TrimNarrowsToLeastHighest_rows :
    let s := (ready.storeWords .disp 0 [Binary32.one, Binary32.one, Binary32.one, posZero])
    let t := { s with dispRows := 2#32, dispW := 2#32 }
    let row := fun c j => (t.readWord .disp (c * 2 + j)).getD posZero
    t.status.cfgValid = true ∧ 0 < t.rowsRd ∧
    (∀ c < t.rowsRd, t.Holds .disp (c * t.params.rowLen) t.widthW (row c)) ∧
    IsHighestAbove (row 0) 2 1 ∧ IsHighestAbove (row 1) 2 0 ∧ IsLeast (fun c => 1 - c) 2 0 := by
  refine ⟨by decide, by decide, ?_, .inl ⟨by decide, by decide +kernel, ?_⟩,
    .inl ⟨by decide, by decide +kernel, ?_⟩, ⟨1, by decide, rfl⟩, fun _ _ => Nat.zero_le _⟩
  · unfold State.Holds; decide +kernel
  · intro k h1 h2; omega
  · intro k h1 h2
    obtain rfl : k = 1 := by omega
    decide +kernel
theorem witness_DbConvertsMatrix :
    loaded.status.cfgValid = true ∧ loaded.widthW ≤ loaded.params.rowLen ∧
    Binary32.isFinite loaded.zeroRef = true ∧ Binary32.isZero loaded.zeroRef = false ∧
    Binary32.signBit loaded.zeroRef = false ∧
    (∀ c < loaded.rowsRd,
      loaded.Holds .disp (c * loaded.params.rowLen) loaded.widthW (at_ .disp (c * 2))) := by
  unfold State.Holds; decide +kernel
theorem witness_DbConvertsMatrix_bad_reference :
    Binary32.isZero ({ loaded with zeroRef := 0x80000000#32 } : State).zeroRef = true := by decide
theorem witness_AddressMapNamesExactlyItsWords :
    let p := Config.defaultParams
    p.Legal ∧ 2 ^ 25 - 1 < p.chunkCap * (2 ^ p.log2NMax / 2) ∧
    targetOf p 0x57FFFFFC#32 4 = .word .specIm (2 ^ 25 - 1) ∧
    targetOf p 0x00000FFC#32 4 = .reg 0xFFC ∧ targetOf p 0x58000000#32 4 = .nothing := by decide
theorem witness_HostWritesOneWord :
    ready.status.busy = false ∧ ready.params.Legal ∧ 7 < capacityOf ready.params .disp ∧
    BufId.disp ≠ .win ∧ 3 < capacityOf ready.params .win := by decide
theorem witness_ReadsHaveNoSideEffect :
    loaded.status.busy = false ∧ targetOf loaded.params 0x80000000#32 4 = .nothing ∧
    targetOf loaded.params 0x2000000C#32 4 = .word .chunk 3 ∧
    loaded.readWord .chunk 3 = some 0x00000001#32 ∧
    targetOf loaded.params 0x00000020#32 4 = .reg 0x020 ∧ Reg.ofOffset 0x020 = some .size ∧
    targetOf loaded.params 0x0000001C#32 4 = .reg 0x01C ∧ Reg.ofOffset 0x01C = none := by
  decide +kernel
theorem witness_RejectedWritesOnlySetAccErr :
    ready.status.busy = false ∧ targetOf ready.params 0x00000020#32 2 = .nothing ∧
    targetOf ready.params 0x00000084#32 4 = .reg 0x084 ∧
    targetOf ready.params 0x000000FC#32 4 = .reg 0x0FC ∧
    ∀ off ∈ [0x084, 0x0FC], off ∉ [0x008, 0x00C, 0x018, 0x020, 0x024, 0x040, 0x044, 0x050, 0x054,
      0x05C, 0x060, 0x070] := by
  decide
/-- With the register map's hypothesis, an offset that is none of the table's. -/
theorem witness_RegisterMap :
    ready.status.busy = false ∧ 0x0EC < 0x1000 ∧ 0x0EC % 4 = 0 ∧
    Reg.ofOffset 0x0EC = none := by decide
theorem witness_ResetValues :
    ({ inFlight with script := [.reset, .finish] } : State).script = .reset :: [.finish] := rfl
theorem witness_InvariantHoldsAtReset : Config.defaultParams.Legal ∧ small.Legal := by decide

/-- The configured small block has the invariant. -/
theorem ready_invariant : ready.Invariant where
  legal := by decide
  wf := by decide +kernel
  bounds := by decide +kernel
  config := .inr ⟨2, 1, by decide, by decide, by decide, by decide, rfl, rfl, rfl, rfl, rfl⟩
  code := ⟨.ok, rfl⟩
  outFits := by decide
  outWritten := fun p h => absurd h (Nat.not_lt_zero p)
  dispFits := by decide
  dispWritten := fun c h => absurd h (Nat.not_lt_zero c)

/-- For EveryStepKeepsInvariant and CommandsThatNeverFault. -/
theorem witness_EveryStepKeepsInvariant :
    ready.Invariant ∧ ∃ t, step ready = .next t := ⟨ready_invariant, _, rfl⟩

end Sys2Proof.Tests
end

section
/-! PROOF. The statements about the arithmetic of words (00_scope.md R16, R17): the drawn NaN, the
one rounding, and the four operations as that rounding of the exact result. -/

namespace Sys2Proof.Binary32

/-! ### The drawn NaN -/

theorem isNaN_nanOfBits (w : Word) : isNaN (nanOfBits w) = true := by
  have hp : 0 < (if w.toNat % 2 ^ 23 = 0 then 1 else w.toNat % 2 ^ 23) ∧
      (if w.toNat % 2 ^ 23 = 0 then 1 else w.toNat % 2 ^ 23) < 2 ^ 23 := by
    split <;> omega
  rw [isNaN, nanOfBits, magBits_withSign _ _ (by rw [infBits]; omega), decide_eq_true_eq]
  omega

/-- A word is its sign bit and its magnitude bits. -/
theorem withSign_signBit_magBits (w : Word) : withSign (signBit w) (magBits w) = w := by
  apply BitVec.eq_of_toNat_eq
  rw [withSign_toNat _ _ (magBits_lt w)]
  have hw : w.toNat < 2 ^ 32 := w.isLt
  simp only [signBit, magBits, decide_eq_true_eq]
  split <;> omega

theorem nanOfBits_of_isNaN (w : Word) (h : isNaN w = true) : nanOfBits w = w := by
  rw [isNaN, decide_eq_true_eq, magBits, infBits] at h
  have hpayload : w.toNat % 2 ^ 23 ≠ 0 := by omega
  have hmag : infBits + w.toNat % 2 ^ 23 = magBits w := by rw [magBits, infBits]; omega
  rw [nanOfBits, if_neg hpayload, hmag, withSign_signBit_magBits]

/-- Settles O25: the image of `nanOfBits` is in the NaNs, and it fixes each of them. -/
theorem drawnNanIsAnyNan : Obligations.DrawnNanIsAnyNan :=
  ⟨fun _ => isNaN_nanOfBits _, nanOfBits_of_isNaN⟩

/-! ### The one rounding

The exact magnitude lies between two neighbouring magnitudes `t` and `t + 1`; `roundUnits` compares
it with their middle. Every property of the rounding follows from this and from the order of the
magnitudes. -/

/-- The neighbour of `num / den` units that round-to-nearest-even chooses between the magnitudes
`t` and `t + 1`. -/
def nearer (t num den : Nat) : Nat :=
  if magUnits t * den + magUnits (t + 1) * den < 2 * num then t + 1
  else if magUnits t * den + magUnits (t + 1) * den = 2 * num then t + t % 2
  else t

/-- The mantissa in the quantum 2^s of `roundUnits` has at most 24 bits, and exactly 24 unless the
quantum is the least one. -/
theorem mantissa_bounds (n s : Nat) (hs : s = Nat.log2 n - 23) :
    n / 2 ^ s < 2 ^ 24 ∧ (s = 0 ∨ 2 ^ 23 ≤ n / 2 ^ s) := by
  constructor
  · rw [Nat.div_lt_iff_lt_mul (Nat.two_pow_pos s), ← pow_add]
    exact Nat.lt_log2_self.trans_le (Nat.pow_le_pow_right (by decide) (by omega))
  · rcases Nat.eq_zero_or_pos s with h0 | hpos
    · exact .inl h0
    · right
      have hn : n ≠ 0 := by rintro rfl; simp at hs; omega
      rw [Nat.le_div_iff_mul_le (Nat.two_pow_pos s), ← pow_add]
      exact (Nat.pow_le_pow_right (by decide) (by omega)).trans (Nat.log2_self_le hn)

/-- What `roundUnits` computes: the magnitudes that enclose the exact one, and the nearer of them,
cut off at infinity. -/
theorem roundUnits_bracket (num den : Nat) (hd : 0 < den) :
    ∃ t, magUnits t * den ≤ num ∧ num < magUnits (t + 1) * den ∧
      roundUnits num den = min (nearer t num den) infBits := by
  obtain ⟨s, hs⟩ : ∃ s, s = Nat.log2 (num / den) - 23 := ⟨_, rfl⟩
  obtain ⟨q, hq⟩ : ∃ q, q = den * 2 ^ s := ⟨_, rfl⟩
  obtain ⟨m, hm⟩ : ∃ m, m = num / q := ⟨_, rfl⟩
  have hqpos : 0 < q := hq ▸ Nat.mul_pos hd (Nat.two_pow_pos s)
  obtain ⟨hm24, hm23⟩ := mantissa_bounds (num / den) s hs
  rw [Nat.div_div_eq_div_mul, ← hq, ← hm] at hm24 hm23
  have hlo : magUnits (s * 2 ^ 23 + m) * den = q * m := by
    rw [magUnits_quantum s m (by omega) hm23, hq]
    ring
  have hhi : magUnits (s * 2 ^ 23 + m + 1) * den = q * m + q := by
    rw [add_assoc, magUnits_quantum s (m + 1) (by omega) (by omega), hq]
    ring
  have hnum : q * m + num % q = num := hm ▸ Nat.div_add_mod num q
  have hr : num % q < q := Nat.mod_lt _ hqpos
  refine ⟨s * 2 ^ 23 + m, by omega, by omega, ?_⟩
  simp only [roundUnits, nearer, ← hs, ← hq, ← hm, hlo, hhi]
  congr 1
  split_ifs <;> omega

/-- The threshold is the middle between the greatest finite magnitude and the first that is none. -/
theorem two_mul_overflowUnits :
    2 * overflowUnits = magUnits (infBits - 1) + magUnits infBits := by decide +kernel

/-- The nearer neighbour is among the finite ones exactly below the overflow threshold. -/
theorem nearer_lt_infBits_iff (t num den : Nat) (hlo : magUnits t * den ≤ num)
    (hhi : num < magUnits (t + 1) * den) :
    nearer t num den < infBits ↔ num < overflowUnits * den := by
  have hmono : ∀ b c, b ≤ c → magUnits b * den ≤ magUnits c * den := fun b c h =>
    Nat.mul_le_mul_right den (magUnits_strictMono.monotone h)
  have hmid : 2 * (overflowUnits * den) =
      magUnits (infBits - 1) * den + magUnits infBits * den := by
    rw [← mul_assoc, two_mul_overflowUnits, add_mul]
  have hodd : (infBits - 1) % 2 = 1 := by decide
  have hpos : 0 < infBits := by decide
  unfold nearer
  rcases lt_trichotomy (t + 1) infBits with h | h | h
  · have := hmono (t + 1) (infBits - 1) (by omega)
    have := hmono (infBits - 1) infBits (by omega)
    split_ifs <;> omega
  · obtain rfl : t = infBits - 1 := by omega
    rw [h] at *
    split_ifs <;> omega
  · have := hmono infBits t (by omega)
    have := hmono (infBits - 1) infBits (by omega)
    split_ifs <;> omega

/-- No magnitude is nearer than the one chosen, and if another one is equally near the one chosen is
even. -/
theorem nearer_isNearest (t num den c : Nat) (hd : 0 < den) (hlo : magUnits t * den ≤ num)
    (hhi : num < magUnits (t + 1) * den) :
    let err := fun b : Nat => ((magUnits b * den : Nat) : Int) - (num : Int)
    |err (nearer t num den)| ≤ |err c| ∧
      (|err (nearer t num den)| = |err c| → c ≠ nearer t num den →
        nearer t num den % 2 = 0) := by
  have hmono : ∀ b c, b < c → magUnits b * den < magUnits c * den := fun b c h =>
    Nat.mul_lt_mul_of_pos_right (magUnits_strictMono h) hd
  have hside : magUnits c * den < magUnits t * den ∨ c = t ∨ c = t + 1 ∨
      magUnits (t + 1) * den < magUnits c * den := by
    rcases lt_trichotomy c t with h | h | h
    · exact .inl (hmono c t h)
    · exact .inr (.inl h)
    · rcases Nat.eq_or_lt_of_le h with h | h
      · exact .inr (.inr (.inl h.symm))
      · exact .inr (.inr (.inr (hmono _ _ h)))
  have hchoice : nearer t num den = t ∧ 2 * num ≤ magUnits t * den + magUnits (t + 1) * den ∨
      nearer t num den = t + 1 ∧ magUnits t * den + magUnits (t + 1) * den ≤ 2 * num := by
    unfold nearer
    split_ifs <;> omega
  have htie : magUnits t * den + magUnits (t + 1) * den = 2 * num → nearer t num den % 2 = 0 := by
    intro h
    rw [nearer, if_neg (by omega), if_pos h]
    omega
  simp only [Int.abs_eq_natAbs]
  rcases hchoice with ⟨h, hle⟩ | ⟨h, hle⟩
  · rw [h] at htie ⊢
    rcases hside with hc | rfl | rfl | hc <;> constructor <;> omega
  · rw [h] at htie ⊢
    rcases hside with hc | rfl | rfl | hc <;> constructor <;> omega

/-- Settles O23: the nearer neighbour is the nearest magnitude, and it is a finite one exactly below
the overflow threshold. -/
theorem roundingIsNearestTiesToEven : Obligations.RoundingIsNearestTiesToEven := by
  intro num den hd
  obtain ⟨t, hlo, hhi, hround⟩ := roundUnits_bracket num den hd
  have hfinite := nearer_lt_infBits_iff t num den hlo hhi
  constructor
  · intro hnum
    have hlt := hfinite.2 hnum
    rw [Nat.min_eq_left hlt.le] at hround
    rw [hround]
    exact ⟨hlt, fun c _ => nearer_isNearest t num den c hd hlo hhi⟩
  · intro hnum
    rw [hround, Nat.min_eq_right (not_lt.1 fun h => hnum.not_gt (hfinite.1 h))]

end Sys2Proof.Binary32
end

section
/-! PROOF. The four operations of 00_scope.md R16: for finite operands each is the one rounding of
the exact result; then the results for zeros, infinities and NaN operands. -/

namespace Sys2Proof.Binary32

/-! ### Signs and exact values -/

/-- A number with the sign of a word. -/
def signed (neg : Bool) (x : ℚ) : ℚ := if neg then -x else x

@[simp] theorem signed_false (x : ℚ) : signed false x = x := rfl
@[simp] theorem signed_true (x : ℚ) : signed true x = -x := rfl

theorem signed_add (n : Bool) (x y : ℚ) : signed n x + signed n y = signed n (x + y) := by
  cases n
  · rfl
  · simp only [signed_true]; ring

theorem signed_add_not (n : Bool) (x y : ℚ) : signed n x + signed (!n) y = signed n (x - y) := by
  cases n
  · rw [Bool.not_false, signed_true, signed_false, signed_false, sub_eq_add_neg]
  · simp only [Bool.not_true, signed_true, signed_false]; ring

theorem signed_mul (m n : Bool) (x y : ℚ) :
    signed m x * signed n y = signed (m != n) (x * y) := by
  cases m <;> cases n <;> simp

theorem signed_div (m n : Bool) (x y : ℚ) :
    signed m x / signed n y = signed (m != n) (x / y) := by
  rw [div_eq_mul_inv, div_eq_mul_inv, ← signed_mul]
  cases n <;> simp [inv_neg]

theorem signed_eq_zero (n : Bool) (x : ℚ) : signed n x = 0 ↔ x = 0 := by
  cases n <;> simp

theorem abs_signed (n : Bool) (x : ℚ) : |signed n x| = |x| := by
  cases n <;> simp

theorem signed_neg_iff (n : Bool) (x : ℚ) (h : 0 < x) : signed n x < 0 ↔ n = true := by
  cases n <;> simp [h, h.le]

/-- `num / den` units of 2^-149 as a rational number. -/
def ofUnits (num den : Nat) : ℚ := (num : ℚ) / den / 2 ^ 149

theorem magUnits_of_zero : magUnits 0 = 0 := (magUnits_eq_zero 0).2 rfl

theorem value_eq_signed (w : Word) :
    value w = signed (signBit w) (ofUnits (magUnits (magBits w)) 1) := by
  unfold value units ofUnits
  cases signBit w <;> simp [neg_div]

theorem ofUnits_nonneg (num den : Nat) : 0 ≤ ofUnits num den := by unfold ofUnits; positivity

theorem ofUnits_pos (num den : Nat) (hn : 0 < num) (hd : 0 < den) : 0 < ofUnits num den := by
  unfold ofUnits; positivity

theorem ofUnits_add (x y : Nat) : ofUnits x 1 + ofUnits y 1 = ofUnits (x + y) 1 := by
  unfold ofUnits; push_cast; ring

theorem ofUnits_sub (x y : Nat) (h : y ≤ x) : ofUnits x 1 - ofUnits y 1 = ofUnits (x - y) 1 := by
  unfold ofUnits; rw [Nat.cast_sub h]; ring

theorem ofUnits_mul (x y : Nat) : ofUnits x 1 * ofUnits y 1 = ofUnits (x * y) (2 ^ 149) := by
  unfold ofUnits; push_cast; ring

theorem ofUnits_div (x y : Nat) : ofUnits x 1 / ofUnits y 1 = ofUnits (x * 2 ^ 149) y := by
  rw [ofUnits, ofUnits, ofUnits, Nat.cast_one, div_one, div_one,
    div_div_div_cancel_right₀ (by positivity), Nat.cast_mul, div_right_comm, Nat.cast_pow,
    Nat.cast_ofNat, mul_div_cancel_right₀ _ (by positivity)]

theorem ofUnits_zero (den : Nat) : ofUnits 0 den = 0 := by simp [ofUnits]

theorem ofUnits_one_eq_zero (x : Nat) : ofUnits x 1 = 0 ↔ x = 0 := by
  simp [ofUnits]

theorem ofUnits_one_inj (x y : Nat) : ofUnits x 1 = ofUnits y 1 ↔ x = y := by
  simp [ofUnits]

/-- The order of the exact values is that of the cross products `roundUnits` computes with. -/
theorem ofUnits_lt_iff (num den u : Nat) (hd : 0 < den) :
    ofUnits num den < (u : ℚ) / 2 ^ 149 ↔ num < u * den := by
  have hd' : (0 : ℚ) < den := by exact_mod_cast hd
  rw [ofUnits, div_lt_div_iff_of_pos_right (by positivity), div_lt_iff₀ hd']
  exact_mod_cast Iff.rfl

/-! ### A rounded word is the nearest of all words -/

/-- The distances of the magnitudes from the exact one are, up to one factor, the integers that
`roundUnits` compares. -/
theorem ofUnits_distance (num den : Nat) (hd : 0 < den) : ∃ k : ℚ, 0 < k ∧ ∀ u : Nat,
    |ofUnits u 1 - ofUnits num den| * k =
      ((|((u * den : Nat) : Int) - (num : Int)| : Int) : ℚ) := by
  have hd' : (0 : ℚ) < den := by exact_mod_cast hd
  have hk : (0 : ℚ) < den * 2 ^ 149 := by positivity
  refine ⟨den * 2 ^ 149, hk, fun u => ?_⟩
  conv_lhs => rw [← abs_of_pos hk, ← abs_mul]
  push_cast
  congr 1
  rw [ofUnits, ofUnits, ← sub_div, mul_comm (den : ℚ), ← mul_assoc,
    div_mul_cancel₀ _ (by positivity), sub_mul, div_mul_cancel₀ _ hd'.ne', Nat.cast_one, div_one]

/-- Words of the exact value's sign are as far from it as their magnitudes are. -/
theorem abs_value_sub_of_signBit_eq (c : Word) (neg : Bool) (x : ℚ) (h : signBit c = neg) :
    |value c - signed neg x| = |ofUnits (magUnits (magBits c)) 1 - x| := by
  rw [value_eq_signed, h]
  cases neg
  · rfl
  · rw [signed_true, signed_true, ← abs_neg]
    congr 1
    ring

/-- A word of the other sign is as far from the exact value as zero is, and its own value more. -/
theorem abs_value_sub_of_signBit_ne (c : Word) (neg : Bool) (x : ℚ) (hx : 0 ≤ x)
    (h : signBit c ≠ neg) : |value c - signed neg x| = ofUnits (magUnits (magBits c)) 1 + x := by
  have hu := ofUnits_nonneg (magUnits (magBits c)) 1
  rw [value_eq_signed, Bool.eq_not_of_ne h]
  rw [← abs_of_nonneg (add_nonneg hu hx)]
  cases neg
  · rw [Bool.not_false, signed_true, signed_false, ← abs_neg]
    congr 1
    ring
  · rw [Bool.not_true, signed_false, signed_true, sub_neg_eq_add]

/-- Rounding to nearest, ties to even, in the rational numbers. -/
theorem ofUnits_roundUnits_isNearest (num den : Nat) (hd : 0 < den)
    (hnum : num < overflowUnits * den) (c : Nat) (hc : c < infBits) :
    let err := fun b : Nat => ofUnits (magUnits b) 1 - ofUnits num den
    |err (roundUnits num den)| ≤ |err c| ∧
      (|err (roundUnits num den)| = |err c| → c ≠ roundUnits num den →
        roundUnits num den % 2 = 0) := by
  intro err
  obtain ⟨k, hk, hdist⟩ := ofUnits_distance num den hd
  rw [← mul_le_mul_iff_left₀ hk, ← mul_left_inj' hk.ne', hdist, hdist, Int.cast_le,
    Int.cast_inj]
  exact ((roundingIsNearestTiesToEven num den hd).1 hnum).2 c hc

theorem roundUnits_lt (num den : Nat) : roundUnits num den < 2 ^ 31 :=
  (roundUnits_le num den).trans_lt (by decide)

@[simp] theorem signBit_round (neg : Bool) (num den : Nat) : signBit (round neg num den) = neg :=
  signBit_withSign _ _ (roundUnits_lt num den)

@[simp] theorem magBits_round (neg : Bool) (num den : Nat) :
    magBits (round neg num den) = roundUnits num den :=
  magBits_withSign _ _ (roundUnits_lt num den)

theorem round_isNearest (neg : Bool) (num den : Nat) (hd : 0 < den)
    (hnum : num < overflowUnits * den) (c : Word) (hc : isFinite c = true) :
    let w := round neg num den
    let v := signed neg (ofUnits num den)
    |value w - v| ≤ |value c - v| ∧
      (|value w - v| = |value c - v| → value c ≠ value w → w.getLsbD 0 = false) := by
  intro w v
  have hlsb : w.getLsbD 0 = decide (roundUnits num den % 2 = 1) :=
    getLsbD_zero_withSign _ _ (roundUnits_lt num den)
  have hw : |value w - v| = |ofUnits (magUnits (roundUnits num den)) 1 - ofUnits num den| := by
    rw [abs_value_sub_of_signBit_eq w neg _ (signBit_round ..), magBits_round]
  have hv := ofUnits_nonneg num den
  rw [hw, hlsb]
  by_cases hs : signBit c = neg
  · rw [isFinite, decide_eq_true_eq] at hc
    obtain ⟨hle, heven⟩ := ofUnits_roundUnits_isNearest num den hd hnum (magBits c) hc
    rw [abs_value_sub_of_signBit_eq c neg _ hs]
    refine ⟨hle, fun heq hne => ?_⟩
    have hmag : magBits c ≠ roundUnits num den := by
      intro h
      apply hne
      rw [value_eq_signed, value_eq_signed w, hs, h, magBits_round, signBit_round]
    simp [heven heq hmag]
  · -- zero is at least as near as a word of the other sign
    obtain ⟨hle, heven⟩ := ofUnits_roundUnits_isNearest num den hd hnum 0 (by decide)
    have hzero : |ofUnits (magUnits 0) 1 - ofUnits num den| = ofUnits num den := by
      rw [magUnits_of_zero, ofUnits_zero, zero_sub, abs_neg, abs_of_nonneg hv]
    have hu := ofUnits_nonneg (magUnits (magBits c)) 1
    rw [hzero] at hle heven
    rw [abs_value_sub_of_signBit_ne c neg _ hv hs]
    refine ⟨by linarith, fun heq hne => ?_⟩
    have hc0 : ofUnits (magUnits (magBits c)) 1 = 0 := by linarith
    have hround0 : 0 ≠ roundUnits num den := by
      intro h
      apply hne
      rw [value_eq_signed, value_eq_signed w, hc0, magBits_round, ← h,
        magUnits_of_zero, ofUnits_zero, (signed_eq_zero _ 0).2 rfl, (signed_eq_zero _ 0).2 rfl]
    simp [heven (by linarith) hround0]

/-- The rounded word is what IEEE 754 rounds a non-zero exact value to. -/
theorem round_roundsTo (neg : Bool) (num den : Nat) (hn : 0 < num) (hd : 0 < den) :
    RoundsTo (signed neg (ofUnits num den)) (round neg num den) := by
  have hpos := ofUnits_pos num den hn hd
  obtain ⟨hbelow, habove⟩ := roundingIsNearestTiesToEven num den hd
  rw [RoundsTo, abs_signed, abs_of_pos hpos, ← not_lt, ofUnits_lt_iff _ _ _ hd]
  refine ⟨?_, fun hlt => ⟨?_, round_isNearest neg num den hd hlt⟩, fun hge => ?_⟩
  · rw [signBit_round, Bool.eq_iff_iff, decide_eq_true_eq]
    exact (signed_neg_iff _ _ hpos).symm
  · rw [isFinite, magBits_round, decide_eq_true_eq]
    exact (hbelow hlt).1
  · rw [isInf, magBits_round, decide_eq_true_eq]
    exact habove (not_lt.1 hge)

/-! ### Zeros and infinities -/

theorem withSign_zero (neg : Bool) : withSign neg 0 = if neg then negZero else posZero := by
  cases neg <;> rfl

theorem withSign_infBits (neg : Bool) : withSign neg infBits = if neg then negInf else posInf := by
  cases neg <;> rfl

theorem roundUnits_zero (den : Nat) : roundUnits 0 den = 0 := by simp [roundUnits]

theorem round_zero (neg : Bool) (den : Nat) :
    round neg 0 den = if neg then negZero else posZero := by
  rw [round, roundUnits_zero, withSign_zero]

theorem isZero_iff_magUnits (w : Word) : isZero w = true ↔ magUnits (magBits w) = 0 := by
  rw [isZero, decide_eq_true_eq, magUnits_eq_zero]

theorem magUnits_pos (w : Word) (h : isZero w = false) : 0 < magUnits (magBits w) :=
  Nat.pos_of_ne_zero fun h0 => by simp [(isZero_iff_magUnits w).2 h0] at h

theorem value_eq_zero (w : Word) : value w = 0 ↔ isZero w = true := by
  rw [value_eq_signed, signed_eq_zero, ofUnits_one_eq_zero, isZero_iff_magUnits]

theorem isZero_of_isInf (w : Word) (h : isInf w = true) : isZero w = false := by
  rw [isInf, decide_eq_true_eq] at h
  rw [isZero, h]
  decide

theorem isNaN_of_isZero (w : Word) (h : isZero w = true) : isNaN w = false := by
  rw [isZero, decide_eq_true_eq] at h
  rw [isNaN, h]
  decide

theorem isFinite_of_not_isNaN (w : Word) (h : isNaN w = false) (h' : isInf w = false) :
    isFinite w = true := by
  simp only [isNaN, isInf, isFinite, decide_eq_true_eq, decide_eq_false_iff_not] at *
  omega

theorem eq_withSign_infBits (w : Word) (h : isInf w = true) : withSign (signBit w) infBits = w := by
  rw [isInf, decide_eq_true_eq] at h
  rw [← h, withSign_signBit_magBits]

/-! ### Sum and difference -/

theorem value_negate (w : Word) : value (negate w) = -value w := by
  rw [value_eq_signed, value_eq_signed, signBit_negate, magBits_negate]
  cases signBit w <;> simp

theorem value_add_of_signBit_eq (a b : Word) (hs : signBit a = signBit b) :
    value a + value b =
      signed (signBit a) (ofUnits (magUnits (magBits a) + magUnits (magBits b)) 1) := by
  rw [value_eq_signed a, value_eq_signed b, ← hs, signed_add, ofUnits_add]

theorem value_add_of_signBit_ne (a b : Word) (hs : signBit a ≠ signBit b) :
    value a + value b =
      signed (signBit a)
        (ofUnits (magUnits (magBits a)) 1 - ofUnits (magUnits (magBits b)) 1) := by
  rw [value_eq_signed a, value_eq_signed b, Bool.eq_not_of_ne hs.symm, signed_add_not]

theorem addFinite_roundsTo (a b : Word) (h : value a + value b ≠ 0) :
    RoundsTo (value a + value b) (addFinite a b) := by
  unfold addFinite
  by_cases hs : signBit a = signBit b
  · rw [value_add_of_signBit_eq a b hs] at h ⊢
    rw [Ne, signed_eq_zero, ofUnits_one_eq_zero] at h
    rw [if_pos hs]
    exact round_roundsTo _ _ _ (Nat.pos_of_ne_zero h) one_pos
  · rw [if_neg hs]
    rcases lt_trichotomy (magUnits (magBits a)) (magUnits (magBits b)) with hlt | heq | hgt
    · rw [if_neg hlt.not_gt, if_pos hlt, add_comm, value_add_of_signBit_ne b a (Ne.symm hs),
        ofUnits_sub _ _ hlt.le]
      exact round_roundsTo _ _ _ (Nat.sub_pos_of_lt hlt) one_pos
    · rw [value_add_of_signBit_ne a b hs, heq, sub_self, Ne, signed_eq_zero] at h
      exact absurd rfl h
    · rw [if_pos hgt, value_add_of_signBit_ne a b hs, ofUnits_sub _ _ hgt.le]
      exact round_roundsTo _ _ _ (Nat.sub_pos_of_lt hgt) one_pos

/-- An exact zero is `−0.0` only as the sum of two negative operands. -/
theorem addFinite_of_sum_zero (a b : Word) (h : value a + value b = 0) :
    addFinite a b = if signBit a && signBit b then negZero else posZero := by
  unfold addFinite
  by_cases hs : signBit a = signBit b
  · rw [value_add_of_signBit_eq a b hs, signed_eq_zero, ofUnits_one_eq_zero] at h
    rw [if_pos hs, h, round_zero, ← hs, Bool.and_self]
  · rw [value_add_of_signBit_ne a b hs, signed_eq_zero, sub_eq_zero, ofUnits_one_inj] at h
    rw [if_neg hs, if_neg h.not_gt, if_neg h.not_lt, Bool.eq_not_of_ne hs, Bool.not_and_self]
    rfl

theorem add32_of_isNaN (nan a b : Word) (h : isNaN a = true ∨ isNaN b = true) :
    add32 nan a b = nan := by
  rw [add32, if_pos (by simpa using h)]

theorem add32_of_isFinite (nan a b : Word) (ha : isFinite a = true) (hb : isFinite b = true) :
    add32 nan a b = addFinite a b := by
  simp [add32, isNaN_of_isFinite _ ha, isNaN_of_isFinite _ hb, isInf_of_isFinite _ ha,
    isInf_of_isFinite _ hb]

theorem add32_inf_finite (nan a b : Word) (ha : isInf a = true) (hb : isFinite b = true) :
    add32 nan a b = a := by
  simp [add32, isNaN_of_isInf _ ha, isNaN_of_isFinite _ hb, ha, isInf_of_isFinite _ hb]

theorem add32_finite_inf (nan a b : Word) (ha : isFinite a = true) (hb : isInf b = true) :
    add32 nan a b = b := by
  simp [add32, isNaN_of_isFinite _ ha, isNaN_of_isInf _ hb, isInf_of_isFinite _ ha, hb]

theorem add32_inf_inf (nan a b : Word) (ha : isInf a = true) (hb : isInf b = true) :
    add32 nan a b = if signBit a = signBit b then a else nan := by
  rw [add32, isNaN_of_isInf _ ha, isNaN_of_isInf _ hb, ha, hb]
  by_cases hs : signBit a = signBit b <;> simp [hs]

/-- Settles O24: `addFinite` is the rounding of the exact sum, and `sub32` is `add32` with the
second operand negated. -/
theorem sumAndDifferenceAreIeee : Obligations.SumAndDifferenceAreIeee := by
  intro nan a b
  refine ⟨fun ha hb => ?_, fun h => ?_, fun ha hb => ?_, fun ha hb => ?_, fun ha hb => ?_⟩
  · have hb' : isFinite (negate b) = true := by rwa [isFinite_negate]
    have hsub : value a - value b = value a + value (negate b) := by
      rw [value_negate, sub_eq_add_neg]
    rw [sub32, add32_of_isFinite nan a b ha hb, add32_of_isFinite nan a _ ha hb', hsub,
      ← signBit_negate]
    exact ⟨addFinite_roundsTo a b, addFinite_of_sum_zero a b, addFinite_roundsTo a _,
      addFinite_of_sum_zero a _⟩
  · exact ⟨add32_of_isNaN nan a b h, add32_of_isNaN nan a _ (by rwa [isNaN_negate])⟩
  · exact ⟨add32_inf_finite nan a b ha hb,
      add32_inf_finite nan a _ ha (by rwa [isFinite_negate])⟩
  · exact ⟨add32_finite_inf nan a b ha hb, add32_finite_inf nan a _ ha (by rwa [isInf_negate])⟩
  · rw [sub32, add32_inf_inf nan a b ha hb, add32_inf_inf nan a _ ha (by rwa [isInf_negate]),
      signBit_negate]
    constructor <;> intro hs <;> simp [hs]

/-! ### Product and quotient -/

theorem mul32_of_isNaN (nan a b : Word) (h : isNaN a = true ∨ isNaN b = true) :
    mul32 nan a b = nan := by
  rw [mul32, if_pos (by simpa using h)]

theorem mul32_of_isFinite (nan a b : Word) (ha : isFinite a = true) (hb : isFinite b = true) :
    mul32 nan a b = round (signBit a != signBit b)
      (magUnits (magBits a) * magUnits (magBits b)) (2 ^ 149) := by
  simp [mul32, isNaN_of_isFinite _ ha, isNaN_of_isFinite _ hb, isInf_of_isFinite _ ha,
    isInf_of_isFinite _ hb]

/-- An infinite factor: 0 · infinity is the NaN, any other product an infinity. -/
theorem mul32_of_isInf (nan a b : Word) (ha : isNaN a = false) (hb : isNaN b = false)
    (h : isInf a = true ∨ isInf b = true) :
    mul32 nan a b = if isZero a || isZero b then nan
      else if signBit a != signBit b then negInf else posInf := by
  rw [← withSign_infBits]
  simp [mul32, ha, hb, h]

theorem div32_of_isNaN (nan a b : Word) (h : isNaN a = true ∨ isNaN b = true) :
    div32 nan a b = nan := by
  rw [div32, if_pos (by simpa using h)]

theorem div32_inf_inf (nan a b : Word) (ha : isInf a = true) (hb : isInf b = true) :
    div32 nan a b = nan := by
  simp [div32, ha, hb]

theorem div32_inf_finite (nan a b : Word) (ha : isInf a = true) (hb : isFinite b = true) :
    div32 nan a b = if signBit a != signBit b then negInf else posInf := by
  rw [← withSign_infBits]
  simp [div32, isNaN_of_isInf _ ha, isNaN_of_isFinite _ hb, ha, isInf_of_isFinite _ hb]

theorem div32_finite_inf (nan a b : Word) (ha : isFinite a = true) (hb : isInf b = true) :
    div32 nan a b = if signBit a != signBit b then negZero else posZero := by
  rw [← withSign_zero]
  simp [div32, isNaN_of_isFinite _ ha, isNaN_of_isInf _ hb, isInf_of_isFinite _ ha, hb]

/-- A finite dividend over zero: 0 / 0 is the NaN, any other quotient an infinity. -/
theorem div32_finite_zero (nan a b : Word) (ha : isFinite a = true) (hb : isFinite b = true)
    (h0 : isZero b = true) :
    div32 nan a b = if isZero a then nan
      else if signBit a != signBit b then negInf else posInf := by
  rw [← withSign_infBits]
  simp [div32, isNaN_of_isFinite _ ha, isNaN_of_isFinite _ hb, isInf_of_isFinite _ ha,
    isInf_of_isFinite _ hb, h0]

theorem div32_of_isFinite (nan a b : Word) (ha : isFinite a = true) (hb : isFinite b = true)
    (h0 : isZero b = false) :
    div32 nan a b = round (signBit a != signBit b)
      (magUnits (magBits a) * 2 ^ 149) (magUnits (magBits b)) := by
  simp [div32, isNaN_of_isFinite _ ha, isNaN_of_isFinite _ hb, isInf_of_isFinite _ ha,
    isInf_of_isFinite _ hb, h0]

theorem value_mul (a b : Word) : value a * value b = signed (signBit a != signBit b)
    (ofUnits (magUnits (magBits a) * magUnits (magBits b)) (2 ^ 149)) := by
  rw [value_eq_signed a, value_eq_signed b, signed_mul, ofUnits_mul]

theorem value_div (a b : Word) : value a / value b = signed (signBit a != signBit b)
    (ofUnits (magUnits (magBits a) * 2 ^ 149) (magUnits (magBits b))) := by
  rw [value_eq_signed a, value_eq_signed b, signed_div, ofUnits_div]

theorem mul32_roundsTo (nan a b : Word) (ha : isFinite a = true) (hb : isFinite b = true)
    (h : value a * value b ≠ 0) : RoundsTo (value a * value b) (mul32 nan a b) := by
  rw [mul_ne_zero_iff, Ne, Ne, value_eq_zero, value_eq_zero, Bool.not_eq_true,
    Bool.not_eq_true] at h
  obtain ⟨ha0, hb0⟩ := h
  rw [mul32_of_isFinite nan a b ha hb, value_mul]
  exact round_roundsTo _ _ _ (Nat.mul_pos (magUnits_pos a ha0) (magUnits_pos b hb0))
    (Nat.two_pow_pos _)

theorem mul32_of_product_zero (nan a b : Word) (ha : isFinite a = true) (hb : isFinite b = true)
    (h : value a * value b = 0) :
    mul32 nan a b = if signBit a != signBit b then negZero else posZero := by
  rw [mul_eq_zero, value_eq_zero, value_eq_zero, isZero_iff_magUnits, isZero_iff_magUnits,
    ← Nat.mul_eq_zero] at h
  rw [mul32_of_isFinite nan a b ha hb, h, round_zero]

theorem div32_roundsTo (nan a b : Word) (ha : isFinite a = true) (hb : isFinite b = true)
    (ha0 : isZero a = false) (hb0 : isZero b = false) :
    RoundsTo (value a / value b) (div32 nan a b) := by
  rw [div32_of_isFinite nan a b ha hb hb0, value_div]
  exact round_roundsTo _ _ _ (Nat.mul_pos (magUnits_pos a ha0) (Nat.two_pow_pos _))
    (magUnits_pos b hb0)

theorem div32_zero_finite (nan a b : Word) (ha : isFinite a = true) (hb : isFinite b = true)
    (ha0 : isZero a = true) (hb0 : isZero b = false) :
    div32 nan a b = if signBit a != signBit b then negZero else posZero := by
  rw [div32_of_isFinite nan a b ha hb hb0, (isZero_iff_magUnits a).1 ha0, Nat.zero_mul, round_zero]

/-! ### Division by 1.0 -/

theorem magUnits_lt_overflowUnits (b : Nat) (h : b < infBits) : magUnits b < overflowUnits := by
  have hle := magUnits_strictMono.monotone (Nat.le_sub_one_of_lt h)
  have htop := magUnits_strictMono (show infBits - 1 < infBits by decide)
  have := two_mul_overflowUnits
  omega

/-- A magnitude is rounded to itself. -/
theorem roundUnits_magUnits (b den : Nat) (h : b < infBits) (hd : 0 < den) :
    roundUnits (magUnits b * den) den = b := by
  have hnum : magUnits b * den < overflowUnits * den :=
    Nat.mul_lt_mul_of_pos_right (magUnits_lt_overflowUnits b h) hd
  have hnear := (((roundingIsNearestTiesToEven _ den hd).1 hnum).2 b h).1
  simp only [sub_self, abs_zero, abs_nonpos_iff, sub_eq_zero, Nat.cast_inj] at hnear
  exact magUnits_strictMono.injective (Nat.eq_of_mul_eq_mul_right hd hnear)

theorem magUnits_one : magUnits (magBits one) = 2 ^ 149 := by decide +kernel

theorem div32_one (nan x : Word) (h : isNaN x = false) : div32 nan x one = x := by
  have hone : isFinite one = true ∧ isZero one = false ∧ signBit one = false := by decide
  obtain ⟨hfin, hzero, hsign⟩ := hone
  cases hx : isInf x with
  | true =>
    rw [div32_inf_finite nan x one hx hfin, hsign, Bool.bne_false, ← withSign_infBits,
      eq_withSign_infBits x hx]
  | false =>
    have hx := isFinite_of_not_isNaN x h hx
    rw [div32_of_isFinite nan x one hx hfin hzero, hsign, Bool.bne_false, magUnits_one, round,
      roundUnits_magUnits _ _ (by simpa [isFinite] using hx) (Nat.two_pow_pos _),
      withSign_signBit_magBits]

/-- Settles O26: the finite operands are rounded once, and the other classes of operands have their
clauses above. -/
theorem productAndQuotientAreIeee : Obligations.ProductAndQuotientAreIeee := by
  refine ⟨fun nan a b => ⟨fun ha hb => ?_, fun h => ?_, fun h => ?_, fun h => ?_,
    div32_inf_inf nan a b, div32_inf_finite nan a b, div32_finite_inf nan a b⟩, div32_one⟩
  · refine ⟨mul32_roundsTo nan a b ha hb, mul32_of_product_zero nan a b ha hb,
      div32_roundsTo nan a b ha hb, div32_zero_finite nan a b ha hb, fun ha0 hb0 => ?_,
      fun ha0 hb0 => ?_⟩
    · rw [div32_finite_zero nan a b ha hb hb0, ha0, if_neg Bool.false_ne_true]
    · rw [div32_finite_zero nan a b ha hb hb0, if_pos ha0]
  · exact ⟨mul32_of_isNaN nan a b h, div32_of_isNaN nan a b h⟩
  · rcases h with ⟨ha, hb0⟩ | ⟨ha0, hb⟩
    · rw [mul32_of_isInf nan a b (isNaN_of_isInf a ha) (isNaN_of_isZero b hb0) (.inl ha), hb0,
        Bool.or_true, if_pos rfl]
    · rw [mul32_of_isInf nan a b (isNaN_of_isZero a ha0) (isNaN_of_isInf b hb) (.inr hb), ha0,
        Bool.true_or, if_pos rfl]
  · rcases h with ⟨ha, hb, hb0⟩ | ⟨ha, ha0, hb⟩
    · rw [mul32_of_isInf nan a b (isNaN_of_isInf a ha) hb (.inl ha), isZero_of_isInf a ha, hb0,
        Bool.or_false, if_neg Bool.false_ne_true]
    · rw [mul32_of_isInf nan a b ha (isNaN_of_isInf b hb) (.inr hb), isZero_of_isInf b hb, ha0,
        Bool.or_false, if_neg Bool.false_ne_true]

end Sys2Proof.Binary32
end

section
/-! PROOF. The invariant (10_state.md R155, 40_control.md R407): it holds after reset and every step
keeps it. First what the invariant reads of the state, then the rules for the updates commands are
made of (a store, a new OUT_LEN, a new display size, a configuration, a completion), then the
effects, the commands and the events. -/

namespace Sys2Proof.Machine

/-! ### What the invariant reads -/

/-- The state with every field the invariant does not speak of at its reset value. -/
def State.invariantPart (s : State) : State :=
  { State.resetWith s.params with
    status := { (State.resetWith s.params).status with cfgValid := s.status.cfgValid }
    errCode := s.errCode
    nActive := s.nActive
    rActive := s.rActive
    hop := s.hop
    numBands := s.numBands
    outLen := s.outLen
    dispRows := s.dispRows
    dispW := s.dispW
    mem := s.mem }

theorem State.invariantPart_invariant_iff (s : State) : s.invariantPart.Invariant ↔ s.Invariant :=
  ⟨fun h => ⟨h.legal, h.wf, h.bounds, h.config, h.code, h.outFits, h.outWritten, h.dispFits,
    h.dispWritten⟩, fun h => ⟨h.legal, h.wf, h.bounds, h.config, h.code, h.outFits, h.outWritten,
    h.dispFits, h.dispWritten⟩⟩

theorem State.Invariant.congr {s t : State} (h : s.Invariant)
    (e : t.invariantPart = s.invariantPart) : t.Invariant := by
  rw [← State.invariantPart_invariant_iff] at h ⊢
  rwa [e]

/-- Settles O58: nothing is configured, listed or valid yet. -/
theorem invariantHoldsAtReset : Obligations.InvariantHoldsAtReset := fun p hp => {
  legal := hp
  wf := Memory.empty_wf
  bounds := (Memory.inBounds_iff p Memory.empty).2 fun b c hc => by cases b <;> cases hc
  config := .inl ⟨rfl, rfl, rfl, rfl, rfl, rfl⟩
  code := ⟨.ok, rfl⟩
  outFits := Nat.zero_le _
  outWritten := fun i hi => absurd hi (Nat.not_lt_zero i)
  dispFits := ⟨Nat.zero_le _, Nat.zero_le _⟩
  dispWritten := fun c hc => absurd hc (Nat.not_lt_zero c) }

/-! ### The sizes of a state with the invariant -/

theorem State.Invariant.sizeN_le {s : State} (h : s.Invariant) : s.sizeN ≤ s.params.nMax := by
  obtain ⟨-, hN, -⟩ | ⟨k, j, -, hk, -, -, hN, -⟩ := h.config
  · rw [hN]; exact Nat.zero_le _
  · rw [hN]; exact Nat.pow_le_pow_right (by decide) hk

theorem State.Invariant.bandsM_eq {s : State} (h : s.Invariant) : s.bandsM = s.sizeN / 2 := by
  obtain ⟨-, hN, -, -, hM, -⟩ | ⟨k, j, hk, -, -, -, hN, -, -, hM, -⟩ := h.config
  · rw [hN, hM]
  · rw [hN, hM, Nat.pow_div hk (by decide)]

theorem State.Invariant.half_le {s : State} (h : s.Invariant) : s.sizeN / 2 ≤ s.params.rowLen :=
  Nat.div_le_div_right h.sizeN_le

theorem State.Invariant.bandsM_le {s : State} (h : s.Invariant) : s.bandsM ≤ s.params.rowLen :=
  h.bandsM_eq ▸ h.half_le

/-- The first `n` words of row `c` lie in a buffer of rows (10_state.md R145). -/
theorem rowEnd_le (p : Config.Params) (c n : Nat) (hc : c < p.chunkCap) (hn : n ≤ p.rowLen) :
    c * p.rowLen + n ≤ p.chunkCap * p.rowLen :=
  calc c * p.rowLen + n ≤ c * p.rowLen + p.rowLen := Nat.add_le_add_left hn _
    _ = (c + 1) * p.rowLen := (Nat.succ_mul ..).symm
    _ ≤ p.chunkCap * p.rowLen := Nat.mul_le_mul_right _ hc

/-! ### The updates that keep it -/

theorem State.Invariant.complete {s : State} (h : s.Invariant) (code : ErrCode) :
    (s.complete code).Invariant :=
  { h with code := ⟨code, rfl⟩ }

theorem State.Invariant.succeed {s : State} (h : s.Invariant) : s.succeed.Invariant :=
  (h.complete .ok).congr rfl

/-- No word of WIN is stored by a command or by the host; every other store within its buffer keeps
the invariant. -/
theorem State.Invariant.storeWords {s : State} (h : s.Invariant) (b : BufId) (start : Nat)
    (ws : List Word) (hb : b ≠ .win) (hr : start + ws.length ≤ capacityOf s.params b) :
    (s.storeWords b start ws).Invariant where
  legal := h.legal
  wf := Memory.storeWords_wf _ _ _ _ h.wf
  bounds := Memory.storeWords_inBounds _ _ _ _ _ h.bounds hr
  config := by
    have hwin : (s.mem.storeWords b start ws).win = s.mem.win :=
      Memory.setBuffer_buffer_ne s.mem b .win _ hb.symm
    simpa [State.NeverConfigured, State.ConfiguredAs, hwin] using h.config
  code := h.code
  outFits := h.outFits
  outWritten := fun i hi => s.isSome_readWord_storeWords _ _ _ _ _ (h.outWritten i hi)
  dispFits := h.dispFits
  dispWritten := fun c hc k hk => s.isSome_readWord_storeWords _ _ _ _ _ (h.dispWritten c hc k hk)

/-- Words stored into row `c` of a buffer of rows, from word `k` on. -/
theorem State.Invariant.storeRow {s : State} (h : s.Invariant) (b : BufId) (c k : Nat)
    (ws : List Word) (hb : b = .specRe ∨ b = .specIm ∨ b = .disp) (hc : c < s.params.chunkCap)
    (hn : k + ws.length ≤ s.params.rowLen) : (s.storeWords b (s.rowStart c + k) ws).Invariant := by
  have hend : s.rowStart c + k + ws.length ≤ s.params.chunkCap * s.params.rowLen := by
    rw [Nat.add_assoc]; exact rowEnd_le s.params c _ hc hn
  refine h.storeWords b _ ws ?_ ?_
  · rcases hb with rfl | rfl | rfl <;> decide
  · rcases hb with rfl | rfl | rfl <;> exact hend

theorem State.Invariant.storeSpectrum {s : State} (h : s.Invariant) (c : Nat) (p : Spectrum)
    (hc : c < s.params.chunkCap) (hre : p.re.length ≤ s.params.rowLen)
    (him : p.im.length ≤ s.params.rowLen) : (s.storeSpectrum c p).Invariant :=
  (h.storeRow .specRe c 0 p.re (.inl rfl) hc (by omega)).storeRow .specIm c 0 p.im
    (.inr (.inl rfl)) hc (by simpa using him)

theorem State.Invariant.storeChunk {s : State} (h : s.Invariant) (ws : List Word)
    (hn : ws.length = s.sizeN) : (s.storeWords .chunk 0 ws).Invariant :=
  h.storeWords .chunk 0 ws (by decide) (by rw [Nat.zero_add, hn]; exact h.sizeN_le)

theorem toNat_ofNat_of_le (n cap : Nat) (hn : n ≤ cap) (hcap : cap ≤ 2 ^ 26) :
    (BitVec.ofNat 32 n).toNat = n := by
  rw [BitVec.toNat_ofNat]
  exact Nat.mod_eq_of_lt (by omega)

theorem rowLen_le_of_legal (p : Config.Params) (h : p.Legal) : p.rowLen ≤ 2 ^ 26 := by
  obtain ⟨-, hlog, -⟩ := h
  have hmax : p.nMax ≤ 2 ^ 16 := Nat.pow_le_pow_right (by decide) hlog
  rw [Config.Params.rowLen]
  omega

theorem State.Invariant.setOutLen {s : State} (h : s.Invariant) (n : Nat)
    (hn : n ≤ s.params.outCap) (hw : ∀ p < n, (s.readWord .out p).isSome) :
    ({ s with outLen := BitVec.ofNat 32 n } : State).Invariant := by
  obtain ⟨-, -, -, -, -, -, -, -, hcap⟩ := h.legal
  have hval := toNat_ofNat_of_le n _ hn hcap
  exact { h with
    outFits := hval.trans_le hn
    outWritten := fun p hp => hw p (hp.trans_eq hval) }

theorem State.Invariant.setDisplay {s : State} (h : s.Invariant) (rows width : Nat)
    (hr : rows ≤ s.params.chunkCap) (hwidth : width ≤ s.params.rowLen)
    (hw : ∀ c < rows, ∀ k < width, (s.readWord .disp (s.rowStart c + k)).isSome) :
    ({ s with dispRows := BitVec.ofNat 32 rows, dispW := BitVec.ofNat 32 width } :
      State).Invariant := by
  obtain ⟨-, -, -, -, -, hcap, -⟩ := h.legal
  have hrows := toNat_ofNat_of_le rows _ hr (hcap.trans (by decide))
  have hcols := toNat_ofNat_of_le width _ hwidth (rowLen_le_of_legal _ h.legal)
  exact { h with
    dispFits := ⟨hrows.trans_le hr, hcols.trans_le hwidth⟩
    dispWritten := fun c hc k hk => hw c (hc.trans_eq hrows) k (hk.trans_eq hcols) }

/-! ### CONFIG -/

/-- The powers of two that CONFIG admits (40_control.md R402, R403). -/
theorem legalPower_iff (w : Word) (limit : Nat) :
    legalPower w limit = true ↔ ∃ k, 1 ≤ k ∧ w.toNat = 2 ^ k ∧ 2 ^ k ≤ limit := by
  simp only [legalPower, Bool.and_eq_true, decide_eq_true_eq]
  have hpow : 2 ≤ w.toNat → (w &&& (w - 1#32) = 0#32 ↔ w.toNat.isPowerOfTwo) := fun h2 => by
    rw [← Nat.and_sub_one_eq_zero_iff_isPowerOfTwo (by omega), ← BitVec.toNat_inj,
      BitVec.toNat_and, BitVec.toNat_sub_of_le (by rw [BitVec.le_def]; simp; omega)]
    rfl
  constructor
  · rintro ⟨⟨h2, hle⟩, hand⟩
    obtain ⟨k, hk⟩ := (hpow h2).1 hand
    have hk1 : k ≠ 0 := by rintro rfl; omega
    exact ⟨k, by omega, hk, hk ▸ hle⟩
  · rintro ⟨k, hk1, hk, hle⟩
    have h2 : 2 ≤ w.toNat := hk ▸ Nat.pow_le_pow_right (n := 2) (by decide) hk1
    exact ⟨⟨h2, hk ▸ hle⟩, (hpow h2).2 ⟨k, hk⟩⟩

theorem firstFailure_eq_none_iff (checks : List (Bool × ErrCode)) :
    firstFailure checks = none ↔ ∀ c ∈ checks, c.1 = false := by
  induction checks with
  | nil => simp
  | cons c rest ih => cases hc : c.1 <;> simp [firstFailure, hc, ih]

/-- The configuration an admitted CONFIG makes (40_control.md R404). -/
theorem State.configure_configuredAs (s : State) (h : firstFailure s.configChecks = none) :
    ∃ k j, s.configure.ConfiguredAs k j := by
  simp only [firstFailure_eq_none_iff, State.configChecks, List.forall_mem_cons,
    Bool.not_eq_false', legalPower_iff] at h
  obtain ⟨⟨k, hk, hsize, hmax⟩, ⟨j, hj, hratio, hjk⟩, -⟩ := h
  have hjk : j ≤ k := (Nat.pow_le_pow_iff_right (by decide)).1 (hsize ▸ hjk)
  have hlt : 2 ^ k < 2 ^ 32 := hsize ▸ s.size.isLt
  have hword : ∀ n ≤ 2 ^ k, (BitVec.ofNat 32 n).toNat = n := fun n hn => by
    rw [BitVec.toNat_ofNat]; exact Nat.mod_eq_of_lt (hn.trans_lt hlt)
  refine ⟨k, j, hk, (Nat.pow_le_pow_iff_right (by decide)).1 hmax, hj, hjk, ?_, ?_, ?_, ?_, ?_⟩
  · simp only [State.sizeN, State.configure, hsize]
    exact hword _ le_rfl
  · simp only [State.ratioR, State.configure, hratio]
    exact hword _ (Nat.pow_le_pow_right (by decide) hjk)
  · rw [← Nat.pow_div hjk (by decide)]
    simp only [State.hopH, State.configure, hsize, hratio]
    exact hword _ (Nat.div_le_self ..)
  · rw [show 2 ^ (k - 1) = 2 ^ k / 2 from (Nat.pow_div hk (by decide)).symm]
    simp only [State.bandsM, State.configure, hsize]
    exact hword _ (Nat.div_le_self ..)
  · simp only [State.configure, hsize]

theorem State.Invariant.configure {s : State} (h : s.Invariant)
    (hc : firstFailure s.configChecks = none) : s.configure.Invariant := by
  obtain ⟨k, j, hcfg⟩ := s.configure_configuredAs hc
  have ⟨_, hk, _, _, _, _, _, _, hwin⟩ := hcfg
  obtain ⟨-, hother⟩ := h.wf
  obtain ⟨-, hbounds⟩ := h.bounds
  have hwf : ({ s.mem with win := [] } : Memory).wf := ⟨⟨.nil, by simp⟩, hother⟩
  have hin : ({ s.mem with win := [] } : Memory).InBounds s.params := ⟨by simp, hbounds⟩
  have hmem : s.configure.mem = Memory.storeWords { s.mem with win := [] } .win 0
      (hannWindow (2 ^ k)) := congrArg (fun x => ({ s.mem with win := x } : Memory)) hwin
  exact {
    legal := h.legal
    wf := hmem ▸ Memory.storeWords_wf _ _ _ _ hwf
    bounds := hmem ▸ Memory.storeWords_inBounds _ _ _ _ _ hin
      (by rw [Nat.zero_add, hannWindow_length]; exact Nat.pow_le_pow_right (by decide) hk)
    config := .inr ⟨k, j, hcfg⟩
    code := h.code
    outFits := Nat.zero_le _
    outWritten := fun i hi => absurd hi (Nat.not_lt_zero i)
    dispFits := ⟨Nat.zero_le _, Nat.zero_le _⟩
    dispWritten := fun c hc => absurd hc (Nat.not_lt_zero c) }

/-- A failed CONFIG leaves the configuration of the last successful one in place (R405). -/
theorem State.Invariant.clearCfgValid {s : State} (h : s.Invariant) :
    ({ s with status := { s.status with cfgValid := false } } : State).Invariant :=
  { h with config := h.config.imp (fun ⟨_, hrest⟩ => ⟨rfl, hrest⟩) id }

theorem execConfig_keeps_invariant {s t : State} (h : s.Invariant)
    (ht : execConfig s = .next t) : t.Invariant := by
  unfold execConfig at ht
  cases hc : firstFailure s.configChecks with
  | some code =>
    rw [hc] at ht
    cases ht
    exact h.clearCfgValid.complete code
  | none =>
    rw [hc] at ht
    cases ht
    exact (h.configure hc).succeed

/-! ### The effects -/

/-- The rule for a loop: its rounds change memory alone, so each round starts from the first state
with another memory. -/
theorem forEach_keeps_invariant (body : Nat → State → Except Fault State) (n : Nat) {s t : State}
    (h : s.Invariant) (hmem : ∀ i s t, body i s = .ok t → t = { s with mem := t.mem })
    (hround : ∀ i < n, ∀ m v, ({ s with mem := m } : State).Invariant →
      body i { s with mem := m } = .ok v → v.Invariant)
    (ht : forEach body n s = .ok t) : t.Invariant := by
  refine (forEach_induct body (fun _ u => u.Invariant ∧ u = { s with mem := u.mem }) n s t
    ⟨h, rfl⟩ (fun i hi u v ⟨hu, hum⟩ hv => ?_) ht).1
  have hvm := hmem i u v hv
  rw [hum] at hu hv hvm
  exact ⟨hround i hi _ v hu hv, hvm⟩

/-- A loop whose round `i` writes the `len` words from `start i` on, and unwrites none, writes all
of them. -/
theorem forEach_written (body : Nat → State → Except Fault State) (n : Nat) {s t : State}
    (b : BufId) (start : Nat → Nat) (len : Nat)
    (hmem : ∀ i s t, body i s = .ok t → t = { s with mem := t.mem })
    (hround : ∀ i m v, body i { s with mem := m } = .ok v →
      (∀ k < len, (v.readWord b (start i + k)).isSome) ∧
      ∀ p, (m.readWord b p).isSome → (v.readWord b p).isSome)
    (ht : forEach body n s = .ok t) :
    ∀ i < n, ∀ k < len, (t.readWord b (start i + k)).isSome := by
  refine (forEach_induct body (fun j u => u = { s with mem := u.mem } ∧
    ∀ i < j, ∀ k < len, (u.readWord b (start i + k)).isSome) n s t
    ⟨rfl, fun i hi => absurd hi (Nat.not_lt_zero i)⟩ (fun j _ u v ⟨hum, hu⟩ hv => ?_) ht).2
  have hvm := hmem j u v hv
  rw [hum] at hv hvm
  obtain ⟨hnew, hold⟩ := hround j u.mem v hv
  refine ⟨hvm, fun i hi k hk => ?_⟩
  rcases Nat.lt_succ_iff_lt_or_eq.1 hi with hlt | rfl
  · exact hold _ (hu i hlt k hk)
  · exact hnew k hk

/-- A store writes each of its words. -/
theorem State.isSome_readWord_stored (s : State) (b : BufId) (start k : Nat) (ws : List Word)
    (hk : k < ws.length) : ((s.storeWords b start ws).readWord b (start + k)).isSome := by
  rw [State.readWord_storeWords, if_pos ⟨rfl, by omega, by omega⟩, Nat.add_sub_cancel_left,
    List.getElem?_eq_getElem hk]
  rfl

theorem fwdEffect_keeps_invariant (c : Nat) {s t : State} (h : s.Invariant)
    (hc : c < s.params.chunkCap) (ht : fwdEffect c s = .ok t) : t.Invariant := by
  obtain ⟨x, hx, rfl⟩ := (fwdEffect_ok_iff c s t).1 ht
  obtain ⟨hre, him⟩ := fftForward_length (s.windowed c x)
  rw [State.windowed_length, s.readWords_length _ _ _ _ hx] at hre him
  exact h.storeSpectrum c _ hc (hre.trans_le h.half_le) (him.trans_le h.half_le)

theorem invEffect_keeps_invariant (c : Nat) {s t : State} (h : s.Invariant)
    (ht : invEffect c s = .ok t) : t.Invariant := by
  obtain ⟨p, -, rfl⟩ := (invEffect_ok_iff c s t).1 ht
  exact h.storeChunk _ (s.inverseChunk_length c p)

theorem frameEffect_keeps_invariant (m : Mode) (c : Nat) {s t : State} (h : s.Invariant)
    (ht : frameEffect m c s = .ok t) : t.Invariant := by
  obtain ⟨ws, hws, rfl⟩ := (frameEffect_ok_iff m c s t).1 ht
  exact h.storeChunk ws (frameWords_length m c s ws hws)

theorem analyzeRound_keeps_invariant (m : Mode) (i : Nat) {s t : State} (h : s.Invariant)
    (hi : i < s.params.chunkCap) (ht : analyzeRound m i s = .ok t) : t.Invariant := by
  obtain ⟨u, hu, hfwd⟩ := (analyzeRound_ok_iff m i s t).1 ht
  have hparams : u.params = s.params := by rw [frameEffect_mem_only m i s u hu]
  exact fwdEffect_keeps_invariant i (frameEffect_keeps_invariant m i h hu) (hparams ▸ hi) hfwd

theorem analyzeEffect_keeps_invariant (m : Mode) {s t : State} (h : s.Invariant)
    (hc : s.frameCount m ≤ s.params.chunkCap) (ht : analyzeEffect m s = .ok t) : t.Invariant := by
  obtain ⟨u, hu, rfl⟩ := (analyzeEffect_ok_iff m s t).1 ht
  exact State.Invariant.congr (forEach_keeps_invariant _ _ h (analyzeRound_mem_only m)
    (fun i hi _ _ hm hv => analyzeRound_keeps_invariant m i hm (hi.trans_le hc) hv) hu) rfl

theorem olaClearEffect_keeps_invariant {s : State} (h : s.Invariant)
    (hc : s.olaLength ≤ s.params.outCap) : (olaClearEffect s).Invariant := by
  have hlen : (List.replicate s.olaLength posZero).length = s.olaLength := List.length_replicate
  refine (h.storeWords .out 0 (List.replicate s.olaLength posZero) (by decide)
    (by rw [hlen, Nat.zero_add]; exact hc)).setOutLen s.olaLength hc fun p hp => ?_
  simpa using s.isSome_readWord_stored .out 0 p _ (hlen.symm ▸ hp)

theorem olaAddEffect_keeps_invariant (c : Nat) {s t : State} (h : s.Invariant)
    (hc : c * s.hopH + s.sizeN ≤ s.params.outCap) (ht : olaAddEffect c s = .ok t) :
    t.Invariant := by
  obtain ⟨acc, x, hacc, hx, rfl⟩ := (olaAddEffect_ok_iff c s t).1 ht
  refine h.storeWords .out _ _ (by decide) ?_
  rw [State.accumulate_length, s.readWords_length _ _ _ _ hacc, s.readWords_length _ _ _ _ hx,
    Nat.min_self]
  exact hc

theorem olaScaleEffect_keeps_invariant {s t : State} (h : s.Invariant)
    (ht : olaScaleEffect s = .ok t) : t.Invariant := by
  obtain ⟨acc, hacc, rfl⟩ := (olaScaleEffect_ok_iff s t).1 ht
  refine h.storeWords .out 0 _ (by decide) ?_
  rw [State.rescale_length, s.readWords_length _ _ _ _ hacc, Nat.zero_add]
  exact h.outFits

/-- A round of SYNTH stores N words of OUT from i · N on. -/
theorem synthRound_stores (i : Nat) {s t : State} (ht : synthRound i s = .ok t) :
    ∃ u x, invEffect i s = .ok u ∧ u = { s with mem := u.mem } ∧ x.length = s.sizeN ∧
      t = u.storeWords .out (i * s.sizeN) x := by
  obtain ⟨u, x, hinv, hx, rfl⟩ := (synthRound_ok_iff i s t).1 ht
  have hmem := invEffect_mem_only i s u hinv
  have hN : u.sizeN = s.sizeN := by rw [hmem]; rfl
  exact ⟨u, x, hinv, hmem, hN ▸ u.readWords_length _ _ _ _ hx, by rw [hN]⟩

theorem synthRound_keeps_invariant (i : Nat) {s t : State} (h : s.Invariant)
    (hi : (i + 1) * s.sizeN ≤ s.params.outCap) (ht : synthRound i s = .ok t) : t.Invariant := by
  obtain ⟨u, x, hinv, hmem, hx, rfl⟩ := synthRound_stores i ht
  refine (invEffect_keeps_invariant i h hinv).storeWords .out _ x (by decide) ?_
  have hparams : u.params = s.params := by rw [hmem]
  rw [hx, ← Nat.succ_mul, hparams]
  exact hi

/-- A round of SYNTH writes its N words of OUT and unwrites no word of OUT. -/
theorem synthRound_written (i : Nat) {s t : State} (ht : synthRound i s = .ok t) :
    (∀ k < s.sizeN, (t.readWord .out (i * s.sizeN + k)).isSome) ∧
    ∀ p, (s.readWord .out p).isSome → (t.readWord .out p).isSome := by
  obtain ⟨u, x, hinv, -, hx, rfl⟩ := synthRound_stores i ht
  obtain ⟨p, -, rfl⟩ := (invEffect_ok_iff i s u).1 hinv
  exact ⟨fun k hk => State.isSome_readWord_stored _ _ _ _ _ (hx.symm ▸ hk), fun p hp =>
    State.isSome_readWord_storeWords _ _ _ _ _ _ (s.isSome_readWord_storeWords _ _ _ _ _ hp)⟩

theorem synthEffect_keeps_invariant {s t : State} (h : s.Invariant)
    (hc : s.chunksC * s.sizeN ≤ s.params.outCap) (ht : synthEffect s = .ok t) : t.Invariant := by
  obtain ⟨u, hu, rfl⟩ := (synthEffect_ok_iff s t).1 ht
  have hinv : u.Invariant := forEach_keeps_invariant _ _ h synthRound_mem_only
    (fun i hi _ _ hm hv => synthRound_keeps_invariant i hm
      ((Nat.mul_le_mul_right _ hi).trans hc) hv) hu
  have hwritten := forEach_written synthRound _ .out (· * s.sizeN) s.sizeN synthRound_mem_only
    (fun i _ _ hv => synthRound_written i hv) hu
  have hparams : u.params = s.params := by rw [forEach_mem_only _ synthRound_mem_only _ _ _ hu]
  refine hinv.setOutLen _ (hparams ▸ hc) fun p hp => ?_
  have hN : 0 < s.sizeN := Nat.pos_of_mul_pos_left (Nat.zero_lt_of_lt hp)
  have := hwritten (p / s.sizeN) (Nat.div_lt_of_lt_mul (Nat.mul_comm .. ▸ hp)) (p % s.sizeN)
    (Nat.mod_lt _ hN)
  rwa [Nat.div_add_mod'] at this

theorem synthOlaRound_keeps_invariant (i : Nat) {s t : State} (h : s.Invariant)
    (hi : i * s.hopH + s.sizeN ≤ s.params.outCap) (ht : synthOlaRound i s = .ok t) :
    t.Invariant := by
  obtain ⟨u, hu, hadd⟩ := (synthOlaRound_ok_iff i s t).1 ht
  refine olaAddEffect_keeps_invariant i (invEffect_keeps_invariant i h hu) ?_ hadd
  rw [invEffect_mem_only i s u hu]
  exact hi

theorem synthOlaEffect_keeps_invariant {s t : State} (h : s.Invariant)
    (hc : s.olaLength ≤ s.params.outCap) (ht : synthOlaEffect s = .ok t) : t.Invariant := by
  obtain ⟨u, hu, hscale⟩ := (synthOlaEffect_ok_iff s t).1 ht
  refine olaScaleEffect_keeps_invariant (forEach_keeps_invariant _ _
    (olaClearEffect_keeps_invariant h hc) synthOlaRound_mem_only (fun i hi _ _ hm hv => ?_) hu)
    hscale
  have hend : i * s.hopH + s.sizeN ≤ s.olaLength :=
    Nat.add_le_add_right (Nat.mul_le_mul_right _ hi.le) _
  exact synthOlaRound_keeps_invariant i hm (hend.trans hc) hv

theorem zeroBandRound_keeps_invariant (c : Nat) {s t : State} (h : s.Invariant)
    (hc : c < s.params.chunkCap) (hle : s.bandLo ≤ s.bandHi)
    (hhi : s.bandHi ≤ (s.bandsM : Int)) (ht : zeroBandRound c s = .ok t) : t.Invariant := by
  cases ht
  have hend : s.bandLo.toNat +
      (List.replicate (s.bandHi.toNat - s.bandLo.toNat) posZero).length ≤ s.params.rowLen := by
    have := h.bandsM_le
    rw [List.length_replicate]
    omega
  exact (h.storeRow .specRe c _ _ (.inl rfl) hc hend).storeRow .specIm c _ _
    (.inr (.inl rfl)) hc hend

theorem magRound_stores (c : Nat) {s t : State} (ht : magRound c s = .ok t) :
    ∃ x, x.length = s.bandsM ∧ t = s.storeWords .disp (s.rowStart c) x := by
  obtain ⟨re, im, hre, him, rfl⟩ := (magRound_ok_iff c s t).1 ht
  refine ⟨_, ?_, rfl⟩
  rw [State.magnitudes_length, s.readWords_length _ _ _ _ hre, s.readWords_length _ _ _ _ him,
    Nat.min_self]

theorem magRound_keeps_invariant (c : Nat) {s t : State} (h : s.Invariant)
    (hc : c < s.params.chunkCap) (ht : magRound c s = .ok t) : t.Invariant := by
  obtain ⟨x, hx, rfl⟩ := magRound_stores c ht
  exact h.storeRow .disp c 0 x (.inr (.inr rfl)) hc (by rw [hx, Nat.zero_add]; exact h.bandsM_le)

theorem magEffect_keeps_invariant {s t : State} (h : s.Invariant)
    (hc : s.chunksC ≤ s.params.chunkCap) (ht : magEffect s = .ok t) : t.Invariant := by
  obtain ⟨u, hu, rfl⟩ := (magEffect_ok_iff s t).1 ht
  have hinv : u.Invariant := forEach_keeps_invariant _ _ h magRound_mem_only
    (fun i hi _ _ hm hv => magRound_keeps_invariant i hm (hi.trans_le hc) hv) hu
  have hwritten := forEach_written magRound _ .disp s.rowStart s.bandsM magRound_mem_only
    (fun i m v hv => by
      obtain ⟨x, hx, rfl⟩ := magRound_stores i hv
      exact ⟨fun k hk => State.isSome_readWord_stored _ _ _ _ _ (hx.symm ▸ hk),
        fun p hp => State.isSome_readWord_storeWords _ _ _ _ _ _ hp⟩) hu
  have hparams : u.params = s.params := by rw [forEach_mem_only _ magRound_mem_only _ _ _ hu]
  refine hinv.setDisplay _ _ (hparams ▸ hc) (hparams ▸ h.bandsM_le) fun c hc k hk => ?_
  rw [State.rowStart, hparams]
  exact hwritten c hc k hk

/-- TRIM only narrows the display matrix (45_display.md R655). -/
theorem trimEffect_keeps_invariant {s t : State} (h : s.Invariant) (ht : trimEffect s = .ok t) :
    t.Invariant := by
  obtain ⟨-, rfl⟩ | ⟨last, m, -, -, rfl⟩ := (trimEffect_ok_iff s t).1 ht
  · exact h
  · obtain ⟨hrows, hwidth⟩ := h.dispFits
    have hle : min (m + Config.trimMargin) s.widthW ≤ s.widthW := Nat.min_le_right ..
    have hset := h.setDisplay s.rowsRd _ hrows (hle.trans hwidth)
      fun c hc k hk => h.dispWritten c hc k (hk.trans_le hle)
    rwa [State.rowsRd, BitVec.ofNat_toNat, BitVec.setWidth_eq] at hset

theorem dbRound_keeps_invariant (c : Nat) {s t : State} (h : s.Invariant) (hc : c < s.rowsRd)
    (ht : dbRound c s = .ok t) : t.Invariant := by
  obtain ⟨row, hrow, rfl⟩ := (dbRound_ok_iff c s t).1 ht
  obtain ⟨hrows, hwidth⟩ := h.dispFits
  refine h.storeRow .disp c 0 _ (.inr (.inr rfl)) (hc.trans_le hrows) ?_
  rw [State.decibels_length, s.readWords_length _ _ _ _ hrow, Nat.zero_add]
  exact hwidth

/-! ### The commands -/

/-- The rule for a command of checks and an effect: a failed check records a code alone. -/
theorem runChecked_keeps_invariant {s t : State} (h : s.Invariant)
    {checks : List (Bool × ErrCode)} {effect : State → Except Fault State}
    (ht : s.runChecked checks effect = .next t)
    (heffect : (∀ c ∈ checks, c.1 = false) → ∀ u, effect s = .ok u → u.Invariant) :
    t.Invariant := by
  obtain ⟨code, -, rfl⟩ | ⟨hc, u, hu, rfl⟩ := (s.runChecked_next_iff t checks effect).1 ht
  · exact h.complete code
  · exact (heffect ((firstFailure_eq_none_iff checks).1 hc) u hu).succeed

/-- The checks of OLA_CLEAR, which SYNTH_OLA makes as well (43_ola.md R557). -/
theorem State.passes_olaClear (s : State) (hc : ∀ c ∈ s.olaChecks, c.1 = false) :
    s.Passes .olaClear := by
  show _ ∧ _ ∧ s.olaLength ≤ s.params.outCap
  simpa [State.olaChecks, State.configured, State.chunksFit] using hc

theorem exec_keeps_invariant (i : Instr) {s t : State} (h : s.Invariant)
    (ht : exec i s = .next t) : t.Invariant := by
  cases i with
  | nop =>
    rw [exec, execNop] at ht
    exact runChecked_keeps_invariant h ht fun _ u hu => by cases hu; exact h
  | config => exact execConfig_keeps_invariant h ht
  | fwd c =>
    refine runChecked_keeps_invariant h ht fun hc u hu => ?_
    obtain ⟨-, hrow⟩ : s.Passes (.fwd c) := by simpa [State.Passes, State.configured] using hc
    exact fwdEffect_keeps_invariant c h hrow hu
  | inv c => exact runChecked_keeps_invariant h ht fun _ u hu => invEffect_keeps_invariant c h hu
  | frame m c =>
    exact runChecked_keeps_invariant h ht fun _ u hu => frameEffect_keeps_invariant m c h hu
  | analyze m =>
    refine runChecked_keeps_invariant h ht fun hc u hu => ?_
    obtain ⟨-, -, hrows⟩ : s.Passes (.analyze m) := by
      simpa [State.Passes, State.configured, State.signalFits] using hc
    exact analyzeEffect_keeps_invariant m h hrows hu
  | olaClear =>
    rw [exec, execOlaClear] at ht
    refine runChecked_keeps_invariant h ht fun hc u hu => ?_
    obtain ⟨-, -, hfits⟩ := s.passes_olaClear hc
    cases hu
    exact olaClearEffect_keeps_invariant h hfits
  | olaAdd c =>
    refine runChecked_keeps_invariant h ht fun hc u hu => ?_
    obtain ⟨-, hvalid⟩ : s.Passes (.olaAdd c) := by simpa [State.Passes, State.configured] using hc
    exact olaAddEffect_keeps_invariant c h (hvalid.trans h.outFits) hu
  | olaScale =>
    exact runChecked_keeps_invariant h ht fun _ u hu => olaScaleEffect_keeps_invariant h hu
  | synth =>
    refine runChecked_keeps_invariant h ht fun hc u hu => ?_
    obtain ⟨-, -, hfits⟩ : s.Passes .synth := by
      simpa [State.Passes, State.configured, State.chunksFit] using hc
    exact synthEffect_keeps_invariant h hfits hu
  | synthOla =>
    refine runChecked_keeps_invariant h ht fun hc u hu => ?_
    obtain ⟨-, -, hfits⟩ := s.passes_olaClear hc
    exact synthOlaEffect_keeps_invariant h hfits hu
  | band =>
    rw [exec, execBand] at ht
    exact runChecked_keeps_invariant h ht fun _ u hu => by cases hu; exact h.congr rfl
  | zeroBand =>
    refine runChecked_keeps_invariant h ht fun hc u hu => ?_
    obtain ⟨-, hhi, hle, -, hcap⟩ : s.Passes .zeroBand := by
      simpa [State.Passes, State.zeroBandChecks, State.configured, State.chunksFit] using hc
    exact forEach_keeps_invariant _ _ h zeroBandRound_mem_only (fun i hi _ _ hm hv =>
      zeroBandRound_keeps_invariant i hm (hi.trans_le hcap) hle hhi hv) hu
  | mag =>
    refine runChecked_keeps_invariant h ht fun hc u hu => ?_
    obtain ⟨-, hrows⟩ : s.Passes .mag := by
      simpa [State.Passes, State.configured, State.chunksFit] using hc
    exact magEffect_keeps_invariant h hrows hu
  | trim => exact runChecked_keeps_invariant h ht fun _ u hu => trimEffect_keeps_invariant h hu
  | db =>
    exact runChecked_keeps_invariant h ht fun _ u hu => forEach_keeps_invariant _ _ h
      dbRound_mem_only (fun i hi _ _ hm hv => dbRound_keeps_invariant i hm hi hv) hu

/-! ### The events -/

theorem runCommand_keeps_invariant (w : Word) {s t : State} (h : s.Invariant)
    (ht : runCommand w s = .next t) : t.Invariant := by
  cases hd : decode w with
  | ok i => exact exec_keeps_invariant i h (runCommand_ok w i s hd ▸ ht)
  | error e =>
    rw [runCommand_error w e s hd] at ht
    cases ht
    exact h.complete _

theorem writeCmd_keeps_invariant (w : Word) {s t : State} (h : s.Invariant)
    (ht : writeCmd w s = .next t) : t.Invariant := by
  unfold writeCmd at ht
  split at ht
  · cases ht; exact h.congr rfl
  · have hstart : (s.startCommand w).Invariant := h.congr rfl
    exact runCommand_keeps_invariant w hstart ht

theorem beginCmd_keeps_invariant (w : Word) {s t : State} (h : s.Invariant)
    (ht : beginCmd w s = .next t) : t.Invariant := by
  unfold beginCmd at ht
  split at ht <;> cases ht <;> exact h.congr rfl

theorem finishCmd_keeps_invariant {s t : State} (h : s.Invariant)
    (ht : finishCmd s = .next t) : t.Invariant := by
  unfold finishCmd at ht
  split at ht
  · exact runCommand_keeps_invariant _ h ht
  · cases ht; exact h

/-- No register the host may write is one the invariant speaks of. -/
theorem writeReg_keeps_invariant (r : Reg) (v : Word) {s : State} (h : s.Invariant) :
    (s.writeReg v r).Invariant := by
  cases r <;> exact h.congr rfl

theorem readAccess_keeps_invariant (target : Target) {s t : State} (h : s.Invariant)
    (ht : readAccess target s = .next t) : t.Invariant := by
  unfold readAccess at ht
  repeat' split at ht
  all_goals cases ht; exact h.congr rfl

theorem writeAccess_keeps_invariant (target : Target) (v : Word) {s t : State} (h : s.Invariant)
    (hin : ∀ b i, target = .word b i → i < capacityOf s.params b)
    (ht : writeAccess target v s = .next t) : t.Invariant := by
  unfold writeAccess at ht
  split at ht
  · split at ht
    · exact writeCmd_keeps_invariant v h ht
    · cases ht; exact writeReg_keeps_invariant _ v h
    · cases ht; exact h.congr rfl
  · cases ht; exact h.congr rfl
  · rename_i b i hb
    cases ht
    exact h.storeWords b i [v] (by rintro rfl; exact hb rfl) (hin b i rfl)
  · cases ht; exact h.congr rfl

theorem busyAccess_keeps_invariant (a : Access) {s t : State} (h : s.Invariant)
    (ht : busyAccess a s = .next t) : t.Invariant := by
  cases a with
  | read addr size =>
    unfold busyAccess at ht
    dsimp only at ht
    split at ht
    · split at ht <;> cases ht
      exact h.congr rfl
    · cases ht
    · cases ht; exact h.congr rfl
  | write addr size v =>
    unfold busyAccess at ht
    dsimp only at ht
    split at ht
    · split at ht
      · cases ht; exact writeReg_keeps_invariant _ v h
      · cases ht; exact writeReg_keeps_invariant _ v h
      · exact writeCmd_keeps_invariant v h ht
      · cases ht
    · cases ht
    · cases ht; exact h.congr rfl

theorem hostAccess_keeps_invariant (a : Access) {s t : State} (h : s.Invariant)
    (ht : hostAccess a s = .next t) : t.Invariant := by
  unfold hostAccess at ht
  split at ht
  · exact busyAccess_keeps_invariant a h ht
  · cases a with
    | read addr size => exact readAccess_keeps_invariant _ h ht
    | write addr size v =>
      exact writeAccess_keeps_invariant _ v h (fun b i => targetOf_word _ _ _ b i) ht

theorem handleEvent_keeps_invariant (e : HostEvent) {s t : State} (h : s.Invariant)
    (ht : handleEvent e s = .next t) : t.Invariant := by
  cases e with
  | access a => exact hostAccess_keeps_invariant a h ht
  | start w => exact beginCmd_keeps_invariant w h ht
  | finish => exact finishCmd_keeps_invariant h ht
  | reset =>
    cases ht
    exact (invariantHoldsAtReset s.params h.legal).congr rfl

/-- Settles O59: every event keeps the invariant, and so does the completion of a command in flight
that the step makes where the host sends nothing more. -/
theorem everyStepKeepsInvariant : Obligations.EveryStepKeepsInvariant := by
  intro s t h ht
  cases hs : s.script with
  | nil => exact finishCmd_keeps_invariant h (step_nil s hs ▸ ht)
  | cons e rest =>
    rw [step_cons s e rest hs] at ht
    have hrest : ({ s with script := rest } : State).Invariant := h.congr rfl
    exact handleEvent_keeps_invariant e hrest ht

end Sys2Proof.Machine
end

section
/-! PROOF. What no command writes (10_state.md R110, R115 to R130, R146): the registers of the host,
SIG and the capacities. The part of the state a command leaves alone is one value, `State.keptBy`,
which every effect keeps. -/

namespace Sys2Proof.Machine

/-- CONFIG and ANALYZE write NUM_CHUNKS (10_state.md R121). -/
def writesNumChunks : Instr → Bool
  | .config => true
  | .analyze _ => true
  | _ => false

/-- The state with every field the command may write at its reset value. -/
def State.keptBy (i : Instr) (s : State) : State :=
  { State.resetWith s.params with
    lastCmd := s.lastCmd
    irqEn := s.irqEn
    size := s.size
    overlap := s.overlap
    sigLen := s.sigLen
    numChunks := if writesNumChunks i then 0x00000000#32 else s.numChunks
    sampleRate := s.sampleRate
    freqHz := s.freqHz
    lowerBand := s.lowerBand
    upperBand := s.upperBand
    zeroRef := s.zeroRef
    mem := { Memory.empty with sig := s.mem.sig }
    script := s.script
    reply := s.reply }

section
variable (i : Instr)

/-! ### The updates commands are made of -/

theorem storeWords_keptBy (s : State) (b : BufId) (start : Nat) (ws : List Word) (hb : b ≠ .sig) :
    (s.storeWords b start ws).keptBy i = s.keptBy i := by
  have hsig : (s.mem.storeWords b start ws).sig = s.mem.sig :=
    Memory.setBuffer_buffer_ne s.mem b .sig _ hb.symm
  simp only [State.keptBy, State.storeWords, hsig]

theorem storeSpectrum_keptBy (s : State) (c : Nat) (p : Spectrum) :
    (s.storeSpectrum c p).keptBy i = s.keptBy i :=
  (storeWords_keptBy i _ .specIm _ _ (by decide)).trans
    (storeWords_keptBy i s .specRe _ _ (by decide))

theorem complete_keptBy (s : State) (code : ErrCode) :
    (s.complete code).keptBy i = s.keptBy i := rfl

theorem succeed_keptBy (s : State) : s.succeed.keptBy i = s.keptBy i := rfl

/-- A loop keeps what each of its rounds keeps. -/
theorem forEach_keptBy (body : Nat → State → Except Fault State)
    (hbody : ∀ c u v, body c u = .ok v → v.keptBy i = u.keptBy i) (n : Nat) (s t : State)
    (ht : forEach body n s = .ok t) : t.keptBy i = s.keptBy i :=
  forEach_induct body (fun _ u => u.keptBy i = s.keptBy i) n s t rfl
    (fun c _ u v hu hv => (hbody c u v hv).trans hu) ht

/-- A command of checks and an effect keeps what its effect keeps. -/
theorem runChecked_keptBy {s t : State} {checks : List (Bool × ErrCode)}
    {effect : State → Except Fault State} (ht : s.runChecked checks effect = .next t)
    (heffect : ∀ u, effect s = .ok u → u.keptBy i = s.keptBy i) : t.keptBy i = s.keptBy i := by
  obtain ⟨code, -, rfl⟩ | ⟨-, u, hu, rfl⟩ := (s.runChecked_next_iff t checks effect).1 ht
  · exact complete_keptBy i s code
  · exact (succeed_keptBy i u).trans (heffect u hu)

/-! ### The effects -/

theorem fwdEffect_keptBy (c : Nat) (s t : State) (ht : fwdEffect c s = .ok t) :
    t.keptBy i = s.keptBy i := by
  obtain ⟨x, -, rfl⟩ := (fwdEffect_ok_iff c s t).1 ht
  exact storeSpectrum_keptBy i s c _

theorem invEffect_keptBy (c : Nat) (s t : State) (ht : invEffect c s = .ok t) :
    t.keptBy i = s.keptBy i := by
  obtain ⟨p, -, rfl⟩ := (invEffect_ok_iff c s t).1 ht
  exact storeWords_keptBy i s .chunk _ _ (by decide)

theorem frameEffect_keptBy (m : Mode) (c : Nat) (s t : State) (ht : frameEffect m c s = .ok t) :
    t.keptBy i = s.keptBy i := by
  obtain ⟨ws, -, rfl⟩ := (frameEffect_ok_iff m c s t).1 ht
  exact storeWords_keptBy i s .chunk _ _ (by decide)

theorem analyzeRound_keptBy (m : Mode) (c : Nat) (s t : State) (ht : analyzeRound m c s = .ok t) :
    t.keptBy i = s.keptBy i := by
  obtain ⟨u, hframe, hfwd⟩ := (analyzeRound_ok_iff m c s t).1 ht
  exact (fwdEffect_keptBy i c u t hfwd).trans (frameEffect_keptBy i m c s u hframe)

/-- ANALYZE writes NUM_CHUNKS, which is none of the fields it keeps. -/
theorem analyzeEffect_keptBy (m : Mode) (s t : State) (ht : analyzeEffect m s = .ok t) :
    t.keptBy (.analyze m) = s.keptBy (.analyze m) := by
  obtain ⟨u, hu, rfl⟩ := (analyzeEffect_ok_iff m s t).1 ht
  exact forEach_keptBy (.analyze m) _ (analyzeRound_keptBy _ m) _ s u hu

theorem olaClearEffect_keptBy (s : State) : (olaClearEffect s).keptBy i = s.keptBy i :=
  storeWords_keptBy i s .out _ _ (by decide)

theorem olaAddEffect_keptBy (c : Nat) (s t : State) (ht : olaAddEffect c s = .ok t) :
    t.keptBy i = s.keptBy i := by
  obtain ⟨acc, x, -, -, rfl⟩ := (olaAddEffect_ok_iff c s t).1 ht
  exact storeWords_keptBy i s .out _ _ (by decide)

theorem olaScaleEffect_keptBy (s t : State) (ht : olaScaleEffect s = .ok t) :
    t.keptBy i = s.keptBy i := by
  obtain ⟨acc, -, rfl⟩ := (olaScaleEffect_ok_iff s t).1 ht
  exact storeWords_keptBy i s .out _ _ (by decide)

theorem synthRound_keptBy (c : Nat) (s t : State) (ht : synthRound c s = .ok t) :
    t.keptBy i = s.keptBy i := by
  obtain ⟨u, x, hinv, -, rfl⟩ := (synthRound_ok_iff c s t).1 ht
  exact (storeWords_keptBy i u .out _ _ (by decide)).trans (invEffect_keptBy i c s u hinv)

theorem synthEffect_keptBy (s t : State) (ht : synthEffect s = .ok t) :
    t.keptBy i = s.keptBy i := by
  obtain ⟨u, hu, rfl⟩ := (synthEffect_ok_iff s t).1 ht
  exact forEach_keptBy i _ (synthRound_keptBy i) _ s u hu

theorem synthOlaRound_keptBy (c : Nat) (s t : State) (ht : synthOlaRound c s = .ok t) :
    t.keptBy i = s.keptBy i := by
  obtain ⟨u, hinv, hadd⟩ := (synthOlaRound_ok_iff c s t).1 ht
  exact (olaAddEffect_keptBy i c u t hadd).trans (invEffect_keptBy i c s u hinv)

theorem synthOlaEffect_keptBy (s t : State) (ht : synthOlaEffect s = .ok t) :
    t.keptBy i = s.keptBy i := by
  obtain ⟨u, hu, hscale⟩ := (synthOlaEffect_ok_iff s t).1 ht
  calc t.keptBy i = u.keptBy i := olaScaleEffect_keptBy i u t hscale
    _ = (olaClearEffect s).keptBy i := forEach_keptBy i _ (synthOlaRound_keptBy i) _ _ u hu
    _ = s.keptBy i := olaClearEffect_keptBy i s

theorem zeroBandRound_keptBy (c : Nat) (s t : State) (ht : zeroBandRound c s = .ok t) :
    t.keptBy i = s.keptBy i := by
  cases ht
  exact (storeWords_keptBy i _ .specIm _ _ (by decide)).trans
    (storeWords_keptBy i s .specRe _ _ (by decide))

theorem magRound_keptBy (c : Nat) (s t : State) (ht : magRound c s = .ok t) :
    t.keptBy i = s.keptBy i := by
  obtain ⟨re, im, -, -, rfl⟩ := (magRound_ok_iff c s t).1 ht
  exact storeWords_keptBy i s .disp _ _ (by decide)

theorem magEffect_keptBy (s t : State) (ht : magEffect s = .ok t) : t.keptBy i = s.keptBy i := by
  obtain ⟨u, hu, rfl⟩ := (magEffect_ok_iff s t).1 ht
  exact forEach_keptBy i _ (magRound_keptBy i) _ s u hu

theorem trimEffect_keptBy (s t : State) (ht : trimEffect s = .ok t) : t.keptBy i = s.keptBy i := by
  obtain ⟨-, rfl⟩ | ⟨last, m, -, -, rfl⟩ := (trimEffect_ok_iff s t).1 ht <;> rfl

theorem dbRound_keptBy (c : Nat) (s t : State) (ht : dbRound c s = .ok t) :
    t.keptBy i = s.keptBy i := by
  obtain ⟨row, -, rfl⟩ := (dbRound_ok_iff c s t).1 ht
  exact storeWords_keptBy i s .disp _ _ (by decide)

end

/-! ### The commands -/

/-- CONFIG writes NUM_CHUNKS, which is none of the fields it keeps, and of memory WIN alone. -/
theorem execConfig_keptBy (s t : State) (ht : execConfig s = .next t) :
    t.keptBy .config = s.keptBy .config := by
  unfold execConfig at ht
  split at ht <;> cases ht <;> rfl

theorem exec_keptBy (i : Instr) (s t : State) (ht : exec i s = .next t) :
    t.keptBy i = s.keptBy i := by
  cases i with
  | nop =>
    rw [exec, execNop] at ht
    exact runChecked_keptBy _ ht fun u hu => by cases hu; rfl
  | config => exact execConfig_keptBy s t ht
  | fwd c => exact runChecked_keptBy _ ht (fwdEffect_keptBy _ c s)
  | inv c => exact runChecked_keptBy _ ht (invEffect_keptBy _ c s)
  | frame m c => exact runChecked_keptBy _ ht (frameEffect_keptBy _ m c s)
  | analyze m => exact runChecked_keptBy _ ht (analyzeEffect_keptBy m s)
  | olaClear =>
    rw [exec, execOlaClear] at ht
    exact runChecked_keptBy _ ht fun u hu => by cases hu; exact olaClearEffect_keptBy _ s
  | olaAdd c => exact runChecked_keptBy _ ht (olaAddEffect_keptBy _ c s)
  | olaScale => exact runChecked_keptBy _ ht (olaScaleEffect_keptBy _ s)
  | synth => exact runChecked_keptBy _ ht (synthEffect_keptBy _ s)
  | synthOla => exact runChecked_keptBy _ ht (synthOlaEffect_keptBy _ s)
  | band =>
    rw [exec, execBand] at ht
    exact runChecked_keptBy _ ht fun u hu => by cases hu; rfl
  | zeroBand =>
    exact runChecked_keptBy _ ht fun u => forEach_keptBy _ _ (zeroBandRound_keptBy _) _ s u
  | mag => exact runChecked_keptBy _ ht (magEffect_keptBy _ s)
  | trim => exact runChecked_keptBy _ ht (trimEffect_keptBy _ s)
  | db => exact runChecked_keptBy _ ht fun u => forEach_keptBy _ _ (dbRound_keptBy _) _ s u

/-- Settles O14: SIG is in the part of the state every command keeps. -/
theorem noCommandWritesSignal : Obligations.NoCommandWritesSignal := by
  intro i s t ht
  have kept := congrArg (fun u : State => u.mem.sig) (exec_keptBy i s t ht)
  exact kept

theorem writesNumChunks_eq_false (i : Instr) (hconfig : i ≠ .config)
    (hanalyze : ∀ m, i ≠ .analyze m) : writesNumChunks i = false := by
  cases i with
  | config => exact absurd rfl hconfig
  | analyze m => exact absurd rfl (hanalyze m)
  | _ => rfl

/-- Settles O15: each of these registers is in the part of the state every command keeps, NUM_CHUNKS
for the commands other than CONFIG and ANALYZE. -/
theorem noCommandWritesHostRegisters : Obligations.NoCommandWritesHostRegisters := by
  intro i s t ht
  have kept {α : Type} (field : State → α) : field (t.keptBy i) = field (s.keptBy i) :=
    congrArg field (exec_keptBy i s t ht)
  refine ⟨kept State.params, kept State.irqEn, kept State.lastCmd, kept State.size,
    kept State.overlap, kept State.sigLen, kept State.sampleRate, kept State.freqHz,
    kept State.lowerBand, kept State.upperBand, kept State.zeroRef, kept State.script,
    kept State.reply, fun ⟨hconfig, hanalyze⟩ => ?_⟩
  have hchunks := kept State.numChunks
  simpa only [State.keptBy, writesNumChunks_eq_false i hconfig hanalyze, Bool.false_eq_true,
    if_false] using hchunks

end Sys2Proof.Machine
end

section
/-! PROOF. Commands through CMD (10_state.md R106), the register map through the port (R103 to R140)
and what reset leaves (R155). Each register has one offset; reads and writes at an offset then follow
from `State.readReg` and `State.writeReg`. -/

namespace Sys2Proof

/-! ### A command's word decodes to the command -/

theorem Instr.opcode_lt (i : Instr) : i.opcode < 2 ^ 8 := by cases i <;> simp [Instr.opcode]

theorem Instr.modeBit_le (i : Instr) : i.modeBit ≤ 1 := by
  have hbit : ∀ m : Mode, m.bit ≤ 1 := fun m => by cases m <;> decide
  cases i with
  | frame m c => exact hbit m
  | analyze m => exact hbit m
  | _ => exact Nat.zero_le 1

theorem encode_toNat (i : Instr) (h : i.WellFormed) :
    (encode i).toNat = i.idx * 2 ^ 16 + i.modeBit * 2 ^ 8 + i.opcode := by
  have hopcode := i.opcode_lt
  have hmode := i.modeBit_le
  have hidx : i.idx < 2 ^ 16 := h
  rw [encode, BitVec.toNat_ofNat]
  exact Nat.mod_eq_of_lt (by omega)

theorem opcField_encode (i : Instr) (h : i.WellFormed) : opcField (encode i) = i.opcode := by
  have hopcode := i.opcode_lt
  rw [opcField, encode_toNat i h]
  omega

theorem idxField_encode (i : Instr) (h : i.WellFormed) : idxField (encode i) = i.idx := by
  have hopcode := i.opcode_lt
  have hmode := i.modeBit_le
  rw [idxField, encode_toNat i h]
  omega

theorem modeField_encode (i : Instr) (h : i.WellFormed) (m : Mode) (hm : i.modeBit = m.bit) :
    modeField (encode i) = m := by
  have hopcode := i.opcode_lt
  have hbit : (encode i).toNat / 2 ^ 8 % 2 = m.bit := by
    have hmode := i.modeBit_le
    rw [encode_toNat i h, ← hm]
    omega
  rw [modeField, hbit]
  cases m <;> rfl

theorem formatI_encode (i : Instr) (h : i.WellFormed) (f : Nat → Instr) (hm : i.modeBit = 0) :
    formatI (encode i) f = .ok (f i.idx) := by
  have hopcode := i.opcode_lt
  rw [formatI, idxField_encode i h, if_pos (by rw [encode_toNat i h]; omega)]

theorem formatMI_encode (i : Instr) (h : i.WellFormed) (f : Mode → Nat → Instr) (m : Mode)
    (hm : i.modeBit = m.bit) : formatMI (encode i) f = .ok (f m i.idx) := by
  have hopcode := i.opcode_lt
  have hmode := i.modeBit_le
  rw [formatMI, idxField_encode i h, modeField_encode i h m hm,
    if_pos (by rw [encode_toNat i h]; omega)]

/-- The decoder reads the command its word was made from (30_encoding.md R307). The words of formats
Z and MZ are constants; formats I and MI carry the chunk index. -/
theorem decode_encode (i : Instr) (h : i.WellFormed) : decode (encode i) = .ok i := by
  cases i with
  | fwd c =>
    simp only [decode, opcField_encode _ h, Instr.opcode]
    exact formatI_encode _ h .fwd rfl
  | inv c =>
    simp only [decode, opcField_encode _ h, Instr.opcode]
    exact formatI_encode _ h .inv rfl
  | olaAdd c =>
    simp only [decode, opcField_encode _ h, Instr.opcode]
    exact formatI_encode _ h .olaAdd rfl
  | frame m c =>
    simp only [decode, opcField_encode _ h, Instr.opcode]
    exact formatMI_encode _ h .frame m rfl
  | analyze m => cases m <;> rfl
  | _ => rfl

end Sys2Proof

namespace Sys2Proof.Machine

/-- A step that takes a CMD write runs the decoded command (R705). -/
theorem step_cmd (w : Word) (i : Instr) (s : State) (rest : List HostEvent)
    (hscript : s.script = issueEvent w :: rest) (hbusy : s.status.busy = false)
    (hw : decode w = .ok i) :
    step s = exec i (State.startCommand { s with script := rest } w) := by
  rw [step_cons s _ rest hscript]
  exact (hostAccess_cmd w { s with script := rest } hbusy).trans (runCommand_ok w i _ hw)

/-- Settles O6: `withFetchWord` places a CMD write and clears BUSY, so its step is one that takes a
CMD write. -/
theorem stepRunsIssuedCommand : Obligations.StepRunsIssuedCommand := by
  refine ⟨fun w i s rest hscript hbusy hw => step_cmd w i s rest hscript hbusy hw,
    fun i s h => ?_⟩
  refine step_cmd (encode i) i (s.withFetchWord 32 (encode i).toNat) s.script ?_ rfl
    (decode_encode i h)
  have hword : BitVec.ofNat 32 ((encode i).toNat % 2 ^ 32) = encode i := by
    rw [Nat.mod_eq_of_lt (encode i).isLt, BitVec.ofNat_toNat, BitVec.setWidth_eq]
  rw [State.withFetchWord, hword]

/-! ### The offsets of the registers -/

/-- The offset of a register (10_state.md section 3). -/
def Reg.offset : Reg → Nat
  | .id => 0x000
  | .version => 0x004
  | .cmd => 0x008
  | .status => 0x00C
  | .errCode => 0x010
  | .lastCmd => 0x014
  | .irqEn => 0x018
  | .size => 0x020
  | .overlap => 0x024
  | .nActive => 0x028
  | .rActive => 0x02C
  | .hop => 0x030
  | .numBands => 0x034
  | .sigLen => 0x040
  | .numChunks => 0x044
  | .outLen => 0x048
  | .sampleRate => 0x050
  | .freqHz => 0x054
  | .bandIdx => 0x058
  | .lowerBand => 0x05C
  | .upperBand => 0x060
  | .zeroRef => 0x070
  | .trimEps => 0x074
  | .trimMargin => 0x078
  | .dispRows => 0x07C
  | .dispW => 0x080
  | .capLog2NMax => 0x0F0
  | .capSig => 0x0F4
  | .capChunk => 0x0F8
  | .capOut => 0x0FC

theorem Reg.ofOffset_offset (r : Reg) : Reg.ofOffset r.offset = some r := by cases r <;> rfl

theorem Reg.offset_of_ofOffset (off : Nat) (r : Reg) (h : Reg.ofOffset off = some r) :
    off = r.offset := by
  unfold Reg.ofOffset at h
  split at h <;> cases h <;> rfl

theorem Reg.offset_aligned (r : Reg) : r.offset < 0x1000 ∧ r.offset % 4 = 0 := by
  cases r <;> decide

/-- An aligned address of region 0 names the register offset that it is (20_memory.md R201). -/
theorem targetOf_offset (p : Config.Params) (off : Nat) (hlt : off < 0x1000) (hal : off % 4 = 0) :
    targetOf p (BitVec.ofNat 32 off) 4 = .reg off := by
  have hval : (BitVec.ofNat 32 off).toNat = off := by
    rw [BitVec.toNat_ofNat]
    exact Nat.mod_eq_of_lt (by omega)
  rw [targetOf, hval, if_neg (by omega), if_pos (by omega), if_pos (by omega),
    Nat.mod_eq_of_lt (by omega)]

/-! ### Reads and writes of registers -/

theorem hostAccess_read_reg (s : State) (r : Reg) (h : s.status.busy = false) :
    hostAccess (.read (BitVec.ofNat 32 r.offset) 4) s = .next (s.answer (s.readReg r)) := by
  obtain ⟨hlt, hal⟩ := r.offset_aligned
  simp [hostAccess, h, targetOf_offset s.params _ hlt hal, readAccess, r.ofOffset_offset]

theorem hostAccess_read_reserved (s : State) (off : Nat) (h : s.status.busy = false)
    (hlt : off < 0x1000) (hal : off % 4 = 0) (hres : Reg.ofOffset off = none) :
    hostAccess (.read (BitVec.ofNat 32 off) 4) s = .next (s.answer 0x00000000#32) := by
  simp [hostAccess, h, targetOf_offset s.params _ hlt hal, readAccess, hres]

theorem hostAccess_write_reg (s : State) (r : Reg) (v : Word) (h : s.status.busy = false)
    (hr : r ≠ .cmd) :
    hostAccess (.write (BitVec.ofNat 32 r.offset) 4 v) s = .next (s.writeReg v r) := by
  obtain ⟨hlt, hal⟩ := r.offset_aligned
  simp [hostAccess, h, targetOf_offset s.params _ hlt hal, writeAccess, r.ofOffset_offset]

/-- The registers in the order of their offsets. -/
def Reg.all : List Reg :=
  [.id, .version, .cmd, .status, .errCode, .lastCmd, .irqEn, .size, .overlap, .nActive, .rActive,
    .hop, .numBands, .sigLen, .numChunks, .outLen, .sampleRate, .freqHz, .bandIdx, .lowerBand,
    .upperBand, .zeroRef, .trimEps, .trimMargin, .dispRows, .dispW, .capLog2NMax, .capSig,
    .capChunk, .capOut]

theorem Reg.mem_all (r : Reg) : r ∈ Reg.all := by cases r <;> decide

/-- The RW registers whose every bit a host write stores (R103). -/
def Reg.stored : List Reg :=
  [.size, .overlap, .sigLen, .numChunks, .sampleRate, .freqHz, .lowerBand, .upperBand, .zeroRef]

/-- A host write to one of them leaves STATUS as it is and reads back. -/
theorem writeReg_stored (s : State) (v : Word) (r : Reg) (h : r ∈ Reg.stored) :
    r ≠ .cmd ∧ (s.writeReg v r).status = s.status ∧ (s.writeReg v r).readReg r = v := by
  simp only [Reg.stored, List.mem_cons, List.not_mem_nil, or_false] at h
  rcases h with rfl | rfl | rfl | rfl | rfl | rfl | rfl | rfl | rfl <;>
    exact ⟨by decide, rfl, rfl⟩

/-! ### The bits of STATUS and IRQ_EN -/

theorem Status.toWord_eq (st : Status) : st.toWord =
    (BitVec.ofBoolListLE [st.busy, st.done, st.err, st.cfgValid, st.ovr, st.accErr]).setWidth 32 :=
  have hall : ∀ b d e c o a : Bool, (Status.mk b d e c o a).toWord =
      (BitVec.ofBoolListLE [b, d, e, c, o, a]).setWidth 32 := by decide
  hall ..

theorem IrqEnable.toWord_eq (e : IrqEnable) : e.toWord =
    (BitVec.ofBoolListLE [e.doneIe, e.errIe, e.faultIe]).setWidth 32 :=
  have hall : ∀ d r f : Bool, (IrqEnable.mk d r f).toWord =
      (BitVec.ofBoolListLE [d, r, f]).setWidth 32 := by decide
  hall ..

/-- A word of at most 32 listed bits, the others 0. -/
theorem getLsbD_setWidth_ofBoolListLE (bs : List Bool) (hlen : bs.length ≤ 32) (i : Nat) :
    ((BitVec.ofBoolListLE bs).setWidth 32).getLsbD i = bs.getD i false := by
  rw [BitVec.getLsbD_setWidth, BitVec.getLsbD_ofBoolListLE]
  by_cases hi : i < 32
  · simp [hi]
  · rw [List.getD_eq_default _ _ (by omega), Bool.and_false]

theorem Status.getLsbD_toWord (st : Status) (i : Nat) : st.toWord.getLsbD i =
    [st.busy, st.done, st.err, st.cfgValid, st.ovr, st.accErr].getD i false := by
  rw [st.toWord_eq]
  exact getLsbD_setWidth_ofBoolListLE _ (by simp) i

theorem IrqEnable.getLsbD_toWord (e : IrqEnable) (i : Nat) : e.toWord.getLsbD i =
    [e.doneIe, e.errIe, e.faultIe].getD i false := by
  rw [e.toWord_eq]
  exact getLsbD_setWidth_ofBoolListLE _ (by simp) i

/-- An acknowledgment clears DONE, ERR, OVR and ACCERR where the word has a 1 (R107). -/
theorem Status.toWord_acknowledge (st : Status) (v : Word) :
    (st.acknowledge v).toWord = st.toWord &&& ~~~(v &&& 0x00000036#32) := by
  refine BitVec.eq_of_getLsbD_eq fun i hi => ?_
  rw [BitVec.getLsbD_and, BitVec.getLsbD_not, BitVec.getLsbD_and, Status.getLsbD_toWord,
    Status.getLsbD_toWord]
  match i with
  | 0 | 1 | 2 | 3 | 4 | 5 => simp [Status.acknowledge, flagOf]
  | i + 6 => simp

theorem IrqEnable.toWord_ofWord (v : Word) :
    (IrqEnable.ofWord v).toWord = v &&& 0x00000007#32 := by
  refine BitVec.eq_of_getLsbD_eq fun i hi => ?_
  have hmask : ∀ i < 32, (0x00000007#32).getLsbD i = decide (i < 3) := by decide
  rw [BitVec.getLsbD_and, IrqEnable.getLsbD_toWord, hmask i hi]
  match i with
  | 0 | 1 | 2 => simp [IrqEnable.ofWord, flagOf]
  | i + 3 => simp

/-- Settles O56: the table of the statement is the list of all registers with their offsets and
values, and its RW registers are those that store every bit. -/
theorem registerMap : Obligations.RegisterMap := by
  intro s h map writes
  have hmap : map = Reg.all.map fun r => (r.offset, s.readReg r) := rfl
  have hwrites : ∀ v, writes v = Reg.stored.map fun r => (r.offset, s.writeReg v r) :=
    fun _ => rfl
  refine ⟨fun e he => ?_, fun off hlt hal hoff => ?_, s.status.getLsbD_toWord,
    s.irqEn.getLsbD_toWord, fun v => ⟨fun e he => ?_, ?_, ?_⟩⟩
  · rw [hmap] at he
    obtain ⟨r, -, rfl⟩ := List.mem_map.1 he
    exact hostAccess_read_reg s r h
  · refine hostAccess_read_reserved s off h hlt hal ?_
    by_contra hreg
    obtain ⟨r, hr⟩ := Option.ne_none_iff_exists'.1 hreg
    rw [hmap, List.map_map] at hoff
    exact hoff (Reg.offset_of_ofOffset off r hr ▸ List.mem_map_of_mem (Reg.mem_all r))
  · rw [hwrites] at he
    obtain ⟨r, hr, rfl⟩ := List.mem_map.1 he
    obtain ⟨hcmd, hstatus, hback⟩ := writeReg_stored s v r hr
    refine ⟨hostAccess_write_reg s r v h hcmd, ?_⟩
    rw [hostAccess_read_reg _ r (hstatus ▸ h), hback]
    rfl
  · exact ⟨_, hostAccess_write_reg s .irqEn v h (by decide), rfl, IrqEnable.toWord_ofWord v⟩
  · exact ⟨_, hostAccess_write_reg s .status v h (by decide), rfl, s.status.toWord_acknowledge v⟩

/-! ### Reset -/

theorem resetWith_readWord (p : Config.Params) (b : BufId) (i : Nat) :
    (State.resetWith p).readWord b i = if b = .win then some posZero else none := by
  cases b <;> rfl

/-- Settles O57: the reset state is written out in the model, and the reset event gives it. -/
theorem resetValues : Obligations.ResetValues := by
  refine ⟨fun p r => ?_, resetWith_readWord, fun p => rfl, fun s rest hs => ?_⟩
  · cases r <;> rfl
  · rw [step_cons s .reset rest hs]
    rfl

end Sys2Proof.Machine
end

section
/-! PROOF. The host's port with no command in flight (20_memory.md R201 to R207): the address map
both ways, a write of one word, reads without side effects and the writes that are not admitted. The
map is said once per kind of target, and every access goes through it. -/

namespace Sys2Proof.Machine

/-! ### Regions -/

theorem BufId.region_bounds (b : BufId) : 1 ≤ b.region ∧ b.region ≤ 7 := by cases b <;> decide

theorem BufId.ofRegion_region (b : BufId) : BufId.ofRegion b.region = some b := by cases b <;> rfl

theorem BufId.region_of_ofRegion (n : Nat) (b : BufId) (h : BufId.ofRegion n = some b) :
    n = b.region := by
  unfold BufId.ofRegion at h
  split at h <;> cases h <;> rfl

theorem BufId.ofRegion_eq_some_iff (n : Nat) (b : BufId) :
    BufId.ofRegion n = some b ↔ n = b.region :=
  ⟨BufId.region_of_ofRegion n b, fun h => h ▸ b.ofRegion_region⟩

theorem BufId.ofRegion_of_region_ge (n : Nat) (h : 8 ≤ n) : BufId.ofRegion n = none := by
  refine Option.eq_none_iff_forall_ne_some.2 fun b hb => ?_
  have hn := BufId.region_of_ofRegion n b hb
  have := b.region_bounds
  omega

/-- The buffers in the order of their regions. -/
def BufId.all : List BufId := [.win, .chunk, .sig, .specRe, .specIm, .out, .disp]

theorem BufId.mem_all (b : BufId) : b ∈ BufId.all := by cases b <;> decide

/-- The only regions below 8 are region 0 and those of the buffers. -/
theorem BufId.exists_region (n : Nat) (h0 : n ≠ 0) (h8 : n < 8) : ∃ b : BufId, n = b.region := by
  have hall : ∀ n < 8, n ≠ 0 → ∃ b ∈ BufId.all, n = b.region := by decide
  obtain ⟨b, -, hb⟩ := hall n h8 h0
  exact ⟨b, hb⟩

/-- Every word index of a buffer fits addr[27:2] (00_scope.md R8). -/
theorem capacityOf_le_of_legal (p : Config.Params) (h : p.Legal) (b : BufId) :
    capacityOf p b ≤ 2 ^ 26 := by
  obtain ⟨-, -, -, hsig, -, -, hrows, hmax, hout⟩ := h
  cases b with
  | win | chunk => exact hmax.trans hout
  | sig => exact hsig
  | specRe | specIm | disp => exact hrows
  | out => exact hout

/-! ### The address map -/

theorem addrIndex_eq (addr : Word) : addrIndex addr = addr.toNat % 2 ^ 28 / 4 := by
  unfold addrIndex
  omega

theorem targetOf_of_misaligned (p : Config.Params) (addr : Word) (size : Nat)
    (h : size ≠ 4 ∨ addr.toNat % 4 ≠ 0) : targetOf p addr size = .nothing := by
  rw [targetOf, if_pos h]

theorem targetOf_region_zero (p : Config.Params) (addr : Word) (hal : addr.toNat % 4 = 0)
    (h : addr.toNat / 2 ^ 28 = 0) :
    targetOf p addr 4 = if addr.toNat < 2 ^ 12 then .reg addr.toNat else .nothing := by
  rw [targetOf, if_neg (by omega), if_pos h]
  by_cases hlt : addr.toNat < 2 ^ 12
  · rw [if_pos (by omega), if_pos hlt, Nat.mod_eq_of_lt hlt]
  · rw [if_neg (by omega), if_neg hlt]

theorem targetOf_buffer (p : Config.Params) (addr : Word) (b : BufId) (hal : addr.toNat % 4 = 0)
    (h : addr.toNat / 2 ^ 28 = b.region) :
    targetOf p addr 4 = if addr.toNat % 2 ^ 28 / 4 < capacityOf p b
      then .word b (addr.toNat % 2 ^ 28 / 4) else .nothing := by
  have hpos := b.region_bounds.1
  rw [targetOf, if_neg (by omega), if_neg (by omega), h, b.ofRegion_region, addrIndex_eq]

theorem targetOf_region_ge (p : Config.Params) (addr : Word) (size : Nat)
    (h : 8 ≤ addr.toNat / 2 ^ 28) : targetOf p addr size = .nothing := by
  by_cases hal : size ≠ 4 ∨ addr.toNat % 4 ≠ 0
  · exact targetOf_of_misaligned p addr size hal
  · rw [targetOf, if_neg hal, if_neg (by omega), BufId.ofRegion_of_region_ge _ h]

/-- The four kinds of access of R201 and R205. -/
theorem access_cases (addr : Word) (size : Nat) :
    (size ≠ 4 ∨ addr.toNat % 4 ≠ 0) ∨ 8 ≤ addr.toNat / 2 ^ 28 ∨
    (size = 4 ∧ addr.toNat % 4 = 0 ∧ addr.toNat / 2 ^ 28 = 0) ∨
    ∃ b : BufId, size = 4 ∧ addr.toNat % 4 = 0 ∧ addr.toNat / 2 ^ 28 = b.region := by
  by_cases hal : size ≠ 4 ∨ addr.toNat % 4 ≠ 0
  · exact .inl hal
  by_cases h8 : 8 ≤ addr.toNat / 2 ^ 28
  · exact .inr (.inl h8)
  by_cases h0 : addr.toNat / 2 ^ 28 = 0
  · exact .inr (.inr (.inl ⟨by omega, by omega, h0⟩))
  · obtain ⟨b, hb⟩ := BufId.exists_region _ h0 (by omega)
    exact .inr (.inr (.inr ⟨b, by omega, by omega, hb⟩))

theorem addressOf_toNat (b : BufId) (i : Nat) (hi : i < 2 ^ 26) :
    (addressOf b i).toNat = b.region * 2 ^ 28 + 4 * i := by
  have hregion := b.region_bounds.2
  rw [addressOf, BitVec.toNat_ofNat]
  exact Nat.mod_eq_of_lt (by omega)

/-- An address is that of a word exactly when its region and index are the word's. -/
theorem address_eq_iff (addr i r : Nat) (hi : i < 2 ^ 26) :
    addr = r * 2 ^ 28 + 4 * i ↔
      addr % 4 = 0 ∧ addr / 2 ^ 28 = r ∧ addr % 2 ^ 28 / 4 = i := by
  omega

theorem targetOf_eq_word_iff (p : Config.Params) (hp : p.Legal) (addr : Word) (size : Nat)
    (b : BufId) (i : Nat) : targetOf p addr size = .word b i ↔
      size = 4 ∧ i < capacityOf p b ∧ addr.toNat = b.region * 2 ^ 28 + 4 * i := by
  constructor
  · intro h
    have hi := targetOf_word p addr size b i h
    have hcap := capacityOf_le_of_legal p hp b
    rw [address_eq_iff _ _ _ (by omega)]
    rcases access_cases addr size with hbad | hge | ⟨rfl, hal, hzero⟩ | ⟨b', rfl, hal, hb⟩
    · rw [targetOf_of_misaligned p addr size hbad] at h
      cases h
    · rw [targetOf_region_ge p addr size hge] at h
      cases h
    · rw [targetOf_region_zero p addr hal hzero] at h
      split at h <;> cases h
    · rw [targetOf_buffer p addr b' hal hb] at h
      split at h <;> cases h
      exact ⟨rfl, hi, hal, hb, rfl⟩
  · rintro ⟨rfl, hi, haddr⟩
    have hcap := capacityOf_le_of_legal p hp b
    obtain ⟨hal, hregion, hindex⟩ := (address_eq_iff _ _ _ (by omega)).1 haddr
    rw [targetOf_buffer p addr b hal hregion, hindex, if_pos hi]

theorem targetOf_eq_reg_iff (p : Config.Params) (addr : Word) (size off : Nat) :
    targetOf p addr size = .reg off ↔
      size = 4 ∧ off < 2 ^ 12 ∧ off % 4 = 0 ∧ addr.toNat = off := by
  constructor
  · intro h
    rcases access_cases addr size with hbad | hge | ⟨rfl, hal, hzero⟩ | ⟨b, rfl, hal, hb⟩
    · rw [targetOf_of_misaligned p addr size hbad] at h
      cases h
    · rw [targetOf_region_ge p addr size hge] at h
      cases h
    · rw [targetOf_region_zero p addr hal hzero] at h
      split at h <;> cases h
      exact ⟨rfl, ‹_›, hal, rfl⟩
    · rw [targetOf_buffer p addr b hal hb] at h
      split at h <;> cases h
  · rintro ⟨rfl, hlt, hal, rfl⟩
    rw [targetOf_region_zero p addr hal (by omega), if_pos hlt]

theorem targetOf_eq_nothing_iff (p : Config.Params) (addr : Word) (size : Nat) :
    targetOf p addr size = .nothing ↔
      size ≠ 4 ∨ addr.toNat % 4 ≠ 0 ∨ 0x8 ≤ addr.toNat / 2 ^ 28 ∨
      (addr.toNat / 2 ^ 28 = 0 ∧ addr.toNat / 2 ^ 12 ≠ 0) ∨
      ∃ b : BufId, addr.toNat / 2 ^ 28 = b.region ∧
        capacityOf p b ≤ addr.toNat % 2 ^ 28 / 4 := by
  constructor
  · intro h
    rcases access_cases addr size with hbad | hge | ⟨rfl, hal, hzero⟩ | ⟨b, rfl, hal, hb⟩
    · exact hbad.imp_right .inl
    · exact .inr (.inr (.inl hge))
    · rw [targetOf_region_zero p addr hal hzero] at h
      split at h <;> cases h
      exact .inr (.inr (.inr (.inl ⟨hzero, by omega⟩)))
    · rw [targetOf_buffer p addr b hal hb] at h
      split at h <;> cases h
      exact .inr (.inr (.inr (.inr ⟨b, hb, by omega⟩)))
  · intro h
    by_cases hbad : size ≠ 4 ∨ addr.toNat % 4 ≠ 0
    · exact targetOf_of_misaligned p addr size hbad
    obtain ⟨rfl, hal⟩ : size = 4 ∧ addr.toNat % 4 = 0 := by omega
    rcases h with hsize | hmis | hge | ⟨hzero, hhigh⟩ | ⟨b, hb, hcap⟩
    · exact absurd rfl hsize
    · exact absurd hal hmis
    · exact targetOf_region_ge p addr 4 hge
    · rw [targetOf_region_zero p addr hal hzero, if_neg (by omega)]
    · rw [targetOf_buffer p addr b hal hb, if_neg (by omega)]

theorem targetOf_addressOf (p : Config.Params) (hp : p.Legal) (b : BufId) (i : Nat)
    (hi : i < capacityOf p b) : targetOf p (addressOf b i) 4 = .word b i :=
  (targetOf_eq_word_iff p hp _ 4 b i).2
    ⟨rfl, hi, addressOf_toNat b i (hi.trans_le (capacityOf_le_of_legal p hp b))⟩

/-- Settles O52: the table of the statement is the list of all buffers with their regions and
capacities. -/
theorem addressMapNamesExactlyItsWords : Obligations.AddressMapNamesExactlyItsWords := by
  intro p hp row regions
  have hregions : regions = BufId.all.map fun b => (b, b.region, capacityOf p b) := rfl
  rw [hregions]
  refine ⟨List.forall_mem_map.2 fun b _ => ⟨rfl, fun i hi => ⟨?_, targetOf_addressOf p hp b i hi⟩⟩,
    fun addr size => ⟨List.forall_mem_map.2 fun b _ i => targetOf_eq_word_iff p hp addr size b i,
      targetOf_eq_reg_iff p addr size, ?_⟩⟩
  · exact addressOf_toNat b i (hi.trans_le (capacityOf_le_of_legal p hp b))
  · simp [targetOf_eq_nothing_iff, BufId.mem_all]

/-! ### Accesses with no command in flight -/

theorem hostAccess_read (s : State) (addr : Word) (size : Nat) (h : s.status.busy = false) :
    hostAccess (.read addr size) s = readAccess (targetOf s.params addr size) s := by
  simp [hostAccess, h]

theorem hostAccess_write (s : State) (addr : Word) (size : Nat) (v : Word)
    (h : s.status.busy = false) :
    hostAccess (.write addr size v) s = writeAccess (targetOf s.params addr size) v s := by
  simp [hostAccess, h]

theorem writeAccess_word (b : BufId) (i : Nat) (v : Word) (s : State) (hb : b ≠ .win) :
    writeAccess (.word b i) v s = .next (s.storeWords b i [v]) := by
  cases b with
  | win => exact absurd rfl hb
  | chunk | sig | specRe | specIm | out | disp => rfl

theorem State.readWord_storeWords_singleton (s : State) (b : BufId) (i : Nat) (v : Word) :
    (s.storeWords b i [v]).readWord b i = some v := by
  simp [State.readWord_storeWords]

theorem State.wordsKept_storeWords (s : State) (b : BufId) (start : Nat) (ws : List Word) :
    s.WordsKept (s.storeWords b start ws) (InRange b start ws.length) := by
  intro b' i hout
  rw [State.readWord_storeWords]
  exact if_neg hout

/-- Settles O53: the word's address names the word, and the write is a store of one word. -/
theorem hostWritesOneWord : Obligations.HostWritesOneWord := by
  intro b i v s hbusy hp hi
  rw [hostAccess_write s _ 4 v hbusy, targetOf_addressOf s.params hp b i hi]
  constructor
  · intro hb
    exact ⟨_, writeAccess_word b i v s hb, rfl, s.readWord_storeWords_singleton b i v,
      s.wordsKept_storeWords b i [v]⟩
  · rintro rfl
    rfl

theorem readAccess_word (s : State) (b : BufId) (i : Nat) (w : Word)
    (h : s.readWord b i = some w) : readAccess (.word b i) s = .next (s.answer w) := by
  simp [readAccess, h]

theorem readAccess_unwritten (s : State) (b : BufId) (i : Nat) (h : s.readWord b i = none) :
    readAccess (.word b i) s =
      .next { s.answer (Config.unwrittenRead s.draws) with draws := s.draws + 1 } := by
  simp [readAccess, h]

theorem readAccess_reg (s : State) (off : Nat) (r : Reg) (h : Reg.ofOffset off = some r) :
    readAccess (.reg off) s = .next (s.answer (s.readReg r)) := by
  simp [readAccess, h]

theorem readAccess_reserved (s : State) (off : Nat) (h : Reg.ofOffset off = none) :
    readAccess (.reg off) s = .next (s.answer 0x00000000#32) := by
  simp [readAccess, h]

/-- An answer to an access that names something changes the answer alone. -/
theorem State.answer_eq (s : State) (w : Word) : s.answer w = { s with
    reply := w
    draws := s.draws
    status := { s.status with accErr := s.status.accErr || false } } := by
  simp [State.answer]

/-- An answer to an access that names nothing is 0 and sets ACCERR (R207). -/
theorem State.rejectRead_eq (s : State) : s.rejectRead = { s with
    reply := 0x00000000#32
    draws := s.draws
    status := { s.status with accErr := s.status.accErr || true } } := by
  simp [State.rejectRead, State.answer, State.setAccErr]

/-- A read changes the answer, the draw counter and, where it names nothing, ACCERR. -/
theorem readAccess_frame (target : Target) (s : State) :
    ∃ t, readAccess target s = .next t ∧ t = { s with
      reply := t.reply
      draws := t.draws
      status := { s.status with
        accErr := s.status.accErr || decide (target = .nothing) } } := by
  cases target with
  | nothing => exact ⟨_, rfl, s.rejectRead_eq⟩
  | reg off =>
    cases hreg : Reg.ofOffset off with
    | none => exact ⟨_, readAccess_reserved s off hreg, s.answer_eq _⟩
    | some r => exact ⟨_, readAccess_reg s off r hreg, s.answer_eq _⟩
  | word b i =>
    cases hword : s.readWord b i with
    | none => exact ⟨_, readAccess_unwritten s b i hword, by simp [State.answer]⟩
    | some w => exact ⟨_, readAccess_word s b i w hword, s.answer_eq _⟩

/-- Settles O54: what a read may change is said by its frame, and what it answers by the kind of its
target. -/
theorem readsHaveNoSideEffect : Obligations.ReadsHaveNoSideEffect := by
  intro addr size s hbusy
  rw [hostAccess_read s addr size hbusy]
  obtain ⟨t, ht, hframe⟩ := readAccess_frame (targetOf s.params addr size) s
  refine ⟨t, ht, hframe, fun htarget => ?_, fun off r htarget hr => ?_, fun off htarget hres => ?_,
    fun b i w htarget hw => ?_⟩ <;> rw [htarget] at ht
  · cases ht
    exact ⟨rfl, rfl⟩
  · cases (readAccess_reg s off r hr).symm.trans ht
    exact ⟨rfl, rfl⟩
  · cases (readAccess_reserved s off hres).symm.trans ht
    exact ⟨rfl, rfl⟩
  · cases (readAccess_word s b i w hw).symm.trans ht
    exact ⟨rfl, rfl⟩

/-- The registers a host write may change: CMD, STATUS, IRQ_EN and the RW registers (R103). -/
def Reg.writable : List Reg := [.cmd, .status, .irqEn] ++ Reg.stored

/-- A write to a whole RO register only sets ACCERR (R103, R207). -/
theorem writeReg_of_not_writable (s : State) (v : Word) (r : Reg) (h : r ∉ Reg.writable) :
    s.writeReg v r = s.setAccErr := by
  cases r with
  | cmd | status | irqEn | size | overlap | sigLen | numChunks | sampleRate | freqHz | lowerBand
  | upperBand | zeroRef => exact absurd (by decide) h
  | id | version | errCode | lastCmd | nActive | rActive | hop | numBands | outLen | bandIdx
  | trimEps | trimMargin | dispRows | dispW | capLog2NMax | capSig | capChunk | capOut => rfl

/-- A write to an offset that is reserved or a whole RO register only sets ACCERR (R207). -/
theorem writeAccess_reg_rejected (off : Nat) (v : Word) (s : State)
    (h : ∀ r, Reg.ofOffset off = some r → r ∉ Reg.writable) :
    writeAccess (.reg off) v s = .next s.setAccErr := by
  cases hreg : Reg.ofOffset off with
  | none => simp [writeAccess, hreg]
  | some r =>
    have hr := h r hreg
    have hcmd : r ≠ .cmd := by
      rintro rfl
      exact hr (by decide)
    simp [writeAccess, hreg, writeReg_of_not_writable s v r hr]

/-- Settles O55: the offsets of the statement are those of the writable registers. -/
theorem rejectedWritesOnlySetAccErr : Obligations.RejectedWritesOnlySetAccErr := by
  intro addr size v s hbusy hrejected
  rw [hostAccess_write s addr size v hbusy]
  rcases hrejected with hnothing | ⟨off, hreg, hoff⟩
  · rw [hnothing]
    rfl
  · rw [hreg]
    refine writeAccess_reg_rejected off v s fun r hr hmem => hoff ?_
    rw [Reg.offset_of_ofOffset off r hr]
    exact List.mem_map_of_mem (f := Reg.offset) hmem

end Sys2Proof.Machine
end

section
/-! PROOF. The encoding (30_encoding.md R300 to R309): on the words of one opcode the decoder is one
test of the fixed-zero bits of that opcode's row, so the round trips, the mask and match columns and
the codes of illegal words all follow from `decode_of_opcode` and `decode_of_reserved`. -/

namespace Sys2Proof

/-! ### The rows of the opcode map -/

/-- One command of each row of the opcode map (R303). -/
def Instr.rows : List Instr :=
  [.nop, .config, .fwd 0, .inv 0, .frame .contiguous 0, .analyze .contiguous, .olaClear, .olaAdd 0,
    .olaScale, .synth, .synthOla, .band, .zeroBand, .mag, .trim, .db]

/-- The command of the row of `i` whose operands are the fields of `w` (R301, R302). -/
def Instr.withFields (i : Instr) (w : Word) : Instr :=
  match i with
  | .fwd _ => .fwd (idxField w)
  | .inv _ => .inv (idxField w)
  | .frame _ _ => .frame (modeField w) (idxField w)
  | .analyze _ => .analyze (modeField w)
  | .olaAdd _ => .olaAdd (idxField w)
  | j => j

/-- The bits of `w` that the format of the row of `i` fixes at zero, as a number (R301). -/
def Instr.fixedBits (i : Instr) (w : Word) : Nat :=
  match i with
  | .fwd _ | .inv _ | .olaAdd _ => w.toNat / 2 ^ 8 % 2 ^ 8
  | .frame _ _ => w.toNat / 2 ^ 9 % 2 ^ 7
  | .analyze _ => w.toNat / 2 ^ 9
  | _ => w.toNat / 2 ^ 8

@[simp] theorem Instr.opcode_withFields (i : Instr) (w : Word) :
    (i.withFields w).opcode = i.opcode := by cases i <;> rfl

theorem Instr.withFields_wellFormed (i : Instr) (w : Word) : (i.withFields w).WellFormed := by
  have hidx : idxField w < 2 ^ 16 := by
    have hw := w.isLt
    rw [idxField]
    omega
  cases i with
  | fwd c => exact hidx
  | inv c => exact hidx
  | frame m c => exact hidx
  | olaAdd c => exact hidx
  | _ => exact Nat.two_pow_pos 16

theorem modeField_bit (w : Word) : (modeField w).bit = w.toNat / 2 ^ 8 % 2 := by
  unfold modeField
  split
  · next h => exact h.symm
  · next h => exact (Nat.mod_two_ne_zero.1 h).symm

/-- Where the fixed-zero bits are zero, the operands hold every bit above the opcode. -/
theorem Instr.withFields_operands (i : Instr) (w : Word) (h : i.fixedBits w = 0) :
    (i.withFields w).idx * 2 ^ 8 + (i.withFields w).modeBit = w.toNat / 2 ^ 8 := by
  have hformatI (hzero : w.toNat / 2 ^ 8 % 2 ^ 8 = 0) :
      w.toNat / 2 ^ 16 * 2 ^ 8 + 0 = w.toNat / 2 ^ 8 := by omega
  cases i with
  | fwd c => exact hformatI h
  | inv c => exact hformatI h
  | olaAdd c => exact hformatI h
  | frame m c =>
    have hzero : w.toNat / 2 ^ 9 % 2 ^ 7 = 0 := h
    simp only [Instr.withFields, Instr.idx, Instr.modeBit, idxField, modeField_bit]
    omega
  | analyze m =>
    have hzero : w.toNat / 2 ^ 9 = 0 := h
    simp only [Instr.withFields, Instr.idx, Instr.modeBit, modeField_bit]
    omega
  | _ =>
    simp only [Instr.withFields, Instr.idx, Instr.modeBit, zero_mul, add_zero]
    exact h.symm

theorem encode_withFields (i : Instr) (w : Word) (hop : opcField w = i.opcode)
    (h : i.fixedBits w = 0) : encode (i.withFields w) = w := by
  apply BitVec.eq_of_toNat_eq
  calc (encode (i.withFields w)).toNat
      = ((i.withFields w).idx * 2 ^ 8 + (i.withFields w).modeBit) * 2 ^ 8 + opcField w := by
        rw [encode_toNat _ (i.withFields_wellFormed w), Instr.opcode_withFields, hop]
        ring
    _ = w.toNat := by rw [i.withFields_operands w h, opcField, Nat.div_add_mod']

/-! ### What the decoder answers -/

/-- A word whose opcode is in the map (R301, R303, R305). -/
theorem decode_of_opcode (i : Instr) (w : Word) (hop : opcField w = i.opcode) :
    decode w = if i.fixedBits w = 0 then .ok (i.withFields w) else .error .illegalField := by
  cases i <;> simp only [decode, hop, Instr.opcode] <;> rfl

/-- A word whose opcode is reserved (R304). -/
theorem decode_of_reserved (w : Word) (h : opcField w ∉ Instr.rows.map Instr.opcode) :
    decode w = .error .illegalOpcode := by
  unfold decode
  split
  case h_17 => rfl
  all_goals
    rename_i hop
    exact absurd (by rw [hop]; decide) h

/-- A word that decodes has the opcode of some row, and that row's fixed-zero bits are zero. -/
theorem decode_ok_cases {w : Word} {j : Instr} (h : decode w = .ok j) :
    ∃ i : Instr, opcField w = i.opcode ∧ i.fixedBits w = 0 ∧ j = i.withFields w := by
  by_cases hrow : opcField w ∈ Instr.rows.map Instr.opcode
  · obtain ⟨i, -, hop⟩ := List.mem_map.1 hrow
    rw [decode_of_opcode i w hop.symm] at h
    split at h
    · next hzero => exact ⟨i, hop.symm, hzero, (Except.ok.inj h).symm⟩
    · cases h
  · rw [decode_of_reserved w hrow] at h
    cases h

/-! ### The round trips -/

/-- Settles O1: the fields of an encoded command are its opcode and operands. -/
theorem decodeOfEncode : Obligations.DecodeOfEncode := decode_encode

/-- Settles O2: the command is that of the word's row with the word's own fields as operands. -/
theorem encodeOfDecode : Obligations.EncodeOfDecode := by
  intro w j h
  obtain ⟨i, hop, hzero, rfl⟩ := decode_ok_cases h
  exact ⟨i.withFields_wellFormed w, encode_withFields i w hop hzero⟩

theorem opcField_of_decode {w : Word} {i : Instr} (h : decode w = .ok i) :
    opcField w = i.opcode := by
  obtain ⟨j, hop, -, rfl⟩ := decode_ok_cases h
  rw [hop, Instr.opcode_withFields]

/-! ### The mask and match columns -/

/-- A mask that keeps bits 7:0 keeps the opcode and acts on the bits above on their own. -/
theorem toNat_and_of_keeps_opcode (w m : Word) (hm : m.toNat % 2 ^ 8 = 2 ^ 8 - 1) :
    (w &&& m).toNat = (w.toNat / 2 ^ 8 &&& m.toNat / 2 ^ 8) * 2 ^ 8 + opcField w := by
  have hlow : (w.toNat &&& m.toNat) % 2 ^ 8 = opcField w := by
    rw [Nat.and_mod_two_pow, hm, Nat.and_two_pow_sub_one_eq_mod, Nat.mod_mod, opcField]
  rw [BitVec.toNat_and, ← Nat.and_div_two_pow, ← hlow, Nat.div_add_mod']

theorem Instr.mask_keeps_opcode (i : Instr) : i.mask.toNat % 2 ^ 8 = 2 ^ 8 - 1 := by
  cases i <;> simp [Instr.mask]

/-- A mask that drops bit 0 tests the bits above it. -/
theorem and_double_eq_zero_iff (x n : Nat) : x &&& 2 * (2 ^ n - 1) = 0 ↔ x / 2 % 2 ^ n = 0 := by
  have hhigh : (x &&& 2 * (2 ^ n - 1)) / 2 = x / 2 % 2 ^ n := by
    rw [Nat.and_div_two, Nat.mul_div_cancel_left _ Nat.two_pos, Nat.and_two_pow_sub_one_eq_mod]
  have hlow : (x &&& 2 * (2 ^ n - 1)) % 2 ≠ 1 := by
    rw [Ne, Nat.and_mod_two_eq_one]
    omega
  omega

/-- Above the opcode a row's mask keeps exactly the fixed-zero bits of its format (R301, R303). -/
theorem Instr.and_mask_eq_zero_iff (i : Instr) (w : Word) :
    w.toNat / 2 ^ 8 &&& i.mask.toNat / 2 ^ 8 = 0 ↔ i.fixedBits w = 0 := by
  have hw : w.toNat / 2 ^ 8 < 2 ^ 24 := by
    have := w.isLt
    omega
  have hformatI : w.toNat / 2 ^ 8 &&& 2 ^ 8 - 1 = 0 ↔ w.toNat / 2 ^ 8 % 2 ^ 8 = 0 := by
    rw [Nat.and_two_pow_sub_one_eq_mod]
  have hformatMI := and_double_eq_zero_iff (w.toNat / 2 ^ 8) 7
  have hformatMZ := and_double_eq_zero_iff (w.toNat / 2 ^ 8) 23
  have hformatZ := Nat.and_two_pow_sub_one_eq_mod (w.toNat / 2 ^ 8) 24
  rw [Nat.div_div_eq_div_mul] at hformatMI hformatMZ
  rw [Nat.mod_eq_of_lt (by omega)] at hformatMZ hformatZ
  cases i with
  | fwd c => simpa [Instr.mask, Instr.fixedBits] using hformatI
  | inv c => simpa [Instr.mask, Instr.fixedBits] using hformatI
  | olaAdd c => simpa [Instr.mask, Instr.fixedBits] using hformatI
  | frame m c => simpa [Instr.mask, Instr.fixedBits] using hformatMI
  | analyze m => simpa [Instr.mask, Instr.fixedBits] using hformatMZ
  | _ => exact Eq.congr_left hformatZ

/-- A word of a row's opcode matches the row iff its fixed-zero bits are zero (R303, R305). -/
theorem and_mask_eq_matchWord_iff (i : Instr) (w : Word) :
    w &&& i.mask = i.matchWord ↔ opcField w = i.opcode ∧ i.fixedBits w = 0 := by
  have hword := toNat_and_of_keeps_opcode w i.mask i.mask_keeps_opcode
  have hmatch : i.matchWord.toNat = i.opcode := by
    rw [Instr.matchWord, BitVec.toNat_ofNat]
    exact Nat.mod_eq_of_lt (i.opcode_lt.trans (by decide))
  have hop := i.opcode_lt
  have hfield : opcField w < 2 ^ 8 := Nat.mod_lt _ (Nat.two_pow_pos 8)
  rw [← BitVec.toNat_inj, hword, hmatch, ← i.and_mask_eq_zero_iff w]
  omega

/-- Settles O3: a word that decodes has its command's row, and a word that matches a row decodes to
that row's command with the word's own fields. -/
theorem decodeIsMaskAndMatch : Obligations.DecodeIsMaskAndMatch := by
  intro i w
  rw [and_mask_eq_matchWord_iff]
  constructor
  · rintro ⟨j, hrow, hdecode⟩
    have hop : opcField w = i.opcode := (opcField_of_decode hdecode).trans hrow
    refine ⟨hop, by_contra fun hset => ?_⟩
    rw [decode_of_opcode i w hop, if_neg hset] at hdecode
    cases hdecode
  · rintro ⟨hop, hzero⟩
    exact ⟨i.withFields w, i.opcode_withFields w, by rw [decode_of_opcode i w hop, if_pos hzero]⟩

end Sys2Proof

namespace Sys2Proof.Machine

/-! ### Words that are no command -/

theorem State.completedWith_complete (s : State) (code : ErrCode) (h : code ≠ .ok) :
    s.CompletedWith (s.complete code) code.toByte := by
  simp [State.CompletedWith, State.complete, h]

/-- A CMD write of a word that is no command writes LAST_CMD and completes with the word's code: the
completion clears the BUSY of the start (R705, R710). -/
theorem hostAccess_cmd_error (w : Word) (s : State) (e : DecodeError)
    (hbusy : s.status.busy = false) (h : decode w = .error e) :
    ∃ t, hostAccess (.write 0x00000008#32 4 w) s = .next t ∧
      State.CompletedWith { s with lastCmd := w } t (DecodeError.code e).toByte := by
  refine ⟨(s.startCommand w).complete (DecodeError.code e),
    (hostAccess_cmd w s hbusy).trans (runCommand_error w e _ h), ?_⟩
  exact State.completedWith_complete (s.startCommand w) _ (by cases e <;> decide)

/-- Settles O5: the decoder answers ILLEGAL_OPCODE for an opcode of no row, and ILLEGAL_FIELD for a
word of a row's opcode whose fixed-zero bits are not zero. -/
theorem illegalCommandWords : Obligations.IllegalCommandWords := by
  intro w s hbusy
  constructor
  · intro hreserved
    exact hostAccess_cmd_error w s .illegalOpcode hbusy (decode_of_reserved w hreserved)
  · intro i hop hmismatch
    have hset : i.fixedBits w ≠ 0 := fun hzero =>
      hmismatch ((and_mask_eq_matchWord_iff i w).2 ⟨hop, hzero⟩)
    have hdecode : decode w = .error .illegalField := by
      rw [decode_of_opcode i w hop, if_neg hset]
    exact hostAccess_cmd_error w s .illegalField hbusy hdecode

/-- Settles O4: the words of R309 are constants, so the decoder computes each answer. -/
theorem encodingExamples : Obligations.EncodingExamples :=
  ⟨rfl, rfl, rfl, rfl, rfl, rfl, rfl, fun s => runCommand_error _ .illegalField s rfl,
    fun s => runCommand_error _ .illegalOpcode s rfl⟩

end Sys2Proof.Machine
end

section
/-! PROOF. NOP and CONFIG (40_control.md R400 to R405). -/

namespace Sys2Proof.Machine

theorem exec_nop (s : State) : exec .nop s = execNop s := rfl

theorem exec_config (s : State) : exec .config s = execConfig s := rfl

/-! ### NOP -/

theorem State.completedOk_succeed (s : State) : s.CompletedOk s.succeed := by
  simp [State.CompletedOk, State.succeed, State.complete, ErrCode.toByte]

/-- Settles O17: NOP has no check, so it always succeeds, and its effect is the state itself. -/
theorem nopCompletes : Obligations.NopCompletes := fun s =>
  ⟨s.succeed, s.runChecked_of_ok s [] .ok firstFailure_nil rfl, s.completedOk_succeed, rfl, rfl⟩

/-! ### The checks of CONFIG -/

/-- Against a limit that is itself a power of two the check compares exponents. -/
theorem legalPower_two_pow_iff (w : Word) (limit : Nat) :
    legalPower w (2 ^ limit) = true ↔ ∃ k, 1 ≤ k ∧ k ≤ limit ∧ w.toNat = 2 ^ k := by
  simp only [legalPower_iff, Nat.pow_le_pow_iff_right (show 1 < 2 by decide),
    and_comm (b := _ ≤ limit)]

/-- The size is checked first, whatever the ratio (R402, R403). -/
theorem State.firstFailure_configChecks (s : State) : firstFailure s.configChecks =
    if legalPower s.size (2 ^ s.params.log2NMax) then
      if legalPower s.overlap s.size.toNat then none else some .invalidParameterOverlap
    else some .invalidParameterSize := by
  rw [State.configChecks, firstFailure_cons, firstFailure_cons, firstFailure_nil,
    Config.Params.nMax]
  cases legalPower s.size (2 ^ s.params.log2NMax) <;>
    cases legalPower s.overlap s.size.toNat <;> rfl

theorem execConfig_of_ok {s : State} (h : firstFailure s.configChecks = none) :
    execConfig s = .next s.configure.succeed := by
  rw [execConfig, h]

theorem execConfig_of_fail {s : State} {code : ErrCode} (hcode : code ≠ .ok)
    (h : firstFailure s.configChecks = some code) :
    ∃ t, execConfig s = .next t ∧ State.CompletedWith
      { s with status := { s.status with cfgValid := false } } t code.toByte := by
  rw [execConfig, h]
  exact ⟨_, rfl, State.completedWith_complete _ code hcode⟩

/-- Settles O19: the two clauses are the two failing branches of the checks. -/
theorem configRejectsParameters : Obligations.ConfigRejectsParameters := by
  refine fun s => ⟨fun hsize => ?_, fun k hk hmax hsize hratio => ?_⟩
  · refine execConfig_of_fail (code := .invalidParameterSize) (by decide) ?_
    rw [← legalPower_two_pow_iff] at hsize
    rw [s.firstFailure_configChecks, if_neg hsize]
  · refine execConfig_of_fail (code := .invalidParameterOverlap) (by decide) ?_
    rw [← legalPower_two_pow_iff, ← hsize] at hratio
    have hlegal : legalPower s.size (2 ^ s.params.log2NMax) = true :=
      (legalPower_two_pow_iff s.size _).2 ⟨k, hk, hmax, hsize⟩
    rw [s.firstFailure_configChecks, if_pos hlegal, if_neg hratio]

/-! ### The configuration -/

/-- The exponents of the configuration are those of SIZE and OVERLAP. -/
theorem State.configure_configuredAs_of_pow {s : State} {k j : Nat}
    (h : firstFailure s.configChecks = none) (hsize : s.size.toNat = 2 ^ k)
    (hratio : s.overlap.toNat = 2 ^ j) : s.configure.ConfiguredAs k j := by
  obtain ⟨k', j', hcfg⟩ := s.configure_configuredAs h
  have ⟨_, _, _, _, hN, hR, _⟩ := hcfg
  have hsizeN : s.configure.sizeN = s.size.toNat :=
    congrArg BitVec.toNat (BitVec.ofNat_toNat 32 s.size)
  have hratioR : s.configure.ratioR = s.overlap.toNat :=
    congrArg BitVec.toNat (BitVec.ofNat_toNat 32 s.overlap)
  obtain rfl : k' = k := Nat.pow_right_injective le_rfl (hN.symm.trans (hsizeN.trans hsize))
  obtain rfl : j' = j := Nat.pow_right_injective le_rfl (hR.symm.trans (hratioR.trans hratio))
  exact hcfg

/-- CONFIG writes the whole of WIN and no other buffer. -/
theorem State.readWord_configure (s : State) (b : BufId) (i : Nat) :
    s.configure.readWord b i =
      if b = .win then some (if i < s.size.toNat then hann s.size.toNat i else posZero)
      else s.readWord b i := by
  have hmem : s.configure.mem =
      Memory.storeWords { s.mem with win := [] } .win 0 (hannWindow s.size.toNat) := rfl
  rw [State.readWord, hmem, Memory.readWord_storeWords, hannWindow_length]
  by_cases hb : b = .win
  · subst hb
    by_cases hi : i < s.size.toNat
    · simp [hi, hannWindow]
    · simp [hi, Memory.readWord, Memory.buffer, BufId.unlisted]
  · rw [if_neg (fun h => hb h.1), if_neg hb]
    change (s.mem.setBuffer .win []).readWord b i = s.mem.readWord b i
    rw [Memory.readWord, Memory.setBuffer_buffer_ne _ _ _ _ hb, Memory.readWord]

/-- Settles O18: both checks pass, the registers are those of the configuration, and the window is
read back word by word. -/
theorem configBuildsTransform : Obligations.ConfigBuildsTransform := by
  intro k j s hk hmax hj hjk hsize hratio
  have hlegal : legalPower s.size (2 ^ s.params.log2NMax) = true :=
    (legalPower_two_pow_iff s.size _).2 ⟨k, hk, hmax, hsize⟩
  have hlegal' : legalPower s.overlap s.size.toNat = true := by
    rw [hsize]
    exact (legalPower_two_pow_iff s.overlap k).2 ⟨j, hj, hjk, hratio⟩
  have hpass : firstFailure s.configChecks = none := by
    rw [s.firstFailure_configChecks, if_pos hlegal, if_pos hlegal']
  obtain ⟨-, -, -, -, hN, hR, hH, hM, -⟩ := State.configure_configuredAs_of_pow hpass hsize hratio
  refine ⟨s.configure.succeed, (exec_config s).trans (execConfig_of_ok hpass), rfl, ?_, hN, hR, ?_,
    ?_, rfl, rfl, rfl, rfl, fun n _ => ?_, fun b i hb => ?_, rfl⟩
  · exact s.configure.completedOk_succeed.2
  · rw [Nat.pow_div hjk (by decide)]; exact hH
  · exact hM.trans (Nat.pow_div hk (by decide)).symm
  · have hread := s.readWord_configure .win n
    rw [if_pos rfl, hsize] at hread
    exact hread
  · exact (s.readWord_configure b i).trans (if_neg hb)

end Sys2Proof.Machine
end

section
/-! PROOF. The window generator (40_control.md R410 to R412): the coefficients of every size are
coefficients of the largest one, the values and the symmetry the rule draws, and the overlap sum of
the ideal window. -/

namespace Sys2Proof.Machine

/-! ### Sizes and symmetry -/

/-- The fixed-point versine depends on the ratio `n / size` alone. -/
theorem versineFixed_mul (size n : Nat) {c : Nat} (hc : 0 < c) :
    versineFixed (size * c) (n * c) = versineFixed size n := by
  have htheta : 2 * piFixed * (n * c) / (size * c) = 2 * piFixed * n / size := by
    rw [← Nat.mul_assoc, Nat.mul_div_mul_right _ _ hc]
  simp only [versineFixed, htheta]

theorem hann_mul (size n : Nat) {c : Nat} (hc : 0 < c) :
    hann (size * c) (n * c) = hann size n := by
  rw [hann, ← Nat.sub_mul, Nat.mul_min_mul_right, versineFixed_mul _ _ hc, hann]

/-- Every coefficient is one of the window of 2^16 words. -/
theorem hann_eq_largest {k : Nat} (n : Nat) (hk : k ≤ 16) :
    hann (2 ^ k) n = hann (2 ^ 16) (n * 2 ^ (16 - k)) := by
  rw [← hann_mul (2 ^ k) n (Nat.two_pow_pos (16 - k)), ← pow_add, Nat.add_sub_cancel' hk]

theorem hann_symm {size n : Nat} (h : n ≤ size) : hann size n = hann size (size - n) := by
  rw [hann, hann, Nat.sub_sub_self h, min_comm]

theorem hann_start : hann (2 ^ 16) 0 = posZero := by decide +kernel
theorem hann_quarter : hann (2 ^ 16) (2 ^ 14) = 0x3F000000#32 := by decide +kernel
theorem hann_middle : hann (2 ^ 16) (2 ^ 15) = Binary32.one := by decide +kernel

/-- Settles O20: the special values are read off the window of 2^16 words. -/
theorem hannSpecialValuesAndSymmetry : Obligations.HannSpecialValuesAndSymmetry := by
  intro k hk hk16
  have hmiddle : 2 ^ k / 2 * 2 ^ (16 - k) = 2 ^ 15 := by
    rw [Nat.pow_div hk (by decide), ← pow_add]; congr 1; omega
  refine ⟨?_, ?_, fun hk2 => ?_, fun n _ hn => hann_symm hn.le⟩
  · rw [hann_eq_largest 0 hk16, Nat.zero_mul, hann_start]
  · rw [hann_eq_largest _ hk16, hmiddle, hann_middle]
  · obtain ⟨j, rfl⟩ : ∃ j, k = j + 2 := ⟨k - 2, by omega⟩
    have hquarter : 2 ^ (j + 2) / 4 * 2 ^ (16 - (j + 2)) = 2 ^ 14 := by
      rw [show 2 ^ (j + 2) / 4 = 2 ^ j by rw [pow_add]; omega, ← pow_add]; congr 1; omega
    have hfirst : hann (2 ^ (j + 2)) (2 ^ (j + 2) / 4) = 0x3F000000#32 := by
      rw [hann_eq_largest _ hk16, hquarter, hann_quarter]
    have hlast : 3 * 2 ^ (j + 2) / 4 = 2 ^ (j + 2) - 2 ^ (j + 2) / 4 := by rw [pow_add]; omega
    exact ⟨hfirst, by rw [hlast, ← hann_symm (Nat.div_le_self ..), hfirst]⟩

/-! ### The overlap sum of the ideal window -/

/-- Equally spaced cosines cancel: they are the real part of a sum of the roots of unity. -/
theorem sum_cos_equally_spaced {r : Nat} (hr : 2 ≤ r) (a : ℝ) :
    ∑ q ∈ Finset.range r, Real.cos (a + 2 * Real.pi * q / r) = 0 := by
  have hroot := (Complex.isPrimitiveRoot_exp r (by omega)).geom_sum_eq_zero (by omega)
  have hterm : ∀ q : Nat, Real.cos (a + 2 * Real.pi * q / r) =
      (Complex.exp (a * Complex.I) * Complex.exp (2 * Real.pi * Complex.I / r) ^ q).re := by
    intro q
    rw [← Complex.exp_nat_mul, ← Complex.exp_add, ← Complex.exp_ofReal_mul_I_re]
    congr 2
    push_cast
    ring
  rw [Finset.sum_congr rfl fun q _ => hterm q, ← Complex.re_sum, ← Finset.mul_sum, hroot, mul_zero,
    Complex.zero_re]

/-- The ideal window is periodic, so the index need not be reduced. -/
theorem isHann_mod {N : Nat} {w : Nat → ℝ} (hN : 0 < N) (h : Ideal.IsHann N w) (i : Nat) :
    w (i % N) = (1 / 2) * (1 - Real.cos (2 * Real.pi * i / N)) := by
  have hN' : (N : ℝ) ≠ 0 := by exact_mod_cast hN.ne'
  have hi : (i : ℝ) = (i % N : Nat) + N * (i / N : Nat) := by
    exact_mod_cast (Nat.mod_add_div i N).symm
  have hangle : 2 * Real.pi * i / N =
      2 * Real.pi * (i % N : Nat) / N + (i / N : Nat) * (2 * Real.pi) := by
    rw [hi]; field_simp
  rw [h _ (Nat.mod_lt i hN), hangle, Real.cos_add_nat_mul_two_pi]

/-- Settles O22: the `R` cosines of the sum are equally spaced. -/
theorem idealWindowOverlapsToConstant : Obligations.IdealWindowOverlapsToConstant := by
  rintro N R w hR ⟨H, rfl⟩ hN hw n
  have hH : 0 < H := Nat.pos_of_mul_pos_left hN
  have hangle : ∀ q : Nat, 2 * Real.pi * (n + q * H : Nat) / (R * H : Nat) =
      2 * Real.pi * n / (R * H : Nat) + 2 * Real.pi * q / R := fun q => by
    have hR' : (R : ℝ) ≠ 0 := by exact_mod_cast (by omega : R ≠ 0)
    have hH' : (H : ℝ) ≠ 0 := by exact_mod_cast hH.ne'
    push_cast
    field_simp
  rw [Nat.mul_div_cancel_left H (by omega)]
  simp only [isHann_mod hN hw, hangle, ← Finset.mul_sum, Finset.sum_sub_distrib,
    sum_cos_equally_spaced hR, Finset.sum_const, Finset.card_range, nsmul_eq_mul]
  ring

end Sys2Proof.Machine
end

section
/-! PROOF. The fixed-point versine of the window generator is near the real one: each term of the
series is off by few units of 2^-128, the series of 28 terms stops within one unit of `1 − cos`, and
the angle is off by what is known of π. -/

namespace Sys2Proof.Machine

/-! ### The series of 1 − cos -/

/-- The term `x^j / (2j)!` of the series of `1 − cos √x`. -/
noncomputable def versineTerm (x : ℝ) (j : Nat) : ℝ := x ^ j / (2 * j).factorial

theorem versineTerm_succ (x : ℝ) (j : Nat) :
    versineTerm x (j + 1) = versineTerm x j * x / ((2 * j + 1) * (2 * j + 2)) := by
  have h0 : ((2 * j).factorial : ℝ) ≠ 0 := by exact_mod_cast (Nat.factorial_pos _).ne'
  rw [versineTerm, versineTerm, show 2 * (j + 1) = 2 * j + 1 + 1 by ring, Nat.factorial_succ,
    Nat.factorial_succ]
  push_cast
  field_simp
  ring

theorem versineTerm_nonneg {x : ℝ} (hx : 0 ≤ x) (j : Nat) : 0 ≤ versineTerm x j := by
  unfold versineTerm; positivity

/-- The ratio of two neighbouring terms. -/
theorem versineRatio_le {x : ℝ} (hx10 : x ≤ 10) {j : Nat} (hj : 1 ≤ j) :
    x / ((2 * j + 1) * (2 * j + 2)) ≤ 5 / 6 := by
  have hj' : (1 : ℝ) ≤ j := by exact_mod_cast hj
  rw [div_le_iff₀ (by positivity)]
  nlinarith

theorem versineTerm_antitone {x : ℝ} (hx : 0 ≤ x) (hx10 : x ≤ 10) :
    Antitone fun i => versineTerm x (1 + i) := by
  refine antitone_nat_of_succ_le fun i => ?_
  have hratio := versineRatio_le hx10 (Nat.le_add_right 1 i)
  rw [← add_assoc, versineTerm_succ, mul_div_assoc]
  exact mul_le_of_le_one_right (versineTerm_nonneg hx _) (hratio.trans (by norm_num))

theorem tendsto_versineSeries (r : ℝ) : Filter.Tendsto
    (fun n => ∑ i ∈ Finset.range n, (-1) ^ i * versineTerm (r ^ 2) (1 + i)) Filter.atTop
    (nhds (1 - Real.cos r)) := by
  have hsum := ((hasSum_nat_add_iff' 1).2 (Real.hasSum_cos r)).neg.tendsto_sum_nat
  simp only [Finset.sum_range_one, pow_zero, mul_zero, Nat.factorial_zero, Nat.cast_one, one_mul,
    div_one, neg_sub] at hsum
  refine hsum.congr fun n => Finset.sum_congr rfl fun i _ => ?_
  rw [versineTerm, add_comm 1 i, pow_succ, ← pow_mul]
  ring

/-- The 28 terms of the series that the generator takes are enough. -/
theorem versineSeries_near {r : ℝ} (hr : r ^ 2 ≤ 10) :
    |∑ i ∈ Finset.range 28, (-1) ^ i * versineTerm (r ^ 2) (1 + i) - (1 - Real.cos r)| ≤
      1 / 2 ^ 128 := by
  have hanti := versineTerm_antitone (sq_nonneg r) hr
  have hlow := hanti.alternating_series_le_tendsto (tendsto_versineSeries r) 14
  have hhigh := hanti.tendsto_le_alternating_series (tendsto_versineSeries r) 14
  have hterm : versineTerm (r ^ 2) 29 ≤ 1 / 2 ^ 128 := by
    have hpow : (r ^ 2) ^ 29 ≤ 10 ^ 29 := pow_le_pow_left₀ (sq_nonneg r) hr 29
    rw [versineTerm, div_le_iff₀ (by positivity)]
    exact hpow.trans (by norm_num [Nat.factorial])
  rw [show 2 * 14 + 1 = 28 + 1 from rfl, Finset.sum_range_succ] at hhigh
  rw [abs_le]
  constructor <;> norm_num at hlow hhigh hterm ⊢ <;> linarith

/-! ### The fixed-point series -/

theorem abs_natDiv_sub_le (a b : Nat) : |((a / b : Nat) : ℝ) - a / b| ≤ 1 := by
  rw [← Nat.floor_div_eq_div (K := ℝ), abs_sub_le_iff]
  have hlow := Nat.floor_le (show (0 : ℝ) ≤ a / b by positivity)
  have hhigh := Nat.lt_floor_add_one ((a : ℝ) / b)
  constructor <;> linarith

/-- Rounding one term down keeps it within 6 units, since each term is at most 5/6 of the one
before. -/
theorem versineNext_near {sq j term : Nat} (hsq : (sq : ℝ) / 2 ^ 128 ≤ 10) (hj : 1 ≤ j)
    (h : |(term : ℝ) - 2 ^ 128 * versineTerm (sq / 2 ^ 128) j| ≤ 6) :
    |((term * sq / 2 ^ hannBits / ((2 * j + 1) * (2 * j + 2)) : Nat) : ℝ) -
      2 ^ 128 * versineTerm (sq / 2 ^ 128) (j + 1)| ≤ 6 := by
  obtain ⟨x, hx⟩ : ∃ x : ℝ, x = sq / 2 ^ 128 := ⟨_, rfl⟩
  have hx0 : 0 ≤ x := hx ▸ by positivity
  have hsq' : (sq : ℝ) = 2 ^ 128 * x := by rw [hx]; field_simp
  rw [← hx] at h hsq ⊢
  rw [Nat.div_div_eq_div_mul, show hannBits = 128 from rfl]
  have hratio := versineRatio_le hsq hj
  have hratio0 : 0 ≤ x / ((2 * j + 1) * (2 * j + 2)) := by positivity
  have hdiv := abs_natDiv_sub_le (term * sq) (2 ^ 128 * ((2 * j + 1) * (2 * j + 2)))
  have hexact : ((term * sq : Nat) : ℝ) / (2 ^ 128 * ((2 * j + 1) * (2 * j + 2)) : Nat) -
      2 ^ 128 * versineTerm x (j + 1) =
        (term - 2 ^ 128 * versineTerm x j) * (x / ((2 * j + 1) * (2 * j + 2))) := by
    rw [versineTerm_succ]
    push_cast
    rw [hsq']
    field_simp
    ring
  have hscaled : |(term - 2 ^ 128 * versineTerm x j) * (x / ((2 * j + 1) * (2 * j + 2)))| ≤ 5 := by
    rw [abs_mul, abs_of_nonneg hratio0]
    calc _ ≤ 6 * (5 / 6 : ℝ) := mul_le_mul h hratio hratio0 (by norm_num)
      _ = 5 := by norm_num
  rw [← hexact] at hscaled
  refine (abs_sub_le _ (((term * sq : Nat) : ℝ) /
    (2 ^ 128 * ((2 * j + 1) * (2 * j + 2)) : Nat)) _).trans ?_
  linarith

/-- The alternating sum of the fixed-point terms, 6 units off for each of them. -/
theorem versineSums_near {sq : Nat} (hsq : (sq : ℝ) / 2 ^ 128 ≤ 10) (fuel j term : Nat)
    (hj : 1 ≤ j) (h : |(term : ℝ) - 2 ^ 128 * versineTerm (sq / 2 ^ 128) j| ≤ 6) :
    |((versineSums sq fuel j term).1 : ℝ) - (versineSums sq fuel j term).2 -
      2 ^ 128 * ∑ i ∈ Finset.range fuel, (-1) ^ i * versineTerm (sq / 2 ^ 128) (j + i)| ≤
        (6 * fuel : ℝ) := by
  induction fuel generalizing j term with
  | zero => simp [versineSums]
  | succ fuel ih =>
    have hrest := ih (j + 1) _ (by omega) (versineNext_near hsq hj h)
    have hseries : ∑ i ∈ Finset.range (fuel + 1), (-1) ^ i * versineTerm (sq / 2 ^ 128) (j + i) =
        versineTerm (sq / 2 ^ 128) j -
          ∑ i ∈ Finset.range fuel, (-1) ^ i * versineTerm (sq / 2 ^ 128) (j + 1 + i) := by
      rw [Finset.sum_range_succ', sub_eq_neg_add, ← Finset.sum_neg_distrib]
      congr 1
      · refine Finset.sum_congr rfl fun i _ => ?_
        rw [show j + (i + 1) = j + 1 + i by ring]
        ring
      · simp
    simp only [versineSums, hseries]
    push_cast
    rw [abs_le] at h hrest ⊢
    constructor <;> linarith

/-! ### The angle -/

/-- A truncated difference is no farther from a non-negative number than the exact one. -/
theorem abs_natSub_sub_le {a b : Nat} {v : ℝ} (hv : 0 ≤ v) :
    |((a - b : Nat) : ℝ) - v| ≤ |(a : ℝ) - b - v| := by
  rcases le_total b a with h | h
  · rw [Nat.cast_sub h]
  · have hab : (a : ℝ) ≤ b := by exact_mod_cast h
    rw [Nat.sub_eq_zero_of_le h, Nat.cast_zero, abs_of_nonpos (by linarith),
      abs_of_nonpos (by linarith)]
    linarith

/-- As a function of the squared angle the cosine has Lipschitz constant 1/2. -/
theorem abs_cos_sub_cos_le_sq (a b : ℝ) : |Real.cos a - Real.cos b| ≤ |a ^ 2 - b ^ 2| / 2 := by
  have hsum := Real.abs_sin_le_abs (x := (a + b) / 2)
  have hdiff := Real.abs_sin_le_abs (x := (a - b) / 2)
  calc |Real.cos a - Real.cos b|
      = 2 * (|Real.sin ((a + b) / 2)| * |Real.sin ((a - b) / 2)|) := by
        rw [Real.cos_sub_cos, abs_mul, abs_mul, abs_neg, abs_two, mul_assoc]
    _ ≤ 2 * (|(a + b) / 2| * |(a - b) / 2|) := by gcongr
    _ = |a ^ 2 - b ^ 2| / 2 := by
        rw [← abs_mul, ← abs_two (α := ℝ), ← abs_mul, ← abs_div, abs_two]
        congr 1
        ring

theorem piFixed_near : |(piFixed : ℝ) / 2 ^ 128 - Real.pi| ≤ 1 / 10 ^ 20 := by
  have hlow := Real.pi_gt_d20
  have hhigh := Real.pi_lt_d20
  rw [piFixed, abs_le]
  norm_num at hlow hhigh ⊢
  constructor <;> linarith

/-- The angle `2πn/size` of the generator, rounded down. -/
def thetaFixed (size n : Nat) : Nat := 2 * piFixed * n / size

/-- Its square, rounded down. -/
def thetaSq (size n : Nat) : Nat := thetaFixed size n * thetaFixed size n / 2 ^ hannBits

theorem versineFixed_eq (size n : Nat) : versineFixed size n =
    (versineSums (thetaSq size n) 28 1 (thetaSq size n / 2)).1 -
      (versineSums (thetaSq size n) 28 1 (thetaSq size n / 2)).2 := rfl

theorem thetaFixed_near {size n : Nat} {u : ℝ} (hu : u = 2 * n / size) :
    |thetaFixed size n / 2 ^ 128 - Real.pi * u| ≤ 1 / 10 ^ 20 * u + 1 / 2 ^ 128 := by
  have hu0 : 0 ≤ u := hu ▸ by positivity
  have hfloor := abs_natDiv_sub_le (2 * piFixed * n) size
  have hpi : |(piFixed / 2 ^ 128 - Real.pi) * u| ≤ 1 / 10 ^ 20 * u := by
    rw [abs_mul, abs_of_nonneg hu0]
    exact mul_le_mul_of_nonneg_right piFixed_near hu0
  have hscale : ((2 * piFixed * n : Nat) : ℝ) / size = piFixed * u := by
    rw [hu]; push_cast; ring
  rw [hscale] at hfloor
  rw [thetaFixed]
  rw [abs_le] at hpi hfloor ⊢
  constructor <;> linarith

theorem thetaSq_near {size n : Nat} {u : ℝ} (hu : u = 2 * n / size) (hu1 : u ≤ 1) :
    |thetaSq size n / 2 ^ 128 - (Real.pi * u) ^ 2| ≤ 7 / 10 ^ 20 * u ^ 2 + 10 / 2 ^ 128 := by
  have hu0 : 0 ≤ u := hu ▸ by positivity
  have hfloor := abs_natDiv_sub_le (thetaFixed size n * thetaFixed size n) (2 ^ hannBits)
  have hnear := thetaFixed_near hu
  obtain ⟨t, ht⟩ : ∃ t : ℝ, t = thetaFixed size n / 2 ^ 128 := ⟨_, rfl⟩
  have hsum : |t + Real.pi * u| ≤ 7 * u + 1 / 2 ^ 128 := by
    have hpi : Real.pi * u ≤ 3.15 * u := mul_le_mul_of_nonneg_right Real.pi_lt_d2.le hu0
    have hpi0 : 0 ≤ Real.pi * u := mul_nonneg Real.pi_pos.le hu0
    rw [← ht, abs_le] at hnear
    rw [abs_le]
    constructor <;> linarith
  have hsquare : |t ^ 2 - (Real.pi * u) ^ 2| ≤ 7 / 10 ^ 20 * u ^ 2 + 9 / 2 ^ 128 := by
    rw [sq_sub_sq, abs_mul]
    rw [← ht] at hnear
    refine (mul_le_mul hsum hnear (abs_nonneg _) (by positivity)).trans ?_
    linarith
  have hround : |thetaSq size n / 2 ^ 128 - t ^ 2| ≤ 1 / 2 ^ 128 := by
    have hscale : ((thetaFixed size n * thetaFixed size n : Nat) : ℝ) / (2 ^ hannBits : Nat) =
        2 ^ 128 * t ^ 2 := by
      rw [ht, show hannBits = 128 from rfl]; push_cast; ring
    rw [hscale] at hfloor
    rw [thetaSq]
    rw [abs_le] at hfloor ⊢
    constructor <;> linarith
  refine (abs_sub_le _ (t ^ 2) _).trans ?_
  linarith

theorem thetaSq_le {size n : Nat} (hn : 2 * n ≤ size) : (thetaSq size n : ℝ) / 2 ^ 128 ≤ 10 := by
  have htheta : thetaFixed size n ≤ piFixed :=
    Nat.div_le_of_le_mul (by nlinarith)
  have hsq : thetaSq size n ≤ 10 * 2 ^ 128 :=
    (Nat.div_le_div_right (Nat.mul_le_mul htheta htheta)).trans (by rw [piFixed]; norm_num)
  rw [div_le_iff₀ (by positivity)]
  exact_mod_cast hsq

theorem versineFixed_near {size n : Nat} {u : ℝ} (hu : u = 2 * n / size) (hn : 2 * n ≤ size) :
    |versineFixed size n - 2 ^ 128 * (1 - Real.cos (Real.pi * u))| ≤
      2 ^ 128 * (4 / 10 ^ 20 * u ^ 2) + 2 ^ 9 := by
  have hu1 : u ≤ 1 := hu ▸ div_le_one_of_le₀ (by exact_mod_cast hn) (by positivity)
  have hx10 := thetaSq_le hn
  have hangle := thetaSq_near hu hu1
  obtain ⟨r, hr⟩ : ∃ r : ℝ, r ^ 2 = thetaSq size n / 2 ^ 128 :=
    ⟨_, Real.sq_sqrt (by positivity)⟩
  have hfirst : |((thetaSq size n / 2 : Nat) : ℝ) -
      2 ^ 128 * versineTerm (thetaSq size n / 2 ^ 128) 1| ≤ 6 := by
    have hhalf := abs_natDiv_sub_le (thetaSq size n) 2
    have hexact : 2 ^ 128 * versineTerm (thetaSq size n / 2 ^ 128) 1 =
        (thetaSq size n : ℝ) / (2 : Nat) := by
      rw [versineTerm]; norm_num [Nat.factorial]; ring
    rw [hexact]
    linarith
  have hsums := versineSums_near hx10 28 1 _ le_rfl hfirst
  have hseries := versineSeries_near (hr.trans_le hx10)
  have hcos := abs_cos_sub_cos_le_sq r (Real.pi * u)
  rw [hr] at hseries hcos
  rw [versineFixed_eq]
  refine (abs_natSub_sub_le (mul_nonneg (by positivity)
    (sub_nonneg.2 (Real.cos_le_one _)))).trans ?_
  rw [abs_le] at hsums hseries hcos ⊢
  constructor <;> linarith

end Sys2Proof.Machine
end

section
/-! PROOF. The nearest word: what rounds to one word, and when that word is the nearest one to a
real number that is known only approximately. -/

namespace Sys2Proof.Binary32

/-! ### The cells of the rounding

Between two neighbouring multiples of half a quantum lies no middle of two magnitudes, so everything
there rounds to one magnitude. -/

/-- The enclosing magnitudes determine the result. -/
theorem roundUnits_eq_nearer {t num den : Nat} (hd : 0 < den) (hlo : magUnits t * den ≤ num)
    (hhi : num < magUnits (t + 1) * den) : roundUnits num den = min (nearer t num den) infBits := by
  obtain ⟨t', hlo', hhi', hround⟩ := roundUnits_bracket num den hd
  have hle : ∀ {a b : Nat}, magUnits a * den ≤ num → num < magUnits (b + 1) * den → a ≤ b :=
    fun ha hb => Nat.le_of_lt_succ
      (magUnits_strictMono.lt_iff_lt.1 (Nat.lt_of_mul_lt_mul_right (ha.trans_lt hb)))
  rw [hround, le_antisymm (hle hlo' hhi) (hle hlo hhi')]

/-- `x` lies strictly inside the half-quantum cell number `c` of width 2^k, with room `room` on both
sides. The bounds on `c` say that 2^(k+1) is the quantum of the numbers in the cell. -/
def InCell (room k c x : Nat) : Prop :=
  2 ^ 24 ≤ c ∧ c < 2 ^ 25 ∧ c * 2 ^ k + room < x ∧ x + room < (c + 1) * 2 ^ k

/-- The numbers of one cell, in units of 2^-129, have one rounding. -/
theorem roundUnits_of_inCell {room k c x : Nat} (h : InCell room k c x) :
    roundUnits (x * 2 ^ 149) (2 ^ 129) = min ((k + 21) * 2 ^ 23 + (c + 1) / 2) infBits := by
  obtain ⟨hc24, hc25, hlo, hhi⟩ := h
  obtain ⟨m, b, hb, rfl⟩ : ∃ m b, b < 2 ∧ c = 2 * m + b := ⟨c / 2, c % 2, by omega, by omega⟩
  obtain ⟨w, hw⟩ : ∃ w, w = 2 ^ k * 2 ^ 149 := ⟨_, rfl⟩
  have hquantum : ∀ n, 2 ^ 23 ≤ n → n ≤ 2 ^ 24 →
      magUnits ((k + 21) * 2 ^ 23 + n) * 2 ^ 129 = 2 * (n * w) := fun n h23 h24 => by
    rw [magUnits_quantum _ _ h24 (.inr h23), hw]; ring
  obtain ⟨t, ht⟩ : ∃ t, t = (k + 21) * 2 ^ 23 + m := ⟨_, rfl⟩
  have hlow : magUnits t * 2 ^ 129 = 2 * (m * w) := ht ▸ hquantum m (by omega) (by omega)
  have hhigh : magUnits (t + 1) * 2 ^ 129 = 2 * ((m + 1) * w) := by
    rw [ht, add_assoc]; exact hquantum (m + 1) (by omega) (by omega)
  have hxlow : (2 * m + b) * w < x * 2 ^ 149 := by
    rw [hw, ← mul_assoc]
    exact Nat.mul_lt_mul_of_pos_right (by omega) (by positivity)
  have hxhigh : x * 2 ^ 149 < (2 * m + b + 1) * w := by
    rw [hw, ← mul_assoc]
    exact Nat.mul_lt_mul_of_pos_right (by omega) (by positivity)
  simp only [add_mul, mul_assoc, one_mul] at hxlow hxhigh hhigh
  obtain rfl | rfl : b = 0 ∨ b = 1 := by omega
  all_goals
    rw [roundUnits_eq_nearer (t := t) (by positivity) (by omega) (by omega), nearer, hlow, hhigh]
    congr 1
    split_ifs <;> omega

/-! ### Nearest words -/

/-- `w` is finite and no finite word is nearer to the real number `x`. -/
def IsNearestWord (w : Word) (x : ℝ) : Prop :=
  isFinite w = true ∧ ∀ v : Word, isFinite v = true →
    |((value w : ℚ) : ℝ) - x| ≤ |((value v : ℚ) : ℝ) - x|

theorem isNearestWord_of_value {w : Word} {x : ℝ} (hw : isFinite w = true)
    (h : ((value w : ℚ) : ℝ) = x) : IsNearestWord w x :=
  ⟨hw, fun v _ => by rw [h, sub_self, abs_zero]; exact abs_nonneg _⟩

theorem isNearestWord_round {x : Nat} (hx : x < 2 ^ 130) :
    IsNearestWord (round false (x * 2 ^ 149) (2 ^ 129)) (x / 2 ^ 129) := by
  have hbound : x * 2 ^ 149 < overflowUnits * 2 ^ 129 := by
    rw [overflowUnits]; omega
  constructor
  · rw [isFinite, magBits_round, decide_eq_true_eq]
    exact ((roundingIsNearestTiesToEven _ _ (by positivity)).1 hbound).1
  · intro v hv
    have hnear := (round_isNearest false _ _ (by positivity) hbound v hv).1
    have hunits : ofUnits (x * 2 ^ 149) (2 ^ 129) = x / 2 ^ 129 := by
      rw [ofUnits]; push_cast; field_simp; ring
    rw [signed_false, hunits] at hnear
    simpa using (Rat.cast_le (K := ℝ)).2 hnear

/-- Which of two numbers is nearer to `x` depends on the side of their middle alone. -/
theorem abs_sub_le_abs_sub_iff (a b x : ℝ) : |a - x| ≤ |b - x| ↔ 0 ≤ (b - a) * (a + b - 2 * x) := by
  rw [← sq_le_sq, ← sub_nonneg]
  ring_nf

theorem IsNearestWord.of_between {w : Word} {lo hi x : ℝ} (hlo : IsNearestWord w lo)
    (hhi : IsNearestWord w hi) (hlox : lo ≤ x) (hxhi : x ≤ hi) : IsNearestWord w x := by
  obtain ⟨hfin, hlo⟩ := hlo
  obtain ⟨-, hhi⟩ := hhi
  refine ⟨hfin, fun v hv => ?_⟩
  have hlo := (abs_sub_le_abs_sub_iff _ _ _).1 (hlo v hv)
  have hhi := (abs_sub_le_abs_sub_iff _ _ _).1 (hhi v hv)
  rw [abs_sub_le_abs_sub_iff]
  rcases le_total (value w : ℝ) (value v) with h | h
  · exact hhi.trans (mul_le_mul_of_nonneg_left (by linarith) (sub_nonneg.2 h))
  · exact hlo.trans (mul_le_mul_of_nonpos_left (by linarith) (sub_nonpos.2 h))

theorem InCell.of_near {room k c v x : Nat} (h : InCell room k c v) (hx : |(x : ℝ) - v| ≤ room) :
    InCell 0 k c x := by
  obtain ⟨hc24, hc25, hlo, hhi⟩ := h
  rw [abs_sub_le_iff, sub_le_iff_le_add, sub_le_iff_le_add] at hx
  obtain ⟨habove, hbelow⟩ : x ≤ room + v ∧ v ≤ room + x := by exact_mod_cast hx
  exact ⟨hc24, hc25, by omega, by omega⟩

/-- Two approximations of one number that stay in one cell: the rounding of the first is the nearest
word to the number. -/
theorem isNearestWord_of_inCell {room k c v x : Nat} {y : ℝ} (hv : v ≤ 2 ^ 129)
    (hcell : InCell room k c v) (hx : |(x : ℝ) - v| ≤ room) (hy : |y - v| ≤ room) :
    IsNearestWord (round false (x * 2 ^ 149) (2 ^ 129)) (y / 2 ^ 129) := by
  have hround : ∀ z : Nat, |(z : ℝ) - v| ≤ room → z < 2 ^ 130 →
      IsNearestWord (round false (x * 2 ^ 149) (2 ^ 129)) (z / 2 ^ 129) := fun z hz hz' => by
    have hsame : round false (x * 2 ^ 149) (2 ^ 129) = round false (z * 2 ^ 149) (2 ^ 129) := by
      rw [round, roundUnits_of_inCell (hcell.of_near hx), round,
        roundUnits_of_inCell (hcell.of_near hz)]
    rw [hsame]
    exact isNearestWord_round hz'
  obtain ⟨-, -, hlo, -⟩ := hcell
  have hroom : room ≤ v := by omega
  have hlow := hround (v - room) (by rw [Nat.cast_sub hroom]; simp) (by omega)
  have hhigh := hround (v + room) (by simp) (by omega)
  rw [Nat.cast_sub hroom] at hlow
  rw [Nat.cast_add] at hhigh
  rw [abs_le] at hy
  refine hlow.of_between hhigh ?_ ?_ <;> gcongr <;> linarith

end Sys2Proof.Binary32
end

section
/-! PROOF. Every window coefficient is the nearest word (40_control.md R411).

That no coefficient of the window of 2^16 words is too near the middle of two neighbouring words has
no reason but the numbers themselves, so it is computed: the recurrence
`1 − cos (m+2)α = 2(1 − cos (m+1)α) + 2(1 − cos α) cos (m+1)α − (1 − cos mα)` gives all of them with
one product each, and each is held to lie well inside a cell of the rounding. The angles up to a
quarter turn are enough, since the coefficients above it are 1 minus those below. -/

namespace Sys2Proof.Machine

open Sys2Proof.Binary32

/-! ### The error of the recurrence -/

/-- The defects of the recurrence of `cos mα` add up at most quadratically: `e (m+1) − ω e m` with
`ω = exp iα` turns by `−α` in each step and takes up one defect. -/
theorem recurrence_error {e : Nat → ℝ} {α δ ρ : ℝ} {M : Nat} (h0 : e 0 = 0) (h1 : |e 1| ≤ δ)
    (hstep : ∀ m < M, |e (m + 2) - 2 * Real.cos α * e (m + 1) + e m| ≤ ρ) (m : Nat) (hm : m ≤ M) :
    |e (m + 1)| ≤ (m + 1) * (δ + m * ρ) := by
  obtain ⟨ω, hω⟩ : ∃ ω, ω = Complex.exp (α * Complex.I) := ⟨_, rfl⟩
  have hnorm : ‖ω‖ = 1 := hω ▸ Complex.norm_exp_ofReal_mul_I α
  have hne : ω ≠ 0 := hω ▸ Complex.exp_ne_zero _
  have hcos : 2 * Complex.cos α = ω + ω⁻¹ := by
    rw [hω, ← Complex.exp_neg, Complex.two_cos, neg_mul]
  have hturn : ∀ m ≤ M, ‖(e (m + 1) : ℂ) - ω * e m‖ ≤ δ + m * ρ := fun m hm => by
    induction m with
    | zero => simpa [h0] using h1
    | succ m ih =>
      have hnext : (e (m + 2) : ℂ) - ω * e (m + 1) = ω⁻¹ * (e (m + 1) - ω * e m) +
          ((e (m + 2) - 2 * Real.cos α * e (m + 1) + e m : ℝ) : ℂ) := by
        push_cast
        rw [hcos]
        field_simp
        ring
      have hdefect := hstep m (by omega)
      rw [← Real.norm_eq_abs, ← Complex.norm_real] at hdefect
      rw [hnext]
      refine (norm_add_le _ _).trans ?_
      rw [norm_mul, norm_inv, hnorm, inv_one, one_mul, Nat.cast_succ]
      linarith [ih (by omega)]
  induction m with
  | zero => simpa using h1
  | succ m ih =>
    have hsplit : (e (m + 2) : ℂ) = (e (m + 2) - ω * e (m + 1)) + ω * e (m + 1) := by ring
    have hturn := hturn (m + 1) hm
    have hprev := ih (by omega)
    have hδ := (abs_nonneg _).trans h1
    have hρ := (abs_nonneg _).trans (hstep m (by omega))
    rw [← Real.norm_eq_abs, ← Complex.norm_real, hsplit]
    refine (norm_add_le _ _).trans ?_
    rw [norm_mul, hnorm, one_mul, Complex.norm_real, Real.norm_eq_abs]
    push_cast at hturn ⊢
    nlinarith

/-! ### The computed versines

The functions of Nat are applied as such: the kernel computes them on numerals at once. -/

/-- `f x`, with `x` taken apart first, so that the kernel goes on with a numeral. -/
def withValue {α : Type} (x : Nat) (f : Nat → α) : α :=
  match x with
  | 0 => f 0
  | n + 1 => f n.succ

@[simp] theorem withValue_eq {α : Type} (x : Nat) (f : Nat → α) : withValue x f = f x := by
  cases x <;> rfl

/-- `1 − cos α` for the least angle of the window of 2^16 words, in units of 2^-128. -/
def firstVersine : Nat := 1563901241684092120060409202330

theorem versineFixed_one : versineFixed (2 ^ 16) 1 = firstVersine := by decide +kernel

/-- One step of the recurrence. -/
def nextVersine (prev cur : Nat) : Nat :=
  ((cur.add cur).add ((firstVersine.mul ((Nat.shiftLeft 1 128).sub cur)).shiftRight 127)).sub prev

/-- The computed `1 − cos mα`. -/
def versineSeq : Nat → Nat
  | 0 => 0
  | 1 => firstVersine
  | m + 2 => nextVersine (versineSeq m) (versineSeq (m + 1))

/-- Both neighbours of `v` at the distance 2^67 lie in one cell of width `w`. -/
def sameCell (w v : Nat) : Bool :=
  ((v.sub (Nat.shiftLeft 1 67)).div w).beq ((v.add (Nat.shiftLeft 1 67)).div w)

/-- `v` lies well inside a cell whose width is half the quantum of `v`. The quantum is sought from
the binade below 2^(fuel + 25) downwards. -/
def clearOfMiddles (v : Nat) : Nat → Bool
  | 0 => false
  | k + 1 =>
    bif (Nat.shiftLeft 1 (k.add 25)).ble v then sameCell (Nat.shiftLeft 2 k) v
    else clearOfMiddles v k

/-- What is required of two neighbours of the sequence: they are in order and at most 1, and the
second and its complement to 2 are clear of the middles. -/
def admissible (prev cur : Nat) : Bool :=
  prev.ble cur && cur.ble (Nat.shiftLeft 1 128) && clearOfMiddles cur 104 &&
    clearOfMiddles ((Nat.shiftLeft 1 129).sub cur) 104

/-- The requirement at `steps` neighbours of the sequence, from two given ones on. -/
def sweep : Nat → Nat → Nat → Bool
  | 0, _, _ => true
  | steps + 1, prev, cur =>
    admissible prev cur && withValue (nextVersine prev cur) fun next => sweep steps cur next

/-- All angles below a quarter turn. -/
theorem sweep_quarter : sweep 16383 0 firstVersine = true := by decide +kernel

theorem admissible_of_sweep {steps m : Nat}
    (h : sweep steps (versineSeq m) (versineSeq (m + 1)) = true) :
    ∀ i < steps, admissible (versineSeq (m + i)) (versineSeq (m + i + 1)) = true := by
  induction steps generalizing m with
  | zero => intro i hi; omega
  | succ steps ih =>
    rw [sweep, withValue_eq, Bool.and_eq_true] at h
    obtain ⟨hfirst, hrest⟩ := h
    intro i hi
    cases i with
    | zero => exact hfirst
    | succ i =>
      rw [show m + (i + 1) = m + 1 + i by ring]
      exact ih hrest i (by omega)

theorem versineSeq_admissible {m : Nat} (hm : m < 16383) :
    admissible (versineSeq m) (versineSeq (m + 1)) = true := by
  have h := admissible_of_sweep (m := 0) sweep_quarter m hm
  rwa [Nat.zero_add] at h

theorem inCell_of_sameCell {k v : Nat} (hlo : 2 ^ (k + 24) ≤ v) (hhi : v < 2 ^ (k + 25))
    (h : sameCell (2 ^ k) v = true) : ∃ c, InCell (2 ^ 66) k c v := by
  have hsame : (v - 2 ^ 67) / 2 ^ k = (v + 2 ^ 67) / 2 ^ k := Nat.eq_of_beq_eq_true h
  have hpos := Nat.two_pow_pos k
  have hc24 : 2 ^ 24 ≤ (v - 2 ^ 67) / 2 ^ k := by
    rw [hsame, Nat.le_div_iff_mul_le hpos, ← pow_add, add_comm 24]
    omega
  have hc25 : (v - 2 ^ 67) / 2 ^ k < 2 ^ 25 := by
    rw [Nat.div_lt_iff_lt_mul hpos, ← pow_add, add_comm 25]
    omega
  have hlow := Nat.div_mul_le_self (v - 2 ^ 67) (2 ^ k)
  have hhigh := Nat.lt_mul_div_succ (v + 2 ^ 67) hpos
  have hinside : 2 ^ 24 * 2 ^ k ≤ (v - 2 ^ 67) / 2 ^ k * 2 ^ k :=
    Nat.mul_le_mul_right _ hc24
  rw [← hsame, mul_comm] at hhigh
  exact ⟨_, hc24, hc25, by omega, by omega⟩

theorem inCell_of_clearOfMiddles {v fuel : Nat} (hv : v < 2 ^ (fuel + 25))
    (h : clearOfMiddles v fuel = true) : ∃ k c, InCell (2 ^ 66) k c v := by
  induction fuel with
  | zero => cases h
  | succ k ih =>
    have hpow : Nat.shiftLeft 1 (k.add 25) = 2 ^ (k + 25) := Nat.one_shiftLeft _
    have hwidth : Nat.shiftLeft 2 k = 2 ^ (k + 1) := by
      rw [pow_succ']; exact Nat.shiftLeft_eq 2 k
    rw [clearOfMiddles, hpow, hwidth] at h
    by_cases hbinade : 2 ^ (k + 25) ≤ v
    · rw [Nat.ble_eq_true_of_le hbinade, cond_true] at h
      exact ⟨k + 1, inCell_of_sameCell (by rwa [add_right_comm]) hv h⟩
    · rw [Bool.eq_false_iff.2 (mt Nat.le_of_ble_eq_true hbinade), cond_false] at h
      exact ih (by omega) h

theorem admissible_spec {prev cur : Nat} (h : admissible prev cur = true) :
    prev ≤ cur ∧ cur ≤ 2 ^ 128 ∧ (∃ k c, InCell (2 ^ 66) k c cur) ∧
      ∃ k c, InCell (2 ^ 66) k c (2 ^ 129 - cur) := by
  simp only [admissible, Bool.and_eq_true] at h
  obtain ⟨⟨⟨horder, hone⟩, hclear⟩, hclear'⟩ := h
  have hone : cur ≤ 2 ^ 128 := Nat.le_of_ble_eq_true hone
  have hcell := inCell_of_clearOfMiddles (by omega) hclear
  have hpos : 0 < cur := by
    obtain ⟨k, c, -, -, hlo, -⟩ := hcell
    omega
  have hcompl : (Nat.shiftLeft 1 129).sub cur < 2 ^ (104 + 25) := Nat.sub_lt (by decide) hpos
  exact ⟨Nat.le_of_ble_eq_true horder, hone, hcell, inCell_of_clearOfMiddles hcompl hclear'⟩

end Sys2Proof.Machine
end

section
/-! PROOF. The window of 2^16 words, and with it every window, is correctly rounded: the computed
versines and those of the generator are both near the real ones. -/

namespace Sys2Proof.Machine

open Sys2Proof.Binary32

/-- `1 − cos(2πn/2^16)`. -/
noncomputable def idealVersine (n : Nat) : ℝ := 1 - Real.cos (Real.pi * (2 * n / (2 ^ 16 : Nat)))

theorem versineFixed_near_idealVersine {n : Nat} (hn : n ≤ 2 ^ 15) :
    |(versineFixed (2 ^ 16) n : ℝ) - 2 ^ 128 * idealVersine n| ≤ 2 ^ 64 := by
  have hu1 : (2 * n / (2 ^ 16 : Nat) : ℝ) ≤ 1 := by
    rw [div_le_one (by positivity)]; exact_mod_cast (by omega : 2 * n ≤ 2 ^ 16)
  have hu2 := pow_le_one₀ (n := 2) (by positivity) hu1
  refine (versineFixed_near rfl (by omega)).trans ?_
  linarith

/-- The least angle is much better known than the others. -/
theorem firstVersine_near : |(firstVersine : ℝ) - 2 ^ 128 * idealVersine 1| ≤ 2 ^ 34 := by
  have h := versineFixed_near (size := 2 ^ 16) (n := 1) rfl (by decide)
  rw [versineFixed_one] at h
  exact h.trans (by norm_num)

/-! ### The computed versines are near the real ones -/

/-- The least angle of the window of 2^16 words. -/
noncomputable def leastAngle : ℝ := Real.pi * (2 / (2 ^ 16 : Nat))

theorem idealVersine_eq (n : Nat) : idealVersine n = 1 - Real.cos (n * leastAngle) := by
  rw [idealVersine, leastAngle]
  ring_nf

theorem idealVersine_one : idealVersine 1 = 1 - Real.cos leastAngle := by
  rw [idealVersine_eq, Nat.cast_one, one_mul]

theorem idealVersine_recurrence (m : Nat) :
    idealVersine (m + 2) - 2 * Real.cos leastAngle * idealVersine (m + 1) + idealVersine m =
      2 * idealVersine 1 := by
  have hnext : ((m + 2 : Nat) : ℝ) * leastAngle = (m + 1 : Nat) * leastAngle + leastAngle := by
    push_cast; ring
  have hprev : (m : ℝ) * leastAngle = (m + 1 : Nat) * leastAngle - leastAngle := by
    push_cast; ring
  rw [idealVersine_one, idealVersine_eq, idealVersine_eq, idealVersine_eq, hnext, hprev,
    Real.cos_add, Real.cos_sub]
  ring

theorem nextVersine_eq (prev cur : Nat) : nextVersine prev cur =
    2 * cur + firstVersine * (2 ^ 128 - cur) / 2 ^ 127 - prev := by
  have hone : Nat.shiftLeft 1 128 = 2 ^ 128 := Nat.one_shiftLeft 128
  rw [nextVersine, hone, two_mul, ← Nat.shiftRight_eq_div_pow]
  rfl

/-- The defect of one computed step: the rounding of its product, and the error of its factor. -/
theorem nextVersine_near {prev cur : Nat} (horder : prev ≤ cur) (hone : cur ≤ 2 ^ 128) :
    |(nextVersine prev cur : ℝ) - 2 * Real.cos leastAngle * cur + prev -
      2 ^ 128 * (2 * idealVersine 1)| ≤ 2 ^ 36 := by
  have hcur : (cur : ℝ) ≤ 2 ^ 128 := by exact_mod_cast hone
  obtain ⟨s, hs⟩ : ∃ s : ℝ, s = (2 ^ 128 - cur) / 2 ^ 128 := ⟨_, rfl⟩
  have hs0 : 0 ≤ s := hs ▸ div_nonneg (sub_nonneg.2 hcur) (by positivity)
  have hs1 : s ≤ 1 := hs ▸ div_le_one_of_le₀ (sub_le_self _ (Nat.cast_nonneg _)) (by positivity)
  have hcur' : (cur : ℝ) = 2 ^ 128 * (1 - s) := by rw [hs]; field_simp; ring
  obtain ⟨p, hp⟩ : ∃ p, p = firstVersine * (2 ^ 128 - cur) / 2 ^ 127 := ⟨_, rfl⟩
  have hround : |(p : ℝ) - 2 * firstVersine * s| ≤ 1 := by
    have hfloor := abs_natDiv_sub_le (firstVersine * (2 ^ 128 - cur)) (2 ^ 127)
    have hexact : ((firstVersine * (2 ^ 128 - cur) : Nat) : ℝ) / (2 ^ 127 : Nat) =
        2 * firstVersine * s := by
      rw [Nat.cast_mul, Nat.cast_sub hone, hs]; push_cast; ring
    rwa [hexact, ← hp] at hfloor
  have hfactor : |2 * (s * (firstVersine - 2 ^ 128 * idealVersine 1))| ≤ 2 * (1 * 2 ^ 34) := by
    rw [abs_mul, abs_two, abs_mul, abs_of_nonneg hs0]
    gcongr
    exact firstVersine_near
  have hsplit : (nextVersine prev cur : ℝ) - 2 * Real.cos leastAngle * cur + prev -
      2 ^ 128 * (2 * idealVersine 1) =
        (p - 2 * firstVersine * s) + 2 * (s * (firstVersine - 2 ^ 128 * idealVersine 1)) := by
    have hcos : Real.cos leastAngle = 1 - idealVersine 1 := by rw [idealVersine_one]; ring
    rw [nextVersine_eq, ← hp, Nat.cast_sub (by omega), Nat.cast_add, Nat.cast_mul, hcos, hcur']
    push_cast
    ring
  rw [hsplit]
  exact (abs_add_le _ _).trans ((add_le_add hround hfactor).trans (by norm_num))

/-- The error of the computed versine. -/
noncomputable def versineError (m : Nat) : ℝ := versineSeq m - 2 ^ 128 * idealVersine m

theorem versineSeq_near {n : Nat} (hn : 1 ≤ n) (hn' : n ≤ 16383) :
    |(versineSeq n : ℝ) - 2 ^ 128 * idealVersine n| ≤ 2 ^ 65 := by
  have hdefect : ∀ m < 16382, |versineError (m + 2) -
      2 * Real.cos leastAngle * versineError (m + 1) + versineError m| ≤ 2 ^ 36 := fun m hm => by
    obtain ⟨horder, hone, -⟩ := admissible_spec (versineSeq_admissible (m := m) (by omega))
    have hstep := nextVersine_near horder hone
    rw [← idealVersine_recurrence m] at hstep
    convert hstep using 2
    rw [versineError, versineError, versineError, versineSeq]
    ring
  have h0 : versineError 0 = 0 := by simp [versineError, versineSeq, idealVersine]
  obtain ⟨m, rfl⟩ : ∃ m, n = m + 1 := ⟨n - 1, by omega⟩
  have hm : (m : ℝ) ≤ 16382 := by exact_mod_cast (by omega : m ≤ 16382)
  refine (recurrence_error h0 firstVersine_near hdefect m (by omega)).trans ?_
  nlinarith

/-! ### The coefficients -/

theorem hann_lower {n : Nat} (hn : n ≤ 2 ^ 15) :
    hann (2 ^ 16) n = round false (versineFixed (2 ^ 16) n * 2 ^ 149) (2 ^ 129) := by
  rw [hann, Nat.min_eq_left (by omega)]

/-- A coefficient whose versine is known within 2^65 units inside a cell. -/
theorem hann_isNearest_of_inCell {n v k c : Nat} (hn : n ≤ 2 ^ 15) (hv : v ≤ 2 ^ 129)
    (hcell : InCell (2 ^ 66) k c v) (hnear : |(v : ℝ) - 2 ^ 128 * idealVersine n| ≤ 2 ^ 65) :
    IsNearestWord (hann (2 ^ 16) n) (idealVersine n / 2) := by
  have hgen := versineFixed_near_idealVersine hn
  have hnear' : |2 ^ 128 * idealVersine n - v| ≤ 2 ^ 65 := (abs_sub_comm _ _).trans_le hnear
  have hdist : |(versineFixed (2 ^ 16) n : ℝ) - v| ≤ (2 ^ 66 : Nat) := by
    exact (abs_sub_le _ _ _).trans ((add_le_add hgen hnear').trans (by norm_num))
  have h := isNearestWord_of_inCell hv hcell hdist (hnear'.trans (by norm_num))
  rw [hann_lower hn]
  convert h using 1
  ring

theorem idealVersine_complement {n : Nat} (hn : n ≤ 2 ^ 15) :
    idealVersine (2 ^ 15 - n) = 2 - idealVersine n := by
  have hangle : Real.pi * (2 * (2 ^ 15 - n : Nat) / (2 ^ 16 : Nat)) =
      Real.pi - Real.pi * (2 * n / (2 ^ 16 : Nat)) := by
    rw [Nat.cast_sub hn]; push_cast; ring
  rw [idealVersine, idealVersine, hangle, Real.cos_pi_sub]
  ring

theorem idealVersine_symm {n : Nat} (hn : n ≤ 2 ^ 16) :
    idealVersine (2 ^ 16 - n) = idealVersine n := by
  have hangle : Real.pi * (2 * (2 ^ 16 - n : Nat) / (2 ^ 16 : Nat)) =
      2 * Real.pi - Real.pi * (2 * n / (2 ^ 16 : Nat)) := by
    rw [Nat.cast_sub hn]; push_cast; ring
  rw [idealVersine, idealVersine, hangle, Real.cos_two_pi_sub]

theorem idealVersine_start : idealVersine 0 = 0 := by simp [idealVersine]

theorem idealVersine_middle : idealVersine (2 ^ 15) = 2 := by
  have h := idealVersine_complement le_rfl
  rw [Nat.sub_self, idealVersine_start] at h
  linarith

theorem idealVersine_quarter : idealVersine (2 ^ 14) = 1 := by
  have h := idealVersine_complement (n := 2 ^ 14) (by decide)
  rw [show 2 ^ 15 - 2 ^ 14 = 2 ^ 14 by decide] at h
  linarith

/-- A word without sign, by its magnitude. -/
theorem value_of_magUnits {w : Word} {u : Nat} (hs : signBit w = false)
    (hu : magUnits (magBits w) = u) : value w = u / 2 ^ 149 := by
  rw [value_eq_signed, hs, hu, signed_false, ofUnits, Nat.cast_one, div_one]

theorem value_half : value 0x3F000000#32 = 1 / 2 := by
  have hmag : magUnits (magBits 0x3F000000#32) = 2 ^ 148 := by decide +kernel
  rw [value_of_magUnits (by decide) hmag]
  norm_num

theorem value_one : value one = 1 := by
  rw [value_of_magUnits (by decide) magUnits_one]
  norm_num

theorem hann_isNearest_below_quarter {n : Nat} (hn : 1 ≤ n) (hn' : n < 2 ^ 14) :
    IsNearestWord (hann (2 ^ 16) n) (idealVersine n / 2) := by
  obtain ⟨m, rfl⟩ : ∃ m, n = m + 1 := ⟨n - 1, by omega⟩
  obtain ⟨-, hone, ⟨k, c, hcell⟩, -⟩ := admissible_spec (versineSeq_admissible (m := m) (by omega))
  exact hann_isNearest_of_inCell (by omega) (by omega) hcell (versineSeq_near hn (by omega))

theorem hann_isNearest_above_quarter {n : Nat} (hn : 2 ^ 14 < n) (hn' : n < 2 ^ 15) :
    IsNearestWord (hann (2 ^ 16) n) (idealVersine n / 2) := by
  obtain ⟨m, hm, rfl⟩ : ∃ m < 16383, n = 2 ^ 15 - (m + 1) := ⟨2 ^ 15 - n - 1, by omega, by omega⟩
  obtain ⟨-, hone, -, k, c, hcell⟩ := admissible_spec (versineSeq_admissible hm)
  have hnear := versineSeq_near (n := m + 1) (by omega) (by omega)
  refine hann_isNearest_of_inCell hn'.le (Nat.sub_le ..) hcell ?_
  rw [idealVersine_complement (by omega), Nat.cast_sub (hone.trans (by norm_num)), ← abs_neg]
  convert hnear using 2
  push_cast
  ring

theorem hann_isNearest_largest {n : Nat} (hn : n ≤ 2 ^ 16) :
    IsNearestWord (hann (2 ^ 16) n) (idealVersine n / 2) := by
  wlog hhalf : n ≤ 2 ^ 15 generalizing n
  · rw [hann_symm hn, ← idealVersine_symm hn]
    exact this (Nat.sub_le ..) (by omega)
  rcases lt_trichotomy n (2 ^ 14) with hlt | rfl | hgt
  · rcases Nat.eq_zero_or_pos n with rfl | hpos
    · rw [hann_start, idealVersine_start]
      exact isNearestWord_of_value (by decide) (by rw [Reference.value_posZero]; norm_num)
    · exact hann_isNearest_below_quarter hpos hlt
  · rw [hann_quarter, idealVersine_quarter]
    exact isNearestWord_of_value (by decide) (by rw [value_half]; norm_num)
  · rcases hhalf.lt_or_eq with hlt | rfl
    · exact hann_isNearest_above_quarter hgt hlt
    · rw [hann_middle, idealVersine_middle]
      exact isNearestWord_of_value (by decide) (by rw [value_one]; norm_num)

/-- Settles O21: every coefficient of the ideal window is one of the window of 2^16 words. -/
theorem hannIsNearestToIdealWindow : Obligations.HannIsNearestToIdealWindow := by
  intro k w hk hk16 hw n hn
  have hindex : n * 2 ^ (16 - k) ≤ 2 ^ 16 :=
    calc n * 2 ^ (16 - k) ≤ 2 ^ k * 2 ^ (16 - k) := Nat.mul_le_mul_right _ hn.le
      _ = 2 ^ 16 := by rw [← pow_add, Nat.add_sub_cancel' hk16]
  have hideal : w n = idealVersine (n * 2 ^ (16 - k)) / 2 := by
    rw [hw n hn, idealVersine, ← Nat.add_sub_cancel' hk16, pow_add, Nat.add_sub_cancel_left]
    push_cast
    rw [show Real.pi * (2 * (n * 2 ^ (16 - k)) / (2 ^ k * 2 ^ (16 - k))) =
      2 * Real.pi * n / 2 ^ k by field_simp]
    ring
  rw [hann_eq_largest n hk16, hideal]
  exact hann_isNearest_largest hindex

end Sys2Proof.Machine
end

section
/-! PROOF. The transforms and the commands FWD and INV (41_fft.md R451 to R458): the closed forms of
the small sizes, what the laws of the open kernels say of the others, and the two commands. -/

namespace Sys2Proof.Binary32

/-! ### Operations on zeros -/

theorem isFinite_of_isZero (w : Word) (h : isZero w = true) : isFinite w = true := by
  rw [isZero, decide_eq_true_eq] at h
  rw [isFinite, h]
  decide

@[simp] theorem isZero_negate (w : Word) : isZero (negate w) = isZero w := by simp [isZero]

theorem isZero_add32 (nan a b : Word) (ha : isZero a = true) (hb : isZero b = true) :
    isZero (add32 nan a b) = true := by
  have hsum : value a + value b = 0 := by
    rw [(value_eq_zero a).2 ha, (value_eq_zero b).2 hb, add_zero]
  rw [add32_of_isFinite nan a b (isFinite_of_isZero a ha) (isFinite_of_isZero b hb),
    addFinite_of_sum_zero a b hsum]
  split <;> decide

theorem isZero_sub32 (nan a b : Word) (ha : isZero a = true) (hb : isZero b = true) :
    isZero (sub32 nan a b) = true :=
  isZero_add32 nan a (negate b) ha (by rwa [isZero_negate])

theorem isZero_mul32_two (nan a : Word) (ha : isZero a = true) :
    isZero (mul32 nan a two) = true := by
  have hproduct : value a * value two = 0 := by rw [(value_eq_zero a).2 ha, zero_mul]
  rw [mul32_of_product_zero nan a two (isFinite_of_isZero a ha) (by decide) hproduct]
  split <;> decide

end Sys2Proof.Binary32

namespace Sys2Proof.Ideal

open Sys2Proof.Binary32

theorem allZero_nil : AllZero [] := fun _ hw => absurd hw List.not_mem_nil

theorem allZero_cons (w : Word) (ws : List Word) :
    AllZero (w :: ws) ↔ isZero w = true ∧ AllZero ws := List.forall_mem_cons

theorem allZero_map_range (n : Nat) (f : Nat → Word) :
    AllZero ((List.range n).map f) ↔ ∀ k < n, isZero (f k) = true := by
  simp [AllZero]

end Sys2Proof.Ideal

namespace Sys2Proof.Machine

open Sys2Proof.Binary32

/-! ### The kernels of each size -/

theorem fftForward_two (y0 y1 : Word) : fftForward [y0, y1] =
    fftForward2 (fun node => Config.nan (.transform false [y0, y1] node)) y0 y1 := rfl

theorem fftForward_four (y0 y1 y2 y3 : Word) : fftForward [y0, y1, y2, y3] =
    fftForward4 (fun node => Config.nan (.transform false [y0, y1, y2, y3] node)) y0 y1 y2 y3 := rfl

/-- From 8 words on the forward transform is the open kernel. -/
theorem fftForward_of_eight_le {y : List Word} (h : 8 ≤ y.length) : fftForward y =
    { re := (List.range (y.length / 2)).map (Config.kernels.fwdRe y.length y)
      im := (List.range (y.length / 2)).map (Config.kernels.fwdIm y.length y) } := by
  unfold fftForward
  split
  case h_1 => exact absurd h (by simp)
  case h_2 => exact absurd h (by simp)
  case h_3 => rfl

theorem fftInverse_two (re0 im0 : Word) : fftInverse 2 ⟨[re0], [im0]⟩ =
    fftInverse2 (fun node => Config.nan (.transform true [re0, im0] node)) re0 im0 := rfl

theorem fftInverse_four (re0 re1 im0 im1 : Word) : fftInverse 4 ⟨[re0, re1], [im0, im1]⟩ =
    fftInverse4 (fun node => Config.nan (.transform true [re0, re1, im0, im1] node))
      re0 re1 im0 im1 := rfl

/-- From 8 words on the inverse transform is the open kernel. -/
theorem fftInverse_of_eight_le {size : Nat} (p : Spectrum) (h : 8 ≤ size) :
    fftInverse size p = (List.range size).map (Config.kernels.inv size p.re p.im) := by
  unfold fftInverse
  split
  case h_1 => exact absurd h (by decide)
  case h_2 => exact absurd h (by decide)
  case h_3 => rfl

theorem eight_le_two_pow {j : Nat} (h : 3 ≤ j) : 8 ≤ 2 ^ j :=
  Nat.pow_le_pow_right (n := 2) (by decide) h

/-- The sizes 2^k of a transform: the two with closed forms, and those of the open kernels. -/
theorem transform_size_cases {k : Nat} (h : 1 ≤ k) : k = 1 ∨ k = 2 ∨ 3 ≤ k := by omega

theorem isNaN_nan (site : Config.NanSite) : isNaN (Config.nan site) = true := isNaN_nanOfBits _

/-- Settles O31: the nodes of a closed form draw its NaNs; the rule's statement numbers those of the
forward form for N = 4 in another order. -/
theorem closedFormsOfSmallTransforms : Obligations.ClosedFormsOfSmallTransforms := by
  exact ⟨fun y0 y1 => ⟨_, fun _ => isNaN_nan _, fftForward_two y0 y1⟩,
    fun y0 y1 y2 y3 => ⟨fun j => Config.nan (.transform false [y0, y1, y2, y3]
      ([2, 3, 0, 1].getD j j)), fun _ => isNaN_nan _, fftForward_four y0 y1 y2 y3⟩,
    fun re0 im0 => ⟨_, fun _ => isNaN_nan _, fftInverse_two re0 im0⟩,
    fun re0 re1 im0 im1 => ⟨_, fun _ => isNaN_nan _, fftInverse_four re0 re1 im0 im1⟩⟩

/-! ### Zeros -/

section
open Sys2Proof.Ideal

theorem fftForward2_allZero (nan : Nat → Word) {y0 y1 : Word} (h0 : isZero y0 = true)
    (h1 : isZero y1 = true) :
    AllZero (fftForward2 nan y0 y1).re ∧ AllZero (fftForward2 nan y0 y1).im := by
  simp [fftForward2, allZero_cons, allZero_nil, isZero_mul32_two, isZero_add32, isZero_sub32, h0,
    h1]

theorem fftForward4_allZero (nan : Nat → Word) {y0 y1 y2 y3 : Word} (h0 : isZero y0 = true)
    (h1 : isZero y1 = true) (h2 : isZero y2 = true) (h3 : isZero y3 = true) :
    AllZero (fftForward4 nan y0 y1 y2 y3).re ∧ AllZero (fftForward4 nan y0 y1 y2 y3).im := by
  have heven := isZero_add32 (nan 0) y0 y2 h0 h2
  have hodd := isZero_add32 (nan 1) y1 y3 h1 h3
  simp [fftForward4, allZero_cons, allZero_nil, isZero_mul32_two, isZero_add32, isZero_sub32, h0,
    h1, h2, h3, heven, hodd]

theorem fftForward_allZero {k : Nat} {y : List Word} (hk : 1 ≤ k) (hlen : y.length = 2 ^ k)
    (hy : AllZero y) : AllZero (fftForward y).re ∧ AllZero (fftForward y).im := by
  rcases transform_size_cases hk with rfl | rfl | hk
  · obtain ⟨y0, y1, rfl⟩ := List.length_eq_two.1 hlen
    rw [fftForward_two]
    exact fftForward2_allZero _ (hy y0 (by simp)) (hy y1 (by simp))
  · match y, hlen with
    | [y0, y1, y2, y3], _ =>
      rw [fftForward_four]
      exact fftForward4_allZero _ (hy y0 (by simp)) (hy y1 (by simp)) (hy y2 (by simp))
        (hy y3 (by simp))
  · have hzero := Config.kernels.fwd_zero k hk y hlen hy
    rw [fftForward_of_eight_le (hlen ▸ eight_le_two_pow hk), hlen, allZero_map_range,
      allZero_map_range]
    exact ⟨fun i hi => (hzero i hi).1, fun i hi => (hzero i hi).2⟩

theorem fftInverse2_allZero (nan : Nat → Word) {re0 im0 : Word} (hre : isZero re0 = true)
    (him : isZero im0 = true) : AllZero (fftInverse2 nan re0 im0) := by
  simp [fftInverse2, allZero_cons, allZero_nil, isZero_add32, isZero_sub32, hre, him]

theorem fftInverse4_allZero (nan : Nat → Word) {re0 re1 im0 im1 : Word} (hre0 : isZero re0 = true)
    (hre1 : isZero re1 = true) (him0 : isZero im0 = true) (him1 : isZero im1 = true) :
    AllZero (fftInverse4 nan re0 re1 im0 im1) := by
  simp [fftInverse4, allZero_cons, allZero_nil, isZero_mul32_two, isZero_add32, isZero_sub32, hre0,
    hre1, him0, him1]

theorem fftInverse_allZero {k : Nat} {p : Spectrum} (hk : 1 ≤ k) (hre : p.re.length = 2 ^ k / 2)
    (him : p.im.length = 2 ^ k / 2) (hre0 : AllZero p.re) (him0 : AllZero p.im) :
    AllZero (fftInverse (2 ^ k) p) := by
  obtain ⟨re, im⟩ := p
  rcases transform_size_cases hk with rfl | rfl | hk
  · obtain ⟨re0, rfl⟩ := List.length_eq_one_iff.1 hre
    obtain ⟨im0, rfl⟩ := List.length_eq_one_iff.1 him
    rw [show 2 ^ 1 = 2 from rfl, fftInverse_two]
    exact fftInverse2_allZero _ (hre0 re0 (by simp)) (him0 im0 (by simp))
  · obtain ⟨re0, re1, rfl⟩ := List.length_eq_two.1 hre
    obtain ⟨im0, im1, rfl⟩ := List.length_eq_two.1 him
    rw [show 2 ^ 2 = 4 from rfl, fftInverse_four]
    exact fftInverse4_allZero _ (hre0 re0 (by simp)) (hre0 re1 (by simp)) (him0 im0 (by simp))
      (him0 im1 (by simp))
  · rw [fftInverse_of_eight_le _ (eight_le_two_pow hk), allZero_map_range]
    exact Config.kernels.inv_zero k hk re im hre him hre0 him0

end

/-- Settles O27: the operations of the closed forms map zeros to zeros, and so do the open kernels
by their law. -/
theorem transformsMapZerosToZeros : Obligations.TransformsMapZerosToZeros :=
  ⟨fun _ _ hk hlen hy => fftForward_allZero hk hlen hy,
    fun _ _ hk hre him hre0 him0 => fftInverse_allZero hk hre him hre0 him0⟩

/-! ### Accuracy -/

theorem getD_map_range {n k : Nat} (f : Nat → Word) (d : Word) (hk : k < n) :
    ((List.range n).map f).getD k d = f k := by
  simp [List.getD_eq_getElem?_getD, hk]

/-- Settles O32: from 8 words on both transforms are the open kernels, whose law the bound is. -/
theorem transformsObeyAccuracyBound : Obligations.TransformsObeyAccuracyBound := by
  intro j hj
  refine ⟨Config.kernels.errBound_nonneg _, fun y hlen => ?_, fun p _ _ => ?_⟩
  · intro x re im bound hfin hn hx hideal hbound hlt hrange k hk
    rw [fftForward_of_eight_le (hlen ▸ eight_le_two_pow hj), hlen]
    dsimp only
    rw [getD_map_range _ _ hk, getD_map_range _ _ hk]
    exact Config.kernels.fwd_accurate j hj y x re im bound hfin hn hx hideal hbound hlt hrange k hk
  · intro re im u bound hfin hre him hvre hvim hideal hbound hlt hrange n hn
    rw [fftInverse_of_eight_le p (eight_le_two_pow hj)]
    dsimp only
    rw [getD_map_range _ _ hn]
    exact Config.kernels.inv_accurate j hj p.re p.im re im u bound hfin hre him hvre hvim hideal
      hbound hlt hrange n hn

/-! ### FWD and INV -/

theorem exec_fwd (c : Nat) (s : State) : exec (.fwd c) s = execFwd c s := rfl

theorem exec_inv (c : Nat) (s : State) : exec (.inv c) s = execInv c s := rfl

/-- A command over spectrum `c` that is configured and in range runs its effect. -/
theorem runChecked_of_configured {s u : State} {c : Nat} {effect : State → Except Fault State}
    (hcfg : s.status.cfgValid = true) (hc : c < s.params.chunkCap) (heffect : effect s = .ok u) :
    s.runChecked [s.configured, (decide (s.params.chunkCap ≤ c), .argRange)] effect =
      .next u.succeed := by
  refine s.runChecked_of_ok u _ effect ?_ heffect
  simp [State.configured, firstFailure_cons, hcfg, hc]

/-- The completion of an effect that only changed the memory. -/
theorem State.completedOk_succeed_of_mem_only {s u : State} (h : u = { s with mem := u.mem }) :
    s.CompletedOk u.succeed ∧ s.RegistersKept u.succeed := by
  rw [h]
  exact ⟨State.completedOk_succeed s, rfl⟩

theorem State.windowed_eq {s : State} {c n : Nat} {x win : Nat → Word}
    (hwin : s.Holds .win 0 n win) : s.windowed c ((List.range n).map x) =
      (List.range n).map fun k =>
        mul32 (Config.nan (.command s.draws .window c k)) (win k) (x k) := by
  refine List.ext_getElem (by simp) fun k hk _ => ?_
  have hwin := hwin k (by simpa using hk)
  rw [Nat.zero_add] at hwin
  simp [State.windowed, hwin]

/-- A row of a stored spectrum reads back, and every word outside the two rows is as before. -/
theorem State.readWord_storeSpectrum (s : State) (c k : Nat) (p : Spectrum) (hre : k < p.re.length)
    (him : k < p.im.length) :
    (s.storeSpectrum c p).readWord .specRe (s.rowStart c + k) = p.re[k]? ∧
    (s.storeSpectrum c p).readWord .specIm (s.rowStart c + k) = p.im[k]? := by
  simp [State.storeSpectrum, State.readWord_storeWords, hre, him]

theorem State.wordsKept_storeSpectrum (s : State) (c : Nat) (p : Spectrum) :
    s.WordsKept (s.storeSpectrum c p) fun b i =>
      InRange .specRe (s.rowStart c) p.re.length b i ∨
      InRange .specIm (s.rowStart c) p.im.length b i := by
  intro b i hout
  obtain ⟨hre, him⟩ := not_or.1 hout
  exact (State.wordsKept_storeWords _ _ _ _ b i him).trans
    (State.wordsKept_storeWords s _ _ _ b i hre)

/-- Settles O30: the effect of FWD on the words the state holds is one store of the spectrum. -/
theorem fwdStoresTransformOfWindowedChunk : Obligations.FwdStoresTransformOfWindowedChunk := by
  intro c s x win hcfg hc hchunk hwin y
  have heffect : fwdEffect c s = .ok (s.storeSpectrum c (fftForward y)) :=
    (fwdEffect_ok_iff c s _).2
      ⟨_, s.readWords_of_written .chunk 0 s.sizeN x hchunk, by rw [State.windowed_eq hwin]⟩
  obtain ⟨hok, hregs⟩ :=
    State.completedOk_succeed_of_mem_only (fwdEffect_mem_only c s _ heffect)
  obtain ⟨hre, him⟩ := fftForward_length y
  rw [show y.length = s.sizeN by simp [y]] at hre him
  refine ⟨_, runChecked_of_configured hcfg hc heffect, hok, hregs, fun k hk => ?_, ?_⟩
  · obtain ⟨hreadRe, hreadIm⟩ :=
      s.readWord_storeSpectrum c k (fftForward y) (hre ▸ hk) (him ▸ hk)
    exact ⟨hreadRe, hreadIm, by simp [hre, hk], by simp [him, hk]⟩
  · have hkept := s.wordsKept_storeSpectrum c (fftForward y)
    rwa [hre, him] at hkept

/-- Settles O33: the effect of INV on the words the state holds is one store of the chunk. -/
theorem invStoresScaledInverse : Obligations.InvStoresScaledInverse := by
  intro c s re im hcfg hc hre him u
  have heffect : invEffect c s = .ok (s.storeWords .chunk 0 (s.inverseChunk c _)) :=
    (invEffect_ok_iff c s _).2 ⟨⟨_, _⟩, (readSpectrum_ok_iff c s _).2
      ⟨s.readWords_of_written .specRe _ _ re hre, s.readWords_of_written .specIm _ _ im him⟩, rfl⟩
  obtain ⟨hok, hregs⟩ :=
    State.completedOk_succeed_of_mem_only (invEffect_mem_only c s _ heffect)
  have hlen : u.length = s.sizeN := fftInverse_length _ _
  refine ⟨_, runChecked_of_configured hcfg hc heffect, hok, hregs, hlen, fun n hn => ?_, ?_⟩
  · rw [State.succeed_readWord, State.readWord_storeWords, if_pos (by simpa using hn)]
    simp [State.inverseChunk, State.log2N, u, fftInverse_length, hn]
  · intro b i hout
    rw [State.succeed_readWord]
    exact s.wordsKept_storeWords .chunk 0 _ b i (by rwa [State.inverseChunk_length])

end Sys2Proof.Machine
end

section
/-! PROOF. The round trip in ideal arithmetic (41_fft.md R459): the inverse of the forward transform
weights each sample with a sum of cosines over the packed spectrum, which is N at the sample's own
index and vanishes at every other one. -/

namespace Sys2Proof.Ideal

/-! ### The sum of cosines over a packed spectrum -/

/-- The slots of a packed spectrum of `2M` samples, each with its cosine: slot 0 holds the DC and
the Nyquist term, every other slot counts twice. -/
noncomputable def packedCosSum (M : Nat) (θ : ℝ) : ℝ :=
  1 + Real.cos (M * θ) + 2 * ∑ k ∈ Finset.Ico 1 M, Real.cos (k * θ)

theorem packedCosSum_one (θ : ℝ) : packedCosSum 1 θ = 1 + Real.cos θ := by
  simp [packedCosSum]

theorem packedCosSum_succ {M : Nat} (hM : 1 ≤ M) (θ : ℝ) :
    packedCosSum (M + 1) θ =
      packedCosSum M θ + (Real.cos (M * θ) + Real.cos ((M + 1) * θ)) := by
  rw [packedCosSum, packedCosSum, Finset.sum_Ico_succ_top hM, Nat.cast_succ]
  ring

/-- The sum telescopes once it is multiplied by the sine of half the angle. -/
theorem sin_mul_packedCosSum {M : Nat} (hM : 1 ≤ M) (φ : ℝ) :
    Real.sin φ * packedCosSum M (2 * φ) = Real.sin (M * (2 * φ)) * Real.cos φ := by
  induction M, hM using Nat.le_induction with
  | base =>
    rw [packedCosSum_one, Nat.cast_one, one_mul, Real.cos_two_mul, Real.sin_two_mul]
    ring
  | succ M hM ih =>
    have hangle : ((M : ℝ) + 1) * (2 * φ) = M * (2 * φ) + 2 * φ := by ring
    rw [packedCosSum_succ hM, mul_add, ih, Nat.cast_succ, hangle, Real.cos_add, Real.sin_add,
      Real.cos_two_mul, Real.sin_two_mul]
    linear_combination -2 * Real.cos φ * Real.sin (M * (2 * φ)) * Real.sin_sq_add_cos_sq φ

/-- The angle between two of `2M` equally spaced indices. -/
noncomputable def distanceAngle (M i n : Nat) : ℝ := 2 * (Real.pi * (n - i) / (2 * M))

theorem sin_half_distanceAngle_ne_zero {M i n : Nat} (hi : i < 2 * M) (hn : n < 2 * M)
    (hne : i ≠ n) : Real.sin (Real.pi * (n - i) / (2 * M)) ≠ 0 := by
  have hi' : (i : ℝ) < 2 * M := by exact_mod_cast hi
  have hn' : (n : ℝ) < 2 * M := by exact_mod_cast hn
  have hsize : (0 : ℝ) < 2 * M := i.cast_nonneg.trans_lt hi'
  have hdistance : (n : ℝ) - i ≠ 0 := sub_ne_zero.2 (by exact_mod_cast hne.symm)
  have hlow : -Real.pi < Real.pi * (n - i) / (2 * M) := by
    rw [lt_div_iff₀ hsize]
    nlinarith [Real.pi_pos, n.cast_nonneg (α := ℝ)]
  have hhigh : Real.pi * (n - i) / (2 * M) < Real.pi := by
    rw [div_lt_iff₀ hsize]
    nlinarith [Real.pi_pos, i.cast_nonneg (α := ℝ)]
  rw [Ne, Real.sin_eq_zero_iff_of_lt_of_lt hlow hhigh]
  exact div_ne_zero (mul_ne_zero Real.pi_ne_zero hdistance) hsize.ne'

theorem mul_distanceAngle {M : Nat} (hM : 1 ≤ M) (i n : Nat) :
    M * distanceAngle M i n = n * Real.pi - i * Real.pi := by
  have hM' : (M : ℝ) ≠ 0 := by exact_mod_cast (by omega : M ≠ 0)
  rw [distanceAngle]
  field_simp

/-- The cosines of two different indices cancel; those of an index with itself are all 1. -/
theorem packedCosSum_distanceAngle {M i n : Nat} (hi : i < 2 * M) (hn : n < 2 * M) :
    packedCosSum M (distanceAngle M i n) = if i = n then 2 * (M : ℝ) else 0 := by
  have hM : 1 ≤ M := by omega
  split
  case isTrue h =>
    subst h
    simp [packedCosSum, distanceAngle, Nat.cast_sub hM]
    ring
  case isFalse h =>
    have hsum := sin_mul_packedCosSum hM (Real.pi * (n - i) / (2 * M))
    rw [← distanceAngle, mul_distanceAngle hM, Real.sin_sub, Real.sin_nat_mul_pi,
      Real.sin_nat_mul_pi, zero_mul, mul_zero, sub_zero, zero_mul] at hsum
    exact (mul_eq_zero.1 hsum).resolve_left (sin_half_distanceAngle_ne_zero hi hn h)

/-! ### The round trip -/

theorem cos_mul_distanceAngle (M k i n : Nat) : Real.cos (k * distanceAngle M i n) =
    Real.cos (2 * Real.pi * k * i / (2 * M : Nat)) *
        Real.cos (2 * Real.pi * k * n / (2 * M : Nat)) +
      Real.sin (2 * Real.pi * k * i / (2 * M : Nat)) *
        Real.sin (2 * Real.pi * k * n / (2 * M : Nat)) := by
  rw [← Real.cos_sub, ← Real.cos_neg, distanceAngle]
  congr 1
  push_cast
  ring

theorem cos_halfTurns {M : Nat} (hM : 1 ≤ M) (i n : Nat) :
    Real.cos (M * distanceAngle M i n) = (-1) ^ i * (-1) ^ n := by
  rw [mul_distanceAngle hM, Real.cos_sub, Real.sin_nat_mul_pi, Real.cos_nat_mul_pi,
    Real.cos_nat_mul_pi]
  ring

section
variable {M : Nat} {y re im : Nat → ℝ}

/-- Slot 0 of the spectrum, in the inverse at index `n`. -/
theorem IsForward.inverse_slot_zero (h : IsForward (2 * M) y re im) (hM : 1 ≤ M) (n : Nat) :
    re 0 + im 0 * (-1) ^ n =
      ∑ i ∈ Finset.range (2 * M), 2 * y i * (1 + Real.cos (M * distanceAngle M i n)) := by
  obtain ⟨hre, him, -⟩ := h
  rw [hre 0 (by omega), him, Finset.mul_sum, Finset.mul_sum, Finset.sum_mul,
    ← Finset.sum_add_distrib]
  refine Finset.sum_congr rfl fun i _ => ?_
  rw [cos_halfTurns hM]
  simp
  ring

/-- Slot `k ≥ 1` of the spectrum, in the inverse at index `n`. -/
theorem IsForward.inverse_slot (h : IsForward (2 * M) y re im) {k : Nat} (hk : 1 ≤ k) (hkM : k < M)
    (n : Nat) :
    re k * Real.cos (2 * Real.pi * k * n / (2 * M : Nat)) -
        im k * Real.sin (2 * Real.pi * k * n / (2 * M : Nat)) =
      ∑ i ∈ Finset.range (2 * M), 2 * y i * Real.cos (k * distanceAngle M i n) := by
  obtain ⟨hre, -, him⟩ := h
  rw [hre k (by omega), him k (by omega) hk, Finset.mul_sum, Finset.mul_sum, Finset.sum_mul,
    Finset.sum_mul, ← Finset.sum_sub_distrib]
  refine Finset.sum_congr rfl fun i _ => ?_
  rw [cos_mul_distanceAngle]
  ring

/-- The inverse of a spectrum weights each sample of the sequence with the sum of cosines at its
distance. -/
theorem IsInverse.eq_sum_packedCosSum {u : Nat → ℝ} (hu : IsInverse (2 * M) re im u)
    (h : IsForward (2 * M) y re im) (hM : 1 ≤ M) {n : Nat} (hn : n < 2 * M) :
    u n = ∑ i ∈ Finset.range (2 * M), 2 * y i * packedCosSum M (distanceAngle M i n) := by
  rw [hu n hn, h.inverse_slot_zero hM, Nat.mul_div_cancel_left M two_pos,
    Finset.sum_congr rfl fun k hk =>
      h.inverse_slot (Finset.mem_Ico.1 hk).1 (Finset.mem_Ico.1 hk).2 n,
    Finset.sum_comm, Finset.mul_sum, ← Finset.sum_add_distrib]
  refine Finset.sum_congr rfl fun i _ => ?_
  rw [packedCosSum, ← Finset.mul_sum]
  ring

end

end Sys2Proof.Ideal

namespace Sys2Proof.Machine

open Sys2Proof.Ideal

/-- Settles O29: only the sample's own weight is not zero. -/
theorem idealRoundTrip : Obligations.IdealRoundTrip := by
  intro M y re im u hM hforward hinverse n hn
  have hweight : ∀ i ∈ Finset.range (2 * M), 2 * y i * packedCosSum M (distanceAngle M i n) =
      if i = n then 2 * y i * (2 * (M : ℝ)) else 0 := fun i hi => by
    rw [packedCosSum_distanceAngle (Finset.mem_range.1 hi) hn, mul_ite, mul_zero]
  rw [hinverse.eq_sum_packedCosSum hforward hM hn, Finset.sum_congr rfl hweight,
    Finset.sum_ite_eq', if_pos (Finset.mem_range.2 hn)]
  push_cast
  ring

end Sys2Proof.Machine
end

section
/-! PROOF. The framer and the analysis (42_framer.md R500 to R512): which frames exist, what FRAME
writes, and the loop of ANALYZE by an invariant on the frames already transformed. -/

namespace Sys2Proof.Machine

theorem exec_frame (m : Mode) (c : Nat) (s : State) :
    exec (.frame m c) s = execFrame m c s := rfl

theorem exec_analyze (m : Mode) (s : State) : exec (.analyze m) s = execAnalyze m s := rfl

/-! ### The number of frames -/

/-- An index is below the rounded-up quotient exactly where its multiple is below the dividend. -/
theorem lt_ceilDiv_iff {a b : Nat} (i : Nat) (hb : 0 < b) : i < ceilDiv a b ↔ i * b < a := by
  rw [ceilDiv, ← Nat.succ_le_iff, Nat.le_div_iff_mul_le hb, Nat.succ_mul]
  omega

/-- Settles O36: the quotient that counts the frames is rounded up. -/
theorem frameExistsIffItStartsInSignal : Obligations.FrameExistsIffItStartsInSignal :=
  fun _ i _ hstep => lt_ceilDiv_iff i hstep

/-! ### One frame -/

theorem State.holds_zero_iff (s : State) (b : BufId) (n : Nat) (x : Nat → Word) :
    s.Holds b 0 n x ↔ ∀ j < n, s.readWord b j = some (x j) := by simp [Holds]

/-- Word `j` of frame `i` of the signal `x` (R501). -/
def State.frameWord (s : State) (m : Mode) (x : Nat → Word) (i j : Nat) : Word :=
  if i * s.frameStep m + j < s.lenL then x (i * s.frameStep m + j) else posZero

/-- The words a frame copies are those before the signal's end. -/
theorem State.lt_frameFill_iff (s : State) (m : Mode) (i j : Nat) :
    j < s.frameFill m i ↔ j < s.sizeN ∧ i * s.frameStep m + j < s.lenL := by
  rw [frameFill, frameStart, Nat.lt_min]
  omega

section
variable {s : State} {x : Nat → Word} (m : Mode) (i : Nat)

/-- The copied words and the padding together are the frame. -/
theorem State.frameWords_of_holds (hsig : s.Holds .sig 0 s.lenL x) :
    s.frameWords m i = .ok ((List.range s.sizeN).map (s.frameWord m x i)) := by
  have hcopy : s.readWords .sig (s.frameStart m i) (s.frameFill m i) =
      .ok ((List.range (s.frameFill m i)).map fun j => x (s.frameStart m i + j)) :=
    s.readWords_of_written .sig _ _ _ fun j hj =>
      (s.holds_zero_iff ..).1 hsig _ ((s.lt_frameFill_iff m i j).1 hj).2
  have hfill : s.frameFill m i ≤ s.sizeN := Nat.min_le_left _ _
  refine (frameWords_ok_iff m i s _).2 ⟨_, hcopy, List.ext_getElem (by simp [hfill]) ?_⟩
  intro j hj _
  rw [List.length_map, List.length_range] at hj
  have hin := s.lt_frameFill_iff m i j
  by_cases hlt : j < s.frameFill m i
  · simp [hlt, State.frameWord, (hin.1 hlt).2, State.frameStart]
  · have hpad : ¬ i * s.frameStep m + j < s.lenL := fun h => hlt (hin.2 ⟨hj, h⟩)
    simp [List.getElem_append, hlt, State.frameWord, hpad]

/-- With the signal written, the effect of FRAME leaves the frame in CHUNK. -/
theorem frameEffect_spec (hsig : s.Holds .sig 0 s.lenL x) : ∃ t, frameEffect m i s = .ok t ∧
    t.Holds .chunk 0 s.sizeN (s.frameWord m x i) ∧ s.WordsKept t (InRange .chunk 0 s.sizeN) := by
  refine ⟨_, (frameEffect_ok_iff m i s _).2 ⟨_, State.frameWords_of_holds m i hsig, rfl⟩,
    fun j hj => ?_, ?_⟩
  · simp [State.readWord_storeWords, hj]
  · have hkept := s.wordsKept_storeWords .chunk 0 ((List.range s.sizeN).map (s.frameWord m x i))
    rwa [List.length_map, List.length_range] at hkept

end

/-- The checks of FRAME and ANALYZE pass: the block is configured, the signal fits, and the
command's own check does not fail. -/
theorem firstFailure_of_signalFits {s : State} {fails : Bool} {code : ErrCode}
    (hcfg : s.status.cfgValid = true) (hfit : s.lenL ≤ s.params.sigCap) (hown : fails = false) :
    firstFailure [s.configured, s.signalFits, (fails, code)] = none := by
  simp [State.configured, State.signalFits, firstFailure_cons, hcfg, hfit, hown]

/-- Settles O35: the checks pass, and the effect of FRAME changes memory alone. -/
theorem frameCopiesSignalAndPads : Obligations.FrameCopiesSignalAndPads := by
  intro m c s x hcfg hfit hc hsig
  have hchecks : firstFailure [s.configured, s.signalFits,
      (decide (s.frameCount m ≤ c), .argRange)] = none :=
    firstFailure_of_signalFits hcfg hfit (decide_eq_false (Nat.not_le.2 hc))
  obtain ⟨t, heffect, hchunk, hkept⟩ := frameEffect_spec m c hsig
  obtain ⟨hok, hregs⟩ :=
    State.completedOk_succeed_of_mem_only (frameEffect_mem_only m c s t heffect)
  exact ⟨_, (exec_frame m c s).trans (s.runChecked_of_ok t _ _ hchecks heffect), hok, hregs,
    (t.holds_zero_iff ..).1 hchunk, hkept⟩

/-! ### What two updates keep -/

theorem State.WordsKept.trans {s t u : State} {p q : BufId → Nat → Prop} (hst : s.WordsKept t p)
    (htu : t.WordsKept u q) : s.WordsKept u fun b i => p b i ∨ q b i := fun b i hout =>
  (htu b i fun h => hout (.inr h)).trans (hst b i fun h => hout (.inl h))

theorem State.WordsKept.mono {s t : State} {p q : BufId → Nat → Prop} (h : s.WordsKept t p)
    (hpq : ∀ b i, p b i → q b i) : s.WordsKept t q := fun b i hout =>
  h b i fun hp => hout (hpq b i hp)

/-- Words that an update stores nothing over are still held. -/
theorem State.Holds.of_wordsKept {s t : State} {b : BufId} {start n : Nat} {x : Nat → Word}
    {p : BufId → Nat → Prop} (h : s.Holds b start n x) (hst : s.WordsKept t p)
    (hout : ∀ i, ¬ p b i) : t.Holds b start n x := fun j hj =>
  (hst b _ (hout _)).trans (h j hj)

/-! ### One spectrum -/

/-- The first `n` words of both parts of row `c` are written and hold the spectrum `p`. -/
def State.HoldsSpectrum (s : State) (c n : Nat) (p : Spectrum) : Prop :=
  ∀ k < n, s.readWord .specRe (s.rowStart c + k) = p.re[k]? ∧
    s.readWord .specIm (s.rowStart c + k) = p.im[k]? ∧ (p.re[k]?).isSome ∧ (p.im[k]?).isSome

/-- The words of a row start after those of the rows before it (10_state.md R145). -/
theorem State.not_inSpectrum_of_lt (s : State) {c i n k : Nat} (hci : c < i) (hk : k < n)
    (hn : n ≤ s.params.rowLen) (b : BufId) : ¬ s.InSpectrum i n b (s.rowStart c + k) := by
  have hend : s.rowStart c + n ≤ i * s.params.rowLen :=
    rowEnd_le { s.params with chunkCap := i } c n hci hn
  rintro (⟨-, hle, -⟩ | ⟨-, hle, -⟩) <;> omega

/-- With CHUNK and the window written, the effect of FWD leaves the transform in its row. -/
theorem fwdEffect_spec {s : State} {x win : Nat → Word} (c : Nat)
    (hchunk : s.Holds .chunk 0 s.sizeN x) (hwin : s.Holds .win 0 s.sizeN win) :
    ∃ t, fwdEffect c s = .ok t ∧
      t.HoldsSpectrum c (s.sizeN / 2) (fftForward ((List.range s.sizeN).map fun n =>
        Binary32.mul32 (Config.nan (.command s.draws .window c n)) (win n) (x n))) ∧
      s.WordsKept t (s.InSpectrum c (s.sizeN / 2)) := by
  refine ⟨_, (fwdEffect_ok_iff c s _).2
    ⟨_, s.readWords_of_written .chunk 0 s.sizeN x hchunk, rfl⟩, ?_⟩
  rw [State.windowed_eq hwin]
  generalize hy : (List.range s.sizeN).map (fun n => Binary32.mul32
    (Config.nan (.command s.draws .window c n)) (win n) (x n)) = y
  obtain ⟨hre, him⟩ := fftForward_length y
  rw [show y.length = s.sizeN by simp [← hy]] at hre him
  refine ⟨fun k hk => ?_, ?_⟩
  · obtain ⟨hreadRe, hreadIm⟩ :=
      s.readWord_storeSpectrum c k (fftForward y) (hre ▸ hk) (him ▸ hk)
    exact ⟨hreadRe, hreadIm, by simp [hre, hk], by simp [him, hk]⟩
  · have hkept := s.wordsKept_storeSpectrum c (fftForward y)
    rwa [hre, him] at hkept

/-! ### One round of ANALYZE -/

/-- The sequence ANALYZE transforms into spectrum `i`: frame `i` times the window. -/
def State.windowedFrame (s : State) (m : Mode) (x win : Nat → Word) (i : Nat) : List Word :=
  (List.range s.sizeN).map fun n =>
    Binary32.mul32 (Config.nan (.command s.draws .window i n)) (win n) (s.frameWord m x i n)

/-- The words round `i` of ANALYZE stores. -/
def State.InRound (s : State) (i : Nat) (b : BufId) (p : Nat) : Prop :=
  InRange .chunk 0 s.sizeN b p ∨ s.InSpectrum i (s.sizeN / 2) b p

/-- ANALYZE stores only CHUNK and the spectra. -/
theorem State.not_inRound (s : State) (i p : Nat) {b : BufId} (hchunk : b ≠ .chunk)
    (hre : b ≠ .specRe) (him : b ≠ .specIm) : ¬ s.InRound i b p := by
  rintro (⟨h, -⟩ | ⟨h, -⟩ | ⟨h, -⟩)
  exacts [hchunk h, hre h, him h]

/-- A round of ANALYZE leaves its frame in CHUNK and the frame's transform in its row. -/
theorem analyzeRound_spec {s : State} {x win : Nat → Word} (m : Mode) (i : Nat)
    (hsig : s.Holds .sig 0 s.lenL x) (hwin : s.Holds .win 0 s.sizeN win) :
    ∃ t, analyzeRound m i s = .ok t ∧
      t.HoldsSpectrum i (s.sizeN / 2) (fftForward (s.windowedFrame m x win i)) ∧
      t.Holds .chunk 0 s.sizeN (s.frameWord m x i) ∧ s.WordsKept t (s.InRound i) := by
  obtain ⟨u, hframe, hchunk, hkept⟩ := frameEffect_spec m i hsig
  obtain ⟨mem, rfl⟩ : ∃ mem, u = { s with mem := mem } := ⟨_, frameEffect_mem_only m i s u hframe⟩
  obtain ⟨t, hfwd, hspec, hspecKept⟩ :=
    fwdEffect_spec i hchunk (hwin.of_wordsKept hkept fun _ h => nomatch h.1)
  exact ⟨t, (analyzeRound_ok_iff m i s t).2 ⟨_, hframe, hfwd⟩, hspec,
    hchunk.of_wordsKept hspecKept fun _ h => h.elim (nomatch ·.1) (nomatch ·.1),
    hkept.trans hspecKept⟩

/-- A round keeps the spectra of the frames before its own. -/
theorem State.HoldsSpectrum.of_round {s t : State} {c i : Nat} {p : Spectrum}
    (h : s.HoldsSpectrum c (s.sizeN / 2) p) (hkept : s.WordsKept t (s.InRound i)) (hci : c < i)
    (hrow : s.sizeN / 2 ≤ s.params.rowLen) (hparams : t.params = s.params) :
    t.HoldsSpectrum c (s.sizeN / 2) p := by
  intro k hk
  have hstart : t.rowStart c = s.rowStart c := congrArg (fun p => c * p.rowLen) hparams
  have hout : ∀ b, b ≠ .chunk → ¬ s.InRound i b (s.rowStart c + k) := fun b hb hin =>
    hin.elim (fun hchunk => hb hchunk.1) (s.not_inSpectrum_of_lt hci hk hrow b)
  obtain ⟨hre, him, hsome⟩ := h k hk
  rw [hstart]
  exact ⟨(hkept _ _ (hout .specRe (by decide))).trans hre,
    (hkept _ _ (hout .specIm (by decide))).trans him, hsome⟩

/-! ### The loop of ANALYZE -/

/-- From `s`, ANALYZE has come to `t` with the first `n` frames transformed. -/
structure State.AnalyzedUpTo (s : State) (m : Mode) (x win : Nat → Word) (n : Nat) (t : State) :
    Prop where
  mem_only : t = { s with mem := t.mem }
  spectra : ∀ i < n, t.HoldsSpectrum i (s.sizeN / 2) (fftForward (s.windowedFrame m x win i))
  chunk : 0 < n → t.Holds .chunk 0 s.sizeN (s.frameWord m x (n - 1))
  kept : s.WordsKept t fun b p => ∃ i < n, s.InRound i b p

section
variable {s : State} {x win : Nat → Word} {m : Mode}

theorem State.analyzedUpTo_zero : s.AnalyzedUpTo m x win 0 s where
  mem_only := rfl
  spectra := fun _ hi => absurd hi (Nat.not_lt_zero _)
  chunk := fun h => absurd h (Nat.lt_irrefl 0)
  kept := fun _ _ _ => rfl

/-- A round keeps the spectra before its own, as rows do not overlap, and adds its own. -/
theorem State.AnalyzedUpTo.round {n : Nat} {u : State} (h : s.AnalyzedUpTo m x win n u)
    (hrow : s.sizeN / 2 ≤ s.params.rowLen) (hsig : s.Holds .sig 0 s.lenL x)
    (hwin : s.Holds .win 0 s.sizeN win) :
    ∃ v, analyzeRound m n u = .ok v ∧ s.AnalyzedUpTo m x win (n + 1) v := by
  obtain ⟨mem, rfl⟩ : ∃ mem, u = { s with mem := mem } := ⟨_, h.mem_only⟩
  have husig := hsig.of_wordsKept h.kept fun p ⟨i, _, hp⟩ =>
    s.not_inRound i p (by decide) (by decide) (by decide) hp
  have huwin := hwin.of_wordsKept h.kept fun p ⟨i, _, hp⟩ =>
    s.not_inRound i p (by decide) (by decide) (by decide) hp
  obtain ⟨v, hv, hspec, hchunk, hkept⟩ := analyzeRound_spec m n husig huwin
  have hvmem : v = { s with mem := v.mem } :=
    analyzeRound_mem_only m n { s with mem := mem } v hv
  refine ⟨v, hv, hvmem, fun i hi => ?_, fun _ => hchunk, (h.kept.trans hkept).mono ?_⟩
  · rcases Nat.lt_succ_iff_lt_or_eq.1 hi with hlt | rfl
    · exact State.HoldsSpectrum.of_round (s := { s with mem := mem }) (h.spectra i hlt) hkept hlt
        hrow (by rw [hvmem])
    · exact hspec
  · rintro b p (⟨i, hi, hp⟩ | hp)
    · exact ⟨i, Nat.lt_succ_of_lt hi, hp⟩
    · exact ⟨n, Nat.lt_succ_self n, hp⟩

/-- With the signal written, the effect of ANALYZE runs through all frames. -/
theorem analyzeEffect_of_holds (m : Mode) (hrow : s.sizeN / 2 ≤ s.params.rowLen)
    (hsig : s.Holds .sig 0 s.lenL x) (hwin : s.Holds .win 0 s.sizeN win) :
    ∃ u, s.AnalyzedUpTo m x win (s.frameCount m) u ∧
      analyzeEffect m s = .ok { u with numChunks := BitVec.ofNat 32 (s.frameCount m) } := by
  obtain ⟨u, hloop, hu⟩ := forEach_total (analyzeRound m) (s.AnalyzedUpTo m x win) (s.frameCount m)
    s State.analyzedUpTo_zero fun _ _ _ h => h.round hrow hsig hwin
  exact ⟨u, hu, (analyzeEffect_ok_iff m s _).2 ⟨u, hloop, rfl⟩⟩

end

/-- Settles O37: the loop ends with all frames transformed. -/
theorem analyzeTransformsEveryFrame : Obligations.AnalyzeTransformsEveryFrame := by
  intro m s x win hlegal hcfg hrow hfit hcap hsig hwin C frame y
  have ⟨_, _, _, _, _, hchunkCap, _⟩ := hlegal
  have hchecks : firstFailure [s.configured, s.signalFits,
      (decide (s.params.chunkCap < s.frameCount m), .capacity)] = none :=
    firstFailure_of_signalFits hcfg hfit (decide_eq_false (Nat.not_lt.2 hcap))
  obtain ⟨u, hu, heffect⟩ := analyzeEffect_of_holds m hrow hsig hwin
  obtain ⟨mem, rfl⟩ : ∃ mem, u = { s with mem := mem } := ⟨_, hu.mem_only⟩
  refine ⟨_, (exec_analyze m s).trans (s.runChecked_of_ok _ _ _ hchecks heffect),
    s.completedOk_succeed, rfl, toNat_ofNat_of_le C (2 ^ 16) (hcap.trans hchunkCap) (by decide),
    hu.spectra, fun hC => (State.holds_zero_iff ..).1 (hu.chunk hC), hu.kept.mono ?_⟩
  rintro b p ⟨i, hi, hchunk | hspec⟩
  · exact .inl ⟨Nat.zero_lt_of_lt hi, hchunk⟩
  · exact .inr ⟨i, hi, hspec⟩

end Sys2Proof.Machine
end

section
/-! PROOF. Overlap-add and synthesis (43_ola.md R550 to R561): the gain's power of two, the three
accumulator commands, and the loops of SYNTH and SYNTH_OLA by one invariant on OUT and CHUNK. -/

namespace Sys2Proof.Binary32

/-! ### Powers of two -/

/-- The fields of a power of two: exponent field `k + 1`, fraction 0. -/
theorem pow2_eq_withSign (k : Nat) :
    pow2 ((k : Int) - 126) = withSign false (k * 2 ^ 23 + 2 ^ 23) := by
  have hfield : ((k : Int) - 126 + 127).toNat = k + 1 := by omega
  rw [pow2, hfield, withSign, Nat.succ_mul]
  simp

theorem magBits_pow2 {k : Nat} (hk : k ≤ 253) :
    magBits (pow2 ((k : Int) - 126)) = k * 2 ^ 23 + 2 ^ 23 := by
  rw [pow2_eq_withSign, magBits_withSign _ _ (by omega)]

theorem isFinite_pow2 {k : Nat} (hk : k ≤ 253) : isFinite (pow2 ((k : Int) - 126)) = true := by
  have hlt : k * 2 ^ 23 + 2 ^ 23 < 0x7F800000 := by omega
  rw [isFinite, magBits_pow2 hk, decide_eq_true_eq]
  exact hlt

theorem value_pow2 {k : Nat} (hk : k ≤ 253) :
    value (pow2 ((k : Int) - 126)) = (2 : ℚ) ^ ((k : Int) - 126) := by
  have hsign : signBit (pow2 ((k : Int) - 126)) = false := by
    rw [pow2_eq_withSign, signBit_withSign _ _ (by omega)]
  have hunits : magUnits (k * 2 ^ 23 + 2 ^ 23) = 2 ^ 23 * 2 ^ k :=
    magUnits_quantum k (2 ^ 23) (by decide) (.inr le_rfl)
  rw [value_eq_signed, hsign, magBits_pow2 hk, hunits, signed_false, ofUnits,
    zpow_sub₀ two_ne_zero]
  norm_num
  ring

end Sys2Proof.Binary32

namespace Sys2Proof.Machine

theorem exec_olaClear (s : State) : exec .olaClear s = execOlaClear s := rfl

theorem exec_olaAdd (c : Nat) (s : State) : exec (.olaAdd c) s = execOlaAdd c s := rfl

theorem exec_olaScale (s : State) : exec .olaScale s = execOlaScale s := rfl

theorem exec_synth (s : State) : exec .synth s = execSynth s := rfl

theorem exec_synthOla (s : State) : exec .synthOla s = execSynthOla s := rfl

/-! ### Stores of numbered words -/

theorem State.readWord_storeWords_map_range (s : State) (b : BufId) (start n i : Nat)
    (x : Nat → Word) : (s.storeWords b start ((List.range n).map x)).readWord b i =
      if start ≤ i ∧ i < start + n then some (x (i - start)) else s.readWord b i := by
  rw [State.readWord_storeWords, List.length_map, List.length_range]
  by_cases hi : start ≤ i ∧ i < start + n
  · have hlt : i - start < n := by omega
    simp [hi, hlt]
  · rw [if_neg hi, if_neg fun h => hi h.2]

theorem State.holds_storeWords_map_range (s : State) (b : BufId) (start n : Nat)
    (x : Nat → Word) : (s.storeWords b start ((List.range n).map x)).Holds b start n x :=
  fun j hj => by
    rw [State.readWord_storeWords_map_range, if_pos (by omega), Nat.add_sub_cancel_left]

theorem State.wordsKept_storeWords_map_range (s : State) (b : BufId) (start n : Nat)
    (x : Nat → Word) :
    s.WordsKept (s.storeWords b start ((List.range n).map x)) (InRange b start n) := by
  have hkept := s.wordsKept_storeWords b start ((List.range n).map x)
  rwa [List.length_map, List.length_range] at hkept

/-! ### The effects on the words a state holds -/

theorem State.accumulate_map_range (s : State) (c n : Nat) (acc x : Nat → Word) :
    s.accumulate c ((List.range n).map acc) ((List.range n).map x) =
      (List.range n).map fun j =>
        Binary32.add32 (Config.nan (.command s.draws .olaAdd c j)) (acc j) (x j) :=
  List.ext_getElem (by simp) fun j _ _ => by simp [State.accumulate]

theorem State.rescale_map_range (s : State) (n : Nat) (acc : Nat → Word) :
    s.rescale ((List.range n).map acc) = (List.range n).map fun p =>
      Binary32.div32 (Config.nan (.command s.draws .olaScale 0 p)) (acc p) s.olaGain :=
  List.ext_getElem (by simp) fun p _ _ => by simp [State.rescale]

theorem olaClearEffect_eq (s : State) : olaClearEffect s =
    { s.storeWords .out 0 ((List.range s.olaLength).map fun _ => posZero) with
      outLen := BitVec.ofNat 32 s.olaLength } := by
  simp [olaClearEffect]

theorem olaAddEffect_of_holds {s : State} {c : Nat} {acc x : Nat → Word}
    (hacc : s.Holds .out (c * s.hopH) s.sizeN acc) (hx : s.Holds .chunk 0 s.sizeN x) :
    olaAddEffect c s = .ok (s.storeWords .out (c * s.hopH) ((List.range s.sizeN).map fun j =>
      Binary32.add32 (Config.nan (.command s.draws .olaAdd c j)) (acc j) (x j))) :=
  (olaAddEffect_ok_iff c s _).2 ⟨_, _, s.readWords_of_written .out _ _ acc hacc,
    s.readWords_of_written .chunk _ _ x hx, by rw [State.accumulate_map_range]⟩

theorem olaScaleEffect_of_holds {s : State} {acc : Nat → Word} (hacc : s.Holds .out 0 s.outN acc) :
    olaScaleEffect s = .ok (s.storeWords .out 0 ((List.range s.outN).map fun p =>
      Binary32.div32 (Config.nan (.command s.draws .olaScale 0 p)) (acc p) s.olaGain)) :=
  (olaScaleEffect_ok_iff s _).2
    ⟨_, s.readWords_of_written .out _ _ acc hacc, by rw [State.rescale_map_range]⟩

/-! ### OLA_CLEAR, OLA_ADD and OLA_SCALE -/

/-- The checks of OLA_CLEAR, SYNTH and SYNTH_OLA pass: the block is configured, and the spectra and
the output fit. -/
theorem firstFailure_of_chunksFit {s : State} {len : Nat} (hcfg : s.status.cfgValid = true)
    (hfit : s.chunksC ≤ s.params.chunkCap) (hlen : len ≤ s.params.outCap) :
    firstFailure [s.configured, s.chunksFit, (decide (s.params.outCap < len), .capacity)] =
      none := by
  simp [State.configured, State.chunksFit, firstFailure_cons, hcfg, Nat.not_lt.2 hfit,
    Nat.not_lt.2 hlen]

theorem toNat_outLen_of_legal {p : Config.Params} {len : Nat} (hp : p.Legal)
    (hlen : len ≤ p.outCap) : (BitVec.ofNat 32 len).toNat = len := by
  obtain ⟨-, -, -, -, -, -, -, -, hcap⟩ := hp
  exact toNat_ofNat_of_le len p.outCap hlen hcap

/-- Settles O38: the effect is one store of zeros and the new OUT_LEN. -/
theorem olaClearZeroesOutput : Obligations.OlaClearZeroesOutput := by
  intro s hlegal hcfg hfit hlen
  have hchecks : firstFailure s.olaChecks = none := firstFailure_of_chunksFit hcfg hfit hlen
  refine ⟨_, (exec_olaClear s).trans (s.runChecked_of_ok _ _ _ hchecks rfl), ?_⟩
  rw [olaClearEffect_eq]
  exact ⟨s.completedOk_succeed, rfl, toNat_outLen_of_legal hlegal hlen,
    s.holds_storeWords_map_range .out 0 _ _, s.wordsKept_storeWords_map_range .out 0 _ _⟩

/-- The checks of OLA_ADD: the chunk must end within OUT_LEN. -/
theorem firstFailure_olaAdd {s : State} (c : Nat) (hcfg : s.status.cfgValid = true) :
    firstFailure [s.configured, (decide (s.outN < c * s.hopH + s.sizeN), .argRange)] =
      if s.outN < c * s.hopH + s.sizeN then some .argRange else none := by
  simp [State.configured, firstFailure_cons, hcfg]

/-- Settles O39: where the chunk fits, the effect is one store of the sums; where it does not, the
check fails. -/
theorem olaAddAccumulatesChunk : Obligations.OlaAddAccumulatesChunk := by
  intro c s hcfg
  have hchecks := firstFailure_olaAdd c hcfg
  refine ⟨fun acc x hfit hacc hx => ?_, fun hbeyond => ?_⟩
  · rw [if_neg (Nat.not_lt.2 hfit)] at hchecks
    have heffect := olaAddEffect_of_holds hacc hx
    obtain ⟨hok, hregs⟩ :=
      State.completedOk_succeed_of_mem_only (olaAddEffect_mem_only c s _ heffect)
    exact ⟨_, (exec_olaAdd c s).trans (s.runChecked_of_ok _ _ _ hchecks heffect), hok, hregs,
      s.holds_storeWords_map_range .out _ _ _, s.wordsKept_storeWords_map_range .out _ _ _⟩
  · rw [if_pos hbeyond] at hchecks
    exact ⟨_, (exec_olaAdd c s).trans (s.runChecked_of_fail _ _ _ hchecks),
      s.completedWith_complete .argRange (by decide)⟩

/-- Settles O40: the exponents of the rule are those of normal words, and the effect is one store of
the quotients. -/
theorem olaScaleDividesOutput : Obligations.OlaScaleDividesOutput := by
  refine ⟨fun e hlow hhigh => ?_, fun s acc hcfg hacc => ?_⟩
  · obtain ⟨k, rfl⟩ : ∃ k : Nat, e = k - 126 := ⟨(e + 126).toNat, by omega⟩
    have hk : k ≤ 253 := by omega
    exact ⟨Binary32.isFinite_pow2 hk, Binary32.value_pow2 hk⟩
  · have hchecks : firstFailure [s.configured] = none := by
      simp [State.configured, firstFailure_cons, hcfg]
    have heffect := olaScaleEffect_of_holds hacc
    obtain ⟨hok, hregs⟩ :=
      State.completedOk_succeed_of_mem_only (olaScaleEffect_mem_only s _ heffect)
    exact ⟨_, (exec_olaScale s).trans (s.runChecked_of_ok _ _ _ hchecks heffect), hok, hregs,
      (State.holds_zero_iff ..).1 (s.holds_storeWords_map_range .out 0 _ _),
      s.wordsKept_storeWords_map_range .out 0 _ _⟩

/-! ### The loops of the two syntheses -/

/-- From `s`, a synthesis has come to `t` after `n` rounds: CHUNK holds the last of the inverses `v`
and the first `len` words of OUT hold `out`. -/
structure State.Synthesized (s : State) (v : Nat → List Word) (n len : Nat) (out : Nat → Word)
    (t : State) : Prop where
  mem_only : t = { s with mem := t.mem }
  out : t.Holds .out 0 len out
  chunk : 0 < n → t.Holds .chunk 0 s.sizeN fun j => (v (n - 1)).getD j posZero
  kept : s.WordsKept t fun b i => InRange .out 0 len b i ∨ (0 < n ∧ InRange .chunk 0 s.sizeN b i)

/-- Both parts of spectrum `c` are written, and `x` is the scaled inverse of the spectrum. -/
def State.InverseIs (s : State) (c : Nat) (x : List Word) : Prop :=
  ∃ re im : Nat → Word, s.Holds .specRe (s.rowStart c) (s.sizeN / 2) re ∧
    s.Holds .specIm (s.rowStart c) (s.sizeN / 2) im ∧
    x = s.inverseChunk c ⟨(List.range (s.sizeN / 2)).map re, (List.range (s.sizeN / 2)).map im⟩

theorem eq_map_range_getD {n : Nat} {ws : List Word} (h : ws.length = n) :
    ws = (List.range n).map fun j => ws.getD j posZero :=
  List.ext_getElem (by simp [h]) fun j hj _ => by simp [hj]

/-- With the spectrum written, the effect of INV is one store of its inverse. -/
theorem invEffect_of_inverseIs {s : State} {c : Nat} {x : List Word} (h : s.InverseIs c x) :
    invEffect c s =
      .ok (s.storeWords .chunk 0 ((List.range s.sizeN).map fun j => x.getD j posZero)) := by
  obtain ⟨re, im, hre, him, rfl⟩ := h
  rw [← eq_map_range_getD (s.inverseChunk_length c _)]
  exact (invEffect_ok_iff c s _).2 ⟨⟨_, _⟩, (readSpectrum_ok_iff c s _).2
    ⟨s.readWords_of_written .specRe _ _ re hre, s.readWords_of_written .specIm _ _ im him⟩, rfl⟩

section
variable {s t : State} {v : Nat → List Word} {n len : Nat} {out : Nat → Word}

theorem State.synthesized_zero (s : State) (v : Nat → List Word) (out : Nat → Word) :
    s.Synthesized v 0 0 out s where
  mem_only := rfl
  out := fun _ hj => absurd hj (Nat.not_lt_zero _)
  chunk := fun h => absurd h (Nat.lt_irrefl 0)
  kept := fun _ _ _ => rfl

/-- A store of `k` words of OUT, after which `out'` describes the first `len'` words. -/
theorem State.Synthesized.storeOut (h : s.Synthesized v n len out t) {start k len' : Nat}
    {x out' : Nat → Word} (hlen : len ≤ len') (hend : start + k ≤ len')
    (hin : ∀ j < k, out' (start + j) = x j)
    (hold : ∀ p < len', ¬ (start ≤ p ∧ p < start + k) → p < len ∧ out' p = out p) :
    s.Synthesized v n len' out' (t.storeWords .out start ((List.range k).map x)) where
  mem_only := by
    obtain ⟨mem, rfl⟩ : ∃ mem, t = { s with mem := mem } := ⟨_, h.mem_only⟩
    rfl
  out := (State.holds_zero_iff ..).2 fun p hp => by
    rw [State.readWord_storeWords_map_range]
    split
    case isTrue hr => rw [← hin _ (by omega), Nat.add_sub_cancel' hr.1]
    case isFalse hr =>
      obtain ⟨hlt, heq⟩ := hold p hp hr
      rw [heq, (State.holds_zero_iff ..).1 h.out p hlt]
  chunk := fun hn => (h.chunk hn).of_wordsKept (t.wordsKept_storeWords_map_range .out start k x)
    fun _ hr => nomatch hr.1
  kept := (h.kept.trans (t.wordsKept_storeWords_map_range .out start k x)).mono fun b i => by
    rintro ((⟨hb, h0, hi⟩ | hchunk) | ⟨hb, h0, hi⟩)
    · exact .inl ⟨hb, h0, by omega⟩
    · exact .inr hchunk
    · exact .inl ⟨hb, by omega, by omega⟩

/-- A synthesis stores no word of a spectrum. -/
theorem State.Synthesized.inverseIs (h : s.Synthesized v n len out t) {c : Nat} {x : List Word}
    (hx : s.InverseIs c x) : t.InverseIs c x := by
  obtain ⟨mem, rfl⟩ : ∃ mem, t = { s with mem := mem } := ⟨_, h.mem_only⟩
  obtain ⟨re, im, hre, him, rfl⟩ := hx
  exact ⟨re, im, hre.of_wordsKept h.kept fun _ hr => hr.elim (nomatch ·.1) (nomatch ·.2.1),
    him.of_wordsKept h.kept fun _ hr => hr.elim (nomatch ·.1) (nomatch ·.2.1), rfl⟩

/-- The INV of a round leaves the inverse in CHUNK and OUT as it was. -/
theorem State.Synthesized.inv (h : s.Synthesized v n len out t) (hn : s.InverseIs n (v n)) :
    ∃ u, invEffect n t = .ok u ∧ s.Synthesized v (n + 1) len out u := by
  have heffect := invEffect_of_inverseIs (h.inverseIs hn)
  obtain ⟨mem, rfl⟩ : ∃ mem, t = { s with mem := mem } := ⟨_, h.mem_only⟩
  have hkept := State.wordsKept_storeWords_map_range { s with mem := mem } .chunk 0 s.sizeN
    fun j => (v n).getD j posZero
  refine ⟨_, heffect, ⟨rfl, h.out.of_wordsKept hkept (fun _ hr => nomatch hr.1),
    fun _ => State.holds_storeWords_map_range _ .chunk 0 _ _, (h.kept.trans hkept).mono ?_⟩⟩
  rintro b i ((hout | ⟨-, hchunk⟩) | hchunk)
  exacts [.inl hout, .inr ⟨n.succ_pos, hchunk⟩, .inr ⟨n.succ_pos, hchunk⟩]

/-! ### SYNTH -/

/-- Word `p` of the inverses one after another (R555). -/
def State.concatWord (s : State) (v : Nat → List Word) (p : Nat) : Word :=
  (v (p / s.sizeN)).getD (p % s.sizeN) posZero

theorem State.concatWord_add (s : State) (v : Nat → List Word) (c : Nat) {j : Nat}
    (hj : j < s.sizeN) : s.concatWord v (c * s.sizeN + j) = (v c).getD j posZero := by
  rw [State.concatWord, Nat.mul_comm, Nat.mul_add_div (by omega), Nat.div_eq_of_lt hj,
    Nat.mul_add_mod, Nat.mod_eq_of_lt hj, Nat.add_zero]

theorem State.Synthesized.synthRound
    (h : s.Synthesized v n (n * s.sizeN) (s.concatWord v) t) (hn : s.InverseIs n (v n)) :
    ∃ u, synthRound n t = .ok u ∧
      s.Synthesized v (n + 1) ((n + 1) * s.sizeN) (s.concatWord v) u := by
  obtain ⟨u, hinv, hu⟩ := h.inv hn
  have hN : u.sizeN = s.sizeN := by rw [hu.mem_only]; rfl
  have hread := u.readWords_of_written .chunk 0 s.sizeN _ (hu.chunk n.succ_pos)
  refine ⟨_, (synthRound_ok_iff n t _).2 ⟨u, _, hinv, hN ▸ hread, rfl⟩, ?_⟩
  rw [hN]
  refine hu.storeOut (Nat.mul_le_mul_right _ n.le_succ) (Nat.succ_mul ..).ge
    (fun j hj => s.concatWord_add v n hj) fun p hp hr => ⟨?_, rfl⟩
  rw [Nat.succ_mul] at hp
  omega

/-- With the spectra written, the effect of SYNTH runs through all of them. -/
theorem synthEffect_of_inverseIs (h : ∀ c < s.chunksC, s.InverseIs c (v c)) :
    ∃ u, s.Synthesized v s.chunksC (s.chunksC * s.sizeN) (s.concatWord v) u ∧
      synthEffect s = .ok { u with outLen := BitVec.ofNat 32 (s.chunksC * s.sizeN) } := by
  have hstart : s.Synthesized v 0 (0 * s.sizeN) (s.concatWord v) s := by
    rw [Nat.zero_mul]
    exact s.synthesized_zero v _
  obtain ⟨u, hloop, hu⟩ := forEach_total synthRound
    (fun n => s.Synthesized v n (n * s.sizeN) (s.concatWord v)) s.chunksC s hstart
    fun n hn _ ht => ht.synthRound (h n hn)
  exact ⟨u, hu, (synthEffect_ok_iff s _).2 ⟨u, hloop, rfl⟩⟩

end

/-- Settles O42: the loop ends with all inverses in OUT and the last one in CHUNK. -/
theorem synthConcatenatesInverses : Obligations.SynthConcatenatesInverses := by
  intro s re im hlegal hcfg hfit hlen hspec v
  have hchecks := firstFailure_of_chunksFit hcfg hfit hlen
  obtain ⟨u, hu, heffect⟩ := synthEffect_of_inverseIs (v := v) fun c hc =>
    have ⟨hre, him⟩ := hspec c hc
    ⟨re c, im c, hre, him, rfl⟩
  obtain ⟨mem, rfl⟩ : ∃ mem, u = { s with mem := mem } := ⟨_, hu.mem_only⟩
  have hout := (State.holds_zero_iff ..).1 hu.out
  refine ⟨_, (exec_synth s).trans (s.runChecked_of_ok _ _ _ hchecks heffect),
    s.completedOk_succeed, rfl, toNat_outLen_of_legal hlegal hlen, fun c hc j hj => ?_,
    fun hC => (State.holds_zero_iff ..).1 (hu.chunk hC), hu.kept⟩
  have hend : (c + 1) * s.sizeN ≤ s.chunksC * s.sizeN := Nat.mul_le_mul_right _ hc
  rw [Nat.succ_mul] at hend
  rw [← s.concatWord_add v c hj]
  exact hout _ (by omega)

/-! ### SYNTH_OLA -/

section
variable {s t : State} {v : Nat → List Word} {n len : Nat} {out : Nat → Word}

theorem State.olaSum_succ_of_covered (s : State) (v : Nat → List Word) (n : Nat) {j : Nat}
    (hj : j < s.sizeN) : s.olaSum v (n * s.hopH + j) (n + 1) =
      Binary32.add32 (Config.nan (.command s.draws .olaAdd n j)) (s.olaSum v (n * s.hopH + j) n)
        ((v n).getD j posZero) := by
  rw [State.olaSum, if_pos (by omega), Nat.add_sub_cancel_left]

theorem State.olaSum_succ_of_not_covered (s : State) (v : Nat → List Word) {n p : Nat}
    (hp : ¬ (n * s.hopH ≤ p ∧ p < n * s.hopH + s.sizeN)) :
    s.olaSum v p (n + 1) = s.olaSum v p n := by
  rw [State.olaSum, if_neg hp]

/-- The sum reads neither OUT_LEN nor the buffers. -/
theorem State.olaSum_setOutLen (s : State) (len : Word) (v : Nat → List Word) (p n : Nat) :
    ({ s with outLen := len } : State).olaSum v p n = s.olaSum v p n := by
  induction n with
  | zero => rfl
  | succ n ih => rw [State.olaSum, State.olaSum, ih]; rfl

/-- A round adds its inverse to the words it covers. -/
theorem State.Synthesized.synthOlaRound (h : s.Synthesized v n len (fun p => s.olaSum v p n) t)
    (hlen : n * s.hopH + s.sizeN ≤ len) (hn : s.InverseIs n (v n)) :
    ∃ u, synthOlaRound n t = .ok u ∧
      s.Synthesized v (n + 1) len (fun p => s.olaSum v p (n + 1)) u := by
  obtain ⟨w, hinv, hw⟩ := h.inv hn
  obtain ⟨mem, rfl⟩ : ∃ mem, w = { s with mem := mem } := ⟨_, hw.mem_only⟩
  have hacc : State.Holds { s with mem := mem } .out (n * s.hopH) s.sizeN
      fun j => s.olaSum v (n * s.hopH + j) n :=
    fun j hj => (State.holds_zero_iff ..).1 hw.out _ (by omega)
  have hadd := olaAddEffect_of_holds hacc (hw.chunk n.succ_pos)
  exact ⟨_, (synthOlaRound_ok_iff n t _).2 ⟨_, hinv, hadd⟩, hw.storeOut le_rfl hlen
    (fun j hj => s.olaSum_succ_of_covered v n hj)
    fun p hp hr => ⟨hp, s.olaSum_succ_of_not_covered v hr⟩⟩

/-- The final division (R557). -/
theorem State.Synthesized.olaScale (h : s.Synthesized v n s.outN out t) :
    ∃ u, olaScaleEffect t = .ok u ∧ s.Synthesized v n s.outN (fun p =>
      Binary32.div32 (Config.nan (.command s.draws .olaScale 0 p)) (out p) s.olaGain) u := by
  obtain ⟨mem, rfl⟩ : ∃ mem, t = { s with mem := mem } := ⟨_, h.mem_only⟩
  exact ⟨_, olaScaleEffect_of_holds h.out, h.storeOut (k := s.outN) le_rfl (Nat.zero_add _).le
    (fun _ _ => by rw [Nat.zero_add]; rfl) fun p hp hr => absurd ⟨p.zero_le, by omega⟩ hr⟩

/-- OLA_CLEAR starts the sums at +0.0. -/
theorem State.synthesized_olaClear (s : State) (v : Nat → List Word) :
    State.Synthesized { s with outLen := BitVec.ofNat 32 s.olaLength } v 0 s.olaLength
      (fun _ => posZero) (olaClearEffect s) := by
  rw [olaClearEffect_eq]
  exact (State.synthesized_zero _ v fun _ => posZero).storeOut (Nat.zero_le _)
    (Nat.zero_add _).le (fun _ _ => rfl) fun p hp hr => absurd ⟨p.zero_le, by omega⟩ hr

/-- From the zeros on, the rounds and the division leave the divided sums in OUT. -/
theorem State.Synthesized.synthOla (h : s.Synthesized v 0 s.outN (fun _ => posZero) t)
    (hlen : s.outN = s.olaLength) (hinv : ∀ c < s.chunksC, s.InverseIs c (v c)) :
    ∃ u w, forEach Machine.synthOlaRound s.chunksC t = .ok u ∧ olaScaleEffect u = .ok w ∧
      s.Synthesized v s.chunksC s.outN (fun p =>
        Binary32.div32 (Config.nan (.command s.draws .olaScale 0 p)) (s.olaSum v p s.chunksC)
          s.olaGain) w := by
  have hfits : ∀ n < s.chunksC, n * s.hopH + s.sizeN ≤ s.outN := fun n hn =>
    hlen ▸ Nat.add_le_add_right (Nat.mul_le_mul_right _ hn.le) _
  obtain ⟨u, hloop, hu⟩ := forEach_total Machine.synthOlaRound
    (fun n => s.Synthesized v n s.outN fun p => s.olaSum v p n) s.chunksC t h
    fun n hn _ ht => ht.synthOlaRound (hfits n hn) (hinv n hn)
  obtain ⟨w, hscale, hw⟩ := hu.olaScale
  exact ⟨u, w, hloop, hscale, hw⟩

end

/-- Settles O43: OLA_CLEAR, the rounds and OLA_SCALE, all of them in the state with the new
OUT_LEN. -/
theorem synthOlaSumsInIndexOrder : Obligations.SynthOlaSumsInIndexOrder := by
  intro s re im hlegal hcfg hfit hlen hspec v Lout
  have hchecks : firstFailure s.olaChecks = none := firstFailure_of_chunksFit hcfg hfit hlen
  have hout : (BitVec.ofNat 32 Lout).toNat = Lout := toNat_outLen_of_legal hlegal hlen
  have hclear := s.synthesized_olaClear v
  obtain ⟨u, w, hloop, hscale, hw⟩ :=
    State.Synthesized.synthOla (s := { s with outLen := BitVec.ofNat 32 Lout }) (v := v)
      (t := olaClearEffect s) (by rw [State.outN, hout]; exact hclear) hout
      fun c hc => have ⟨hre, him⟩ := hspec c hc; ⟨re c, im c, hre, him, rfl⟩
  rw [State.outN, hout] at hw
  obtain ⟨mem, rfl⟩ : ∃ mem, w = { s with outLen := BitVec.ofNat 32 Lout, mem := mem } :=
    ⟨_, hw.mem_only⟩
  have heffect := (synthOlaEffect_ok_iff s _).2 ⟨u, hloop, hscale⟩
  refine ⟨_, (exec_synthOla s).trans (s.runChecked_of_ok _ _ _ hchecks heffect),
    s.completedOk_succeed, rfl, hout, fun p hp => ?_,
    fun hC => (State.holds_zero_iff ..).1 (hw.chunk hC), hw.kept⟩
  rw [← s.olaSum_setOutLen (BitVec.ofNat 32 Lout)]
  exact (State.holds_zero_iff ..).1 hw.out p hp

end Sys2Proof.Machine
end

section
/-! PROOF. The band unit (44_band.md R600 to R613): the floor of a word and the value of a number,
BAND, and ZERO_BAND as zeros stored at the words of the band, a relation of two memories that the
two stores of a round and the rounds of the loop compose. -/

namespace Sys2Proof.Binary32

/-! ### Numbers and words -/

/-- A word counts its units of 2^-149, so its floor is an integer quotient (R19). -/
theorem floorInt_eq_floor_value (w : Word) : floorInt w = ⌊value w⌋ := by
  have hfloor := Rat.floor_intCast_div_natCast (units w) (2 ^ 149)
  rw [floorInt, value]
  push_cast at hfloor
  exact hfloor.symm

theorem ofNat_roundsTo {n : Nat} (hn : 0 < n) : RoundsTo (n : ℚ) (ofNat n) := by
  have hvalue : signed false (ofUnits (n * 2 ^ 149) 1) = n := by
    rw [signed_false, ofUnits, Nat.cast_one, div_one, Nat.cast_mul, Nat.cast_pow, Nat.cast_ofNat,
      mul_div_cancel_right₀ _ (by positivity)]
  have hround := round_roundsTo false (n * 2 ^ 149) 1 (by positivity) one_pos
  rwa [hvalue] at hround

end Sys2Proof.Binary32

namespace Sys2Proof.Machine

theorem exec_band (s : State) : exec .band s = execBand s := rfl

theorem exec_zeroBand (s : State) : exec .zeroBand s = execZeroBand s := rfl

/-- A failed check completes the command with its code and changes nothing else (R706). -/
theorem State.runChecked_completedWith {s : State} {checks : List (Bool × ErrCode)}
    {code : ErrCode} (effect : State → Except Fault State) (hcode : code ≠ .ok)
    (hchecks : firstFailure checks = some code) :
    ∃ t, s.runChecked checks effect = .next t ∧ s.CompletedWith t code.toByte :=
  ⟨_, s.runChecked_of_fail checks effect code hchecks, s.completedWith_complete code hcode⟩

/-! ### BAND -/

theorem bandOutside_eq_false_iff (q : Word) : bandOutside q = false ↔
    Binary32.isFinite q = true ∧ -2 ^ 31 ≤ Binary32.floorInt q ∧
      Binary32.floorInt q ≤ 2 ^ 31 - 1 := by
  simp [bandOutside, and_assoc]

theorem State.firstFailure_band {s : State} (hcfg : s.status.cfgValid = true) :
    firstFailure [s.configured, (bandOutside s.bandQuotient, .bandConvert)] =
      if bandOutside s.bandQuotient then some .bandConvert else none := by
  simp [State.configured, firstFailure_cons, hcfg]

theorem execBand_of_inside {s : State} (hcfg : s.status.cfgValid = true)
    (hinside : bandOutside s.bandQuotient = false) :
    execBand s = .next (State.succeed
      { s with bandIdx := BitVec.ofInt 32 (Binary32.floorInt s.bandQuotient) }) := by
  have hchecks := State.firstFailure_band hcfg
  rw [if_neg (ne_true_of_eq_false hinside)] at hchecks
  exact s.runChecked_of_ok _ _ _ hchecks rfl

theorem execBand_of_outside {s : State} (hcfg : s.status.cfgValid = true)
    (houtside : bandOutside s.bandQuotient = true) :
    ∃ t, execBand s = .next t ∧ s.CompletedWith t ErrCode.bandConvert.toByte := by
  have hchecks := State.firstFailure_band hcfg
  rw [if_pos houtside] at hchecks
  exact State.runChecked_completedWith _ (by decide) hchecks

/-- Settles O44: the quotient of the rule is `bandQuotient`, and a floor in the int32 range is the
value of the word written. -/
theorem bandWritesFloorOfQuotient : Obligations.BandWritesFloorOfQuotient := by
  refine ⟨fun q _ => Binary32.floorInt_eq_floor_value q, fun n => Binary32.ofNat_roundsTo, ?_⟩
  intro s hcfg nan nyq fpb q
  rw [← bandOutside_eq_false_iff]
  refine ⟨fun hinside => ?_, fun houtside => ?_⟩
  · obtain ⟨-, hlow, hhigh⟩ := (bandOutside_eq_false_iff q).1 hinside
    exact ⟨_, (exec_band s).trans (execBand_of_inside hcfg hinside), State.completedOk_succeed _,
      rfl, rfl, BitVec.toInt_ofInt_eq_self (by decide) hlow (Int.lt_of_le_sub_one hhigh)⟩
  · exact execBand_of_outside hcfg (eq_true_of_ne_false houtside)

/-! ### The checks of ZERO_BAND -/

/-- The range is checked from above, the order of its ends next, then its lower end (R610). -/
theorem State.firstFailure_zeroBandChecks {s : State} (hcfg : s.status.cfgValid = true) :
    firstFailure s.zeroBandChecks =
      if (s.bandsM : Int) < s.upperBand.toInt then some .rangeOutOfRange
      else if s.upperBand.toInt < s.lowerBand.toInt then some .rangeMinGtMax
      else if s.lowerBand.toInt < 0 then some .rangeMinLtZero
      else if s.params.chunkCap < s.chunksC then some .capacity else none := by
  rw [State.zeroBandChecks, State.bandHi, State.bandLo]
  simp [State.configured, State.chunksFit, firstFailure_cons, hcfg]

/-- Settles O46: each clause is one failing branch of the checks. -/
theorem zeroBandReportsFirstRangeError : Obligations.ZeroBandReportsFirstRangeError := by
  intro s hcfg hi lo M
  have hchecks := State.firstFailure_zeroBandChecks hcfg
  refine ⟨fun hhi => ?_, fun hhi hlo => ?_, fun hhi hlo hneg => ?_, fun hhi hlo hneg hcap => ?_⟩
  · rw [if_pos hhi] at hchecks
    exact State.runChecked_completedWith _ (by decide) hchecks
  · rw [if_neg hhi.not_gt, if_pos hlo] at hchecks
    exact State.runChecked_completedWith _ (by decide) hchecks
  · rw [if_neg hhi.not_gt, if_neg hlo.not_gt, if_pos hneg] at hchecks
    exact State.runChecked_completedWith _ (by decide) hchecks
  · rw [if_neg hhi.not_gt, if_neg hlo.not_gt, if_neg hneg.not_gt, if_pos hcap] at hchecks
    exact State.runChecked_completedWith _ (by decide) hchecks

/-! ### Zeros stored into a memory -/

/-- The memory `m'` is `m` with +0.0 stored at the words of `p`. -/
structure Memory.ZeroedAt (m m' : Memory) (p : BufId → Nat → Prop) : Prop where
  zero : ∀ b i, p b i → m'.readWord b i = some posZero
  kept : ∀ b i, ¬ p b i → m'.readWord b i = m.readWord b i
  wf : m.wf → m'.wf

theorem Memory.zeroedAt_storeWords (m : Memory) (b : BufId) (start n : Nat) :
    m.ZeroedAt (m.storeWords b start (List.replicate n posZero)) (InRange b start n) where
  zero := fun b' i h => by
    obtain ⟨hb, hlo, hhi⟩ := h
    have hlt : i - start < n := by omega
    simp [Memory.readWord_storeWords, hb, hlo, hhi, hlt]
  kept := fun b' i h => by
    rw [Memory.readWord_storeWords, List.length_replicate]
    exact if_neg h
  wf := m.storeWords_wf b start _

theorem Memory.ZeroedAt.trans {m m' m'' : Memory} {p q : BufId → Nat → Prop}
    (h : m.ZeroedAt m' p) (h' : m'.ZeroedAt m'' q) :
    m.ZeroedAt m'' fun b i => p b i ∨ q b i where
  zero := fun b i hpq => by
    by_cases hq : q b i
    · exact h'.zero b i hq
    · exact (h'.kept b i hq).trans (h.zero b i (hpq.resolve_right hq))
  kept := fun b i hpq =>
    (h'.kept b i fun hq => hpq (.inr hq)).trans (h.kept b i fun hp => hpq (.inl hp))
  wf := fun hm => h'.wf (h.wf hm)

theorem Memory.ZeroedAt.congr {m m' : Memory} {p q : BufId → Nat → Prop}
    (h : m.ZeroedAt m' p) (hpq : ∀ b i, q b i ↔ p b i) : m.ZeroedAt m' q where
  zero := fun b i hq => h.zero b i ((hpq b i).1 hq)
  kept := fun b i hq => h.kept b i fun hp => hq ((hpq b i).2 hp)
  wf := h.wf

theorem Memory.readWord_eq_or (m : Memory) (b : BufId) (i : Nat) :
    m.readWord b i = ((m.buffer b).find i).or b.unlisted := by
  unfold Memory.readWord
  cases (m.buffer b).find i <;> rfl

theorem Memory.ext_buffer {m m' : Memory} (h : ∀ b, m.buffer b = m'.buffer b) : m = m' := by
  cases m
  cases m'
  rw [Memory.mk.injEq]
  exact ⟨h .win, h .chunk, h .sig, h .specRe, h .specIm, h .out, h .disp⟩

/-- In canonical form no index is listed with what it would read as unlisted. -/
theorem Buffer.find_ne_unlisted {u : Option Word} {b : Buffer} (h : b.Canonical u) {i : Nat}
    {w : Word} (hw : Buffer.find i b = some w) : some w ≠ u := by
  obtain ⟨-, hlisted⟩ := h
  induction b with
  | nil => cases hw
  | cons c b ih =>
    rw [Buffer.find_cons] at hw
    split at hw
    · exact Option.some.inj hw ▸ hlisted c (List.mem_cons_self ..)
    · exact ih hw fun d hd => hlisted d (List.mem_cons_of_mem _ hd)

/-- Canonical memories that read alike are equal. -/
theorem Memory.eq_of_readWord {m m' : Memory} (hm : m.wf) (hm' : m'.wf)
    (h : ∀ b i, m.readWord b i = m'.readWord b i) : m = m' := by
  refine Memory.ext_buffer fun b => ?_
  have hc := m.wf_iff.1 hm b
  have hc' := m'.wf_iff.1 hm' b
  refine Buffer.eq_of_find b.unlisted _ _ hc hc' fun i => ?_
  have hread := h b i
  rw [Memory.readWord_eq_or, Memory.readWord_eq_or] at hread
  cases hf : (m.buffer b).find i with
  | none =>
    cases hf' : (m'.buffer b).find i with
    | none => rfl
    | some w =>
      rw [hf, hf'] at hread
      exact absurd hread.symm (Buffer.find_ne_unlisted hc' hf')
  | some v =>
    cases hf' : (m'.buffer b).find i with
    | none =>
      rw [hf, hf'] at hread
      exact absurd hread (Buffer.find_ne_unlisted hc hf)
    | some w => rwa [hf, hf'] at hread

/-- Zeros stored over the same zeros change nothing. -/
theorem Memory.ZeroedAt.eq_of_again {m m' m'' : Memory} {p : BufId → Nat → Prop} (hm : m.wf)
    (h : m.ZeroedAt m' p) (h' : m'.ZeroedAt m'' p) : m'' = m' := by
  refine Memory.eq_of_readWord (h'.wf (h.wf hm)) (h.wf hm) fun b i => ?_
  by_cases hp : p b i
  · exact (h'.zero b i hp).trans (h.zero b i hp).symm
  · exact h'.kept b i hp

/-! ### The effect of ZERO_BAND -/

/-- The words of the band in the two parts of the spectra below `n` (R610). -/
def State.InBand (s : State) (n : Nat) (b : BufId) (i : Nat) : Prop :=
  (b = .specRe ∨ b = .specIm) ∧ ∃ c < n, s.rowStart c + s.bandLo.toNat ≤ i ∧
    i < s.rowStart c + s.bandHi.toNat

/-- A round adds the ranges its two stores cover; a range whose ends are in the wrong order is
empty. -/
theorem State.inBand_succ_iff (s : State) (n : Nat) (b : BufId) (i : Nat) :
    s.InBand (n + 1) b i ↔ s.InBand n b i ∨
      InRange .specRe (s.rowStart n + s.bandLo.toNat) (s.bandHi.toNat - s.bandLo.toNat) b i ∨
      InRange .specIm (s.rowStart n + s.bandLo.toNat) (s.bandHi.toNat - s.bandLo.toNat) b i := by
  have hend : ∀ start lo hi : Nat, start + lo ≤ i ∧ i < start + lo + (hi - lo) ↔
      start + lo ≤ i ∧ i < start + hi := by omega
  simp only [State.InBand, InRange, Nat.exists_lt_succ_right, hend, ← or_and_right, and_or_left]

/-- The rounds zero the band of the spectra they have come to. -/
theorem forEach_zeroBandRound (n : Nat) (s : State) : ∃ t, forEach zeroBandRound n s = .ok t ∧
    t = { s with mem := t.mem } ∧ s.mem.ZeroedAt t.mem (s.InBand n) := by
  refine forEach_total zeroBandRound
    (fun n t => t = { s with mem := t.mem } ∧ s.mem.ZeroedAt t.mem (s.InBand n)) n s
    ⟨rfl, fun b i h => ?_, fun _ _ _ => rfl, id⟩ fun c _ t h => ?_
  · obtain ⟨-, c, hc, -⟩ := h
    exact absurd hc c.not_lt_zero
  · obtain ⟨hmem, hzeroed⟩ := h
    obtain ⟨m, rfl⟩ : ∃ m, t = { s with mem := m } := ⟨_, hmem⟩
    exact ⟨_, rfl, rfl, (hzeroed.trans ((m.zeroedAt_storeWords .specRe _ _).trans
      (Memory.zeroedAt_storeWords _ .specIm _ _))).congr (s.inBand_succ_iff c)⟩

/-- Settles O45: with the checks passed, the loop zeroes the band of every spectrum. -/
theorem zeroBandZeroesHalfOpenRange : Obligations.ZeroBandZeroesHalfOpenRange := by
  intro s hcfg hhi hlo hneg hcap zeroed
  have hchecks := State.firstFailure_zeroBandChecks hcfg
  rw [if_neg hhi.not_gt, if_neg hlo.not_gt, if_neg hneg.not_gt, if_neg hcap.not_gt] at hchecks
  obtain ⟨u, heffect, hmem, hzeroed⟩ := forEach_zeroBandRound s.chunksC s
  obtain ⟨hok, hregs⟩ := State.completedOk_succeed_of_mem_only hmem
  exact ⟨_, (exec_zeroBand s).trans (s.runChecked_of_ok _ _ _ hchecks heffect), hok, hregs,
    hzeroed.zero, hzeroed.kept⟩

/-! ### ZERO_BAND twice -/

/-- What ZERO_BAND answers: its own operands are as before, and the band is zeroed exactly where the
checks pass. -/
theorem execZeroBand_next {s t : State} (h : execZeroBand s = .next t) :
    t.zeroBandChecks = s.zeroBandChecks ∧ t.InBand t.chunksC = s.InBand s.chunksC ∧
    (firstFailure s.zeroBandChecks = none → s.mem.ZeroedAt t.mem (s.InBand s.chunksC)) ∧
    (firstFailure s.zeroBandChecks ≠ none → t.mem = s.mem) := by
  obtain ⟨code, hcode, rfl⟩ | ⟨hnone, v, hv, rfl⟩ := (s.runChecked_next_iff t _ _).1 h
  · exact ⟨rfl, rfl, fun hnone => (Option.some_ne_none code (hcode.symm.trans hnone)).elim,
      fun _ => rfl⟩
  · obtain ⟨w, hw, hmem, hzeroed⟩ := forEach_zeroBandRound s.chunksC s
    obtain rfl : w = v := Except.ok.inj (hw.symm.trans hv)
    obtain ⟨m, rfl⟩ : ∃ m, w = { s with mem := m } := ⟨_, hmem⟩
    exact ⟨rfl, rfl, fun _ => hzeroed, fun hfail => absurd hnone hfail⟩

/-- Settles O47: the second command makes the same checks, and zeroes the words the first one has
zeroed. -/
theorem zeroBandIsIdempotent : Obligations.ZeroBandIsIdempotent := by
  intro s t u hwf ht hu
  obtain ⟨hchecks, hband, hpass, -⟩ := execZeroBand_next ht
  obtain ⟨-, -, hpass', hfail'⟩ := execZeroBand_next hu
  rw [hchecks] at hpass' hfail'
  rw [hband] at hpass'
  by_cases hnone : firstFailure s.zeroBandChecks = none
  · exact (hpass hnone).eq_of_again hwf (hpass' hnone)
  · exact hfail' hnone

end Sys2Proof.Machine
end

section
/-! PROOF. The display unit (45_display.md R650 to R663): the sign of a squared magnitude, the order
of words as that of their values, the laws of LOG10, and MAG, TRIM and DB. MAG and DB are two cases
of one loop that writes a row of the display matrix in each round. -/

namespace Sys2Proof.Binary32

/-! ### Squared magnitudes -/

/-- A NaN or a word with a clear sign bit: neither negative nor `−0.0`. -/
def IsNaNOrUnsigned (w : Word) : Prop := isNaN w = true ∨ signBit w = false

theorem mul32_self_isNaNOrUnsigned {nan : Word} (hnan : isNaN nan = true) (a : Word) :
    IsNaNOrUnsigned (mul32 nan a a) := by
  cases ha : isNaN a with
  | true => rw [mul32_of_isNaN nan a a (.inl ha)]; exact .inl hnan
  | false =>
    cases hinf : isInf a with
    | true =>
      rw [mul32_of_isInf nan a a ha ha (.inl hinf), isZero_of_isInf a hinf,
        bne_self_eq_false]
      exact .inr rfl
    | false =>
      have hfin := isFinite_of_not_isNaN a ha hinf
      rw [mul32_of_isFinite nan a a hfin hfin]
      exact .inr (by rw [signBit_round, bne_self_eq_false])

theorem addFinite_unsigned {a b : Word} (ha : signBit a = false) (hb : signBit b = false) :
    signBit (addFinite a b) = false := by
  rw [addFinite, if_pos (ha.trans hb.symm), signBit_round, ha]

theorem add32_isNaNOrUnsigned {nan a b : Word} (hnan : isNaN nan = true)
    (ha : IsNaNOrUnsigned a) (hb : IsNaNOrUnsigned b) : IsNaNOrUnsigned (add32 nan a b) := by
  cases hna : isNaN a with
  | true => rw [add32_of_isNaN nan a b (.inl hna)]; exact .inl hnan
  | false =>
    cases hnb : isNaN b with
    | true => rw [add32_of_isNaN nan a b (.inr hnb)]; exact .inl hnan
    | false =>
      have hsa : signBit a = false := ha.resolve_left (ne_true_of_eq_false hna)
      have hsb : signBit b = false := hb.resolve_left (ne_true_of_eq_false hnb)
      cases hia : isInf a with
      | true =>
        cases hib : isInf b with
        | true => rw [add32_inf_inf nan a b hia hib, if_pos (hsa.trans hsb.symm)]; exact ha
        | false => rw [add32_inf_finite nan a b hia (isFinite_of_not_isNaN b hnb hib)]; exact ha
      | false =>
        have hfa := isFinite_of_not_isNaN a hna hia
        cases hib : isInf b with
        | true => rw [add32_finite_inf nan a b hfa hib]; exact hb
        | false =>
          rw [add32_of_isFinite nan a b hfa (isFinite_of_not_isNaN b hnb hib)]
          exact .inr (addFinite_unsigned hsa hsb)

/-- Settles O49: squares have a clear sign bit or are NaNs, and sums of such words are too. -/
theorem squaredMagnitudeIsNotNegative : Obligations.SquaredMagnitudeIsNotNegative :=
  fun _ _ _ re im hsum hre him => add32_isNaNOrUnsigned hsum
    (mul32_self_isNaNOrUnsigned hre re) (mul32_self_isNaNOrUnsigned him im)

/-! ### The ordered comparison -/

theorem gt32_of_isNaN {a b : Word} (h : isNaN a = true ∨ isNaN b = true) : gt32 a b = false := by
  rcases h with h | h <;> simp [gt32, h]

theorem gt32_of_not_isNaN {a b : Word} (ha : isNaN a = false) (hb : isNaN b = false) :
    gt32 a b = decide (orderKey b < orderKey a) := by
  simp [gt32, ha, hb]

/-- The signed bits of words are ordered as their signed units are, since the magnitudes are. -/
theorem units_lt_iff_orderKey_lt (a b : Word) : units b < units a ↔ orderKey b < orderKey a := by
  have hba : magUnits (magBits b) < magUnits (magBits a) ↔ magBits b < magBits a :=
    magUnits_strictMono.lt_iff_lt
  have hab : magUnits (magBits a) < magUnits (magBits b) ↔ magBits a < magBits b :=
    magUnits_strictMono.lt_iff_lt
  have ha := magUnits_eq_zero (magBits a)
  have hb := magUnits_eq_zero (magBits b)
  unfold units orderKey
  split <;> split <;> omega

theorem value_lt_iff_orderKey_lt (a b : Word) : value b < value a ↔ orderKey b < orderKey a := by
  rw [value, value, div_lt_div_iff_of_pos_right (by positivity), Int.cast_lt,
    units_lt_iff_orderKey_lt]

/-- The keys of the infinities enclose those of the finite words. -/
theorem orderKey_of_isFinite {w : Word} (h : isFinite w = true) :
    orderKey negInf < orderKey w ∧ orderKey w < orderKey posInf := by
  have hneg : orderKey negInf = -(infBits : Int) := by decide
  have hpos : orderKey posInf = infBits := by decide
  rw [isFinite, decide_eq_true_eq] at h
  rw [hneg, hpos, orderKey]
  split <;> omega

/-- The comparison of R655: ordered by value, the infinities at the ends, false with a NaN. -/
theorem gt32_spec (a b : Word) :
    (isNaN a = true ∨ isNaN b = true → gt32 a b = false) ∧
    (isFinite a = true → isFinite b = true → (gt32 a b = true ↔ value b < value a)) ∧
    (isFinite b = true → gt32 posInf b = true ∧ gt32 negInf b = false) := by
  refine ⟨gt32_of_isNaN, fun ha hb => ?_, fun hb => ?_⟩
  · rw [gt32_of_not_isNaN (isNaN_of_isFinite a ha) (isNaN_of_isFinite b hb), decide_eq_true_eq,
      value_lt_iff_orderKey_lt]
  · obtain ⟨hlow, hhigh⟩ := orderKey_of_isFinite hb
    have hbn := isNaN_of_isFinite b hb
    rw [gt32_of_not_isNaN (by decide) hbn, gt32_of_not_isNaN (by decide) hbn]
    exact ⟨decide_eq_true hhigh, decide_eq_false hlow.not_gt⟩

end Sys2Proof.Binary32

namespace Sys2Proof.Machine

theorem exec_mag (s : State) : exec .mag s = execMag s := rfl

theorem exec_trim (s : State) : exec .trim s = execTrim s := rfl

theorem exec_db (s : State) : exec .db s = execDb s := rfl

/-! ### LOG10 -/

/-- The constants that LOG10 answers are those the law of the kernel gives. -/
theorem log10_eq_kernel : log10 = Config.kernels.log10 := by
  funext v
  have hlaw := Config.kernels.log10_lawful
  unfold log10
  split
  case isTrue hzero => exact (hlaw.zero v hzero).symm
  case isFalse =>
    split
    case isTrue hinf => rw [hinf, hlaw.inf]
    case isFalse =>
      split
      case h_1 j hfind =>
        have hv : v = Binary32.ofNat (10 ^ j) := by simpa using List.find?_some hfind
        have hj : j < 11 := List.mem_range.1 (List.mem_of_find?_eq_some hfind)
        rw [hv, hlaw.pow10 j (Nat.le_of_lt_succ hj)]
      case h_2 => rfl

/-- Settles O28: LOG10 is the kernel, whose law R662 is. -/
theorem logarithmHasRequiredProperties : Obligations.LogarithmHasRequiredProperties := by
  rw [Obligations.LogarithmHasRequiredProperties, log10_eq_kernel]
  exact Config.kernels.log10_lawful

/-! ### A loop over the rows of the display matrix -/

/-- Words of different rows differ in their index (10_state.md R145). -/
theorem State.not_inRange_row (s : State) {c i n k : Nat} (hne : c ≠ i) (hk : k < n)
    (hn : n ≤ s.params.rowLen) (b b' : BufId) :
    ¬ InRange b (s.rowStart i) n b' (s.rowStart c + k) := by
  have hend : ∀ {c i}, c < i → s.rowStart c + n ≤ s.rowStart i := fun hlt =>
    rowEnd_le { s.params with chunkCap := _ } _ n hlt hn
  rintro ⟨-, hlow, hhigh⟩
  rcases hne.lt_or_gt with hlt | hgt
  · have := hend hlt
    omega
  · have := hend hgt
    omega

/-- From `s`, a loop over the rows has come to `t` after `n` rounds: the first `width` words of each
row below `n` of DISP hold `x`. -/
structure State.RowsWritten (s : State) (x : Nat → Nat → Word) (width n : Nat) (t : State) :
    Prop where
  mem_only : t = { s with mem := t.mem }
  rows : ∀ c < n, t.Holds .disp (s.rowStart c) width (x c)
  kept : s.WordsKept t fun b i => ∃ c < n, InRange .disp (s.rowStart c) width b i

section
variable {s t : State} {x : Nat → Nat → Word} {width n : Nat}

theorem State.rowsWritten_zero (s : State) (x : Nat → Nat → Word) (width : Nat) :
    s.RowsWritten x width 0 s where
  mem_only := rfl
  rows := fun _ hc => absurd hc (Nat.not_lt_zero _)
  kept := fun _ _ _ => rfl

/-- The next row's words are as before the loop. -/
theorem State.RowsWritten.row_kept (h : s.RowsWritten x width n t)
    (hwidth : width ≤ s.params.rowLen) {y : Nat → Word}
    (hy : s.Holds .disp (s.rowStart n) width y) : t.Holds .disp (s.rowStart n) width y :=
  fun j hj => (h.kept _ _ fun ⟨_, hc, hin⟩ =>
    s.not_inRange_row hc.ne' hj hwidth _ _ hin).trans (hy j hj)

/-- Words of another buffer are as before the loop. -/
theorem State.RowsWritten.holds_of_ne (h : s.RowsWritten x width n t) {b : BufId}
    (hb : b ≠ .disp) {start len : Nat} {y : Nat → Word} (hy : s.Holds b start len y) :
    t.Holds b start len y :=
  hy.of_wordsKept h.kept fun _ ⟨_, _, hin⟩ => hb hin.1

theorem State.RowsWritten.store (h : s.RowsWritten x width n t)
    (hwidth : width ≤ s.params.rowLen) :
    s.RowsWritten x width (n + 1)
      (t.storeWords .disp (s.rowStart n) ((List.range width).map (x n))) where
  mem_only := s.mem_only_trans t h.mem_only _
  rows := fun c hc => by
    rcases Nat.lt_succ_iff_lt_or_eq.1 hc with hlt | rfl
    · exact fun j hj => (t.wordsKept_storeWords_map_range .disp (s.rowStart n) width (x n) _ _
        (s.not_inRange_row hlt.ne hj hwidth _ _)).trans (h.rows c hlt j hj)
    · exact t.holds_storeWords_map_range .disp _ _ _
  kept := (h.kept.trans (t.wordsKept_storeWords_map_range .disp _ _ _)).mono fun b i => by
    rintro (⟨c, hc, hin⟩ | hin)
    · exact ⟨c, Nat.lt_succ_of_lt hc, hin⟩
    · exact ⟨n, Nat.lt_succ_self n, hin⟩

/-- A loop whose round `c` stores `x c` as row `c` writes all rows. -/
theorem forEach_rowsWritten {body : Nat → State → Except Fault State}
    (hwidth : width ≤ s.params.rowLen)
    (hbody : ∀ c < n, ∀ t, s.RowsWritten x width c t → body c t =
      .ok (t.storeWords .disp (s.rowStart c) ((List.range width).map (x c)))) :
    ∃ t, forEach body n s = .ok t ∧ s.RowsWritten x width n t :=
  forEach_total body (s.RowsWritten x width) n s (s.rowsWritten_zero x width)
    fun c hc t ht => ⟨_, hbody c hc t ht, ht.store hwidth⟩

end

/-! ### MAG -/

/-- The word MAG writes for the parts `re` and `im` of slot `k` of spectrum `c` (R650). -/
def State.magnitude (s : State) (re im : Nat → Nat → Word) (c k : Nat) : Word :=
  Binary32.add32 (Config.nan (.command s.draws .magSum c k))
    (Binary32.mul32 (Config.nan (.command s.draws .magRe c k)) (re c k) (re c k))
    (Binary32.mul32 (Config.nan (.command s.draws .magIm c k)) (im c k) (im c k))

theorem State.magnitudes_map_range (s : State) (re im : Nat → Nat → Word) (c n : Nat) :
    s.magnitudes c ((List.range n).map (re c)) ((List.range n).map (im c)) =
      (List.range n).map (s.magnitude re im c) :=
  List.ext_getElem (by simp) fun k _ _ => by simp [State.magnitudes, State.magnitude]

/-- With the spectrum written, a round of MAG is one store of its squared magnitudes. -/
theorem magRound_of_holds {s : State} {c : Nat} {re im : Nat → Nat → Word}
    (hre : s.Holds .specRe (s.rowStart c) s.bandsM (re c))
    (him : s.Holds .specIm (s.rowStart c) s.bandsM (im c)) :
    magRound c s = .ok (s.storeWords .disp (s.rowStart c)
      ((List.range s.bandsM).map (s.magnitude re im c))) :=
  (magRound_ok_iff c s _).2 ⟨_, _, s.readWords_of_written .specRe _ _ _ hre,
    s.readWords_of_written .specIm _ _ _ him, by rw [State.magnitudes_map_range]⟩

/-- With the spectra written, the effect of MAG writes every row and the size of the matrix. -/
theorem magEffect_of_holds {s : State} {re im : Nat → Nat → Word}
    (hrow : s.bandsM ≤ s.params.rowLen)
    (hspec : ∀ c < s.chunksC, s.Holds .specRe (s.rowStart c) s.bandsM (re c) ∧
      s.Holds .specIm (s.rowStart c) s.bandsM (im c)) :
    ∃ u, s.RowsWritten (s.magnitude re im) s.bandsM s.chunksC u ∧
      magEffect s = .ok { u with dispRows := s.numChunks, dispW := s.numBands } := by
  obtain ⟨u, hloop, hu⟩ := forEach_rowsWritten (x := s.magnitude re im) (n := s.chunksC) hrow
    fun c hc t ht => by
      obtain ⟨hre, him⟩ := hspec c hc
      have hre := ht.holds_of_ne (by decide) hre
      have him := ht.holds_of_ne (by decide) him
      obtain ⟨mem, rfl⟩ : ∃ mem, t = { s with mem := mem } := ⟨_, ht.mem_only⟩
      exact magRound_of_holds hre him
  refine ⟨u, hu, (magEffect_ok_iff s _).2 ⟨u, hloop, ?_⟩⟩
  rw [State.chunksC, State.bandsM, BitVec.ofNat_toNat, BitVec.ofNat_toNat, BitVec.setWidth_eq,
    BitVec.setWidth_eq]

/-- Settles O48: the loop ends with all rows written. -/
theorem magWritesSquaredMagnitudes : Obligations.MagWritesSquaredMagnitudes := by
  intro s re im hcfg hfit hrow hspec
  have hchecks : firstFailure [s.configured, s.chunksFit] = none := by
    simp [State.configured, State.chunksFit, firstFailure_cons, hcfg, Nat.not_lt.2 hfit]
  obtain ⟨u, hu, heffect⟩ := magEffect_of_holds hrow hspec
  obtain ⟨mem, rfl⟩ : ∃ mem, u = { s with mem := mem } := ⟨_, hu.mem_only⟩
  exact ⟨_, (exec_mag s).trans (s.runChecked_of_ok _ _ _ hchecks heffect), s.completedOk_succeed,
    rfl, hu.rows, hu.kept⟩

/-! ### TRIM -/

theorem highestAbove_concat (k : Nat) (ws : List Word) (w : Word) (best : Nat) :
    highestAbove k (ws ++ [w]) best =
      if Binary32.gt32 w Config.trimEps then k + ws.length else highestAbove k ws best := by
  induction ws generalizing k best with
  | nil => rfl
  | cons v ws ih =>
    rw [List.cons_append, highestAbove, ih, highestAbove, List.length_cons,
      Nat.succ_add_eq_add_succ]

/-- The scan of a row finds the index that R655 names. -/
theorem highestAbove_isHighestAbove (row : Nat → Word) (n : Nat) :
    IsHighestAbove row n (highestAbove 0 ((List.range n).map row) 0) := by
  induction n with
  | zero => exact .inr ⟨rfl, fun _ hk => absurd hk (Nat.not_lt_zero _)⟩
  | succ n ih =>
    rw [List.range_succ, List.map_append, List.map_singleton, highestAbove_concat,
      List.length_map, List.length_range, Nat.zero_add]
    split
    case isTrue habove => exact .inl ⟨n.lt_succ_self, habove, fun k hlt hle => by omega⟩
    case isFalse hnot =>
      have hlast : ∀ k < n + 1, (k < n → Binary32.gt32 (row k) Config.trimEps = false) →
          Binary32.gt32 (row k) Config.trimEps = false := fun k hk hbelow => by
        rcases Nat.lt_succ_iff_lt_or_eq.1 hk with hlt | rfl
        · exact hbelow hlt
        · exact eq_false_of_ne_true hnot
      rcases ih with ⟨hlt, habove, hrest⟩ | ⟨hzero, hnone⟩
      · exact .inl ⟨Nat.lt_succ_of_lt hlt, habove, fun k hk hk' => hlast k hk' (hrest k hk)⟩
      · exact .inr ⟨hzero, fun k hk => hlast k hk (hnone k)⟩

/-- No index above the named one has a word above TRIM_EPS. -/
theorem IsHighestAbove.le {row : Nat → Word} {width h h' : Nat}
    (hh : IsHighestAbove row width h) (hh' : IsHighestAbove row width h') : h ≤ h' := by
  rcases hh with ⟨hlt, habove, -⟩ | ⟨rfl, -⟩
  · by_contra hnot
    have hbelow : Binary32.gt32 (row h) Config.trimEps = false := hh'.elim
      (fun ⟨_, _, hrest⟩ => hrest h (not_le.1 hnot) hlt) (fun ⟨_, hnone⟩ => hnone h hlt)
    exact ne_true_of_eq_false hbelow habove
  · exact h'.zero_le

theorem IsHighestAbove.unique {row : Nat → Word} {width h h' : Nat}
    (hh : IsHighestAbove row width h) (hh' : IsHighestAbove row width h') : h = h' :=
  le_antisymm (hh.le hh') (hh'.le hh)

theorem isLeast_one (h : Nat → Nat) : IsLeast h 1 (h 0) :=
  ⟨⟨0, one_pos, rfl⟩, fun c hc => by rw [Nat.lt_one_iff.1 hc]⟩

theorem IsLeast.succ {h : Nat → Nat} {n m : Nat} (hm : IsLeast h n m) :
    IsLeast h (n + 1) (min m (h n)) := by
  obtain ⟨⟨c, hc, rfl⟩, hle⟩ := hm
  refine ⟨?_, fun i hi => ?_⟩
  · rcases le_total (h c) (h n) with hcn | hnc
    · exact ⟨c, Nat.lt_succ_of_lt hc, (min_eq_left hcn).symm⟩
    · exact ⟨n, n.lt_succ_self, (min_eq_right hnc).symm⟩
  · rcases Nat.lt_succ_iff_lt_or_eq.1 hi with hlt | rfl
    · exact (min_le_left _ _).trans (hle i hlt)
    · exact min_le_right _ _

theorem IsLeast.unique {h : Nat → Nat} {n m m' : Nat} (hm : IsLeast h n m)
    (hm' : IsLeast h n m') : m = m' := by
  obtain ⟨⟨c, hc, rfl⟩, hle⟩ := hm
  obtain ⟨⟨c', hc', rfl⟩, hle'⟩ := hm'
  exact le_antisymm (hle c' hc') (hle' c hc)

/-- The row `c` of the matrix is written, and `h` is its largest index above TRIM_EPS. -/
def State.HighestIs (s : State) (c h : Nat) : Prop :=
  ∃ row : Nat → Word, s.Holds .disp (s.rowStart c) s.widthW row ∧ IsHighestAbove row s.widthW h

/-- The row is read, and its scan gives its index. -/
theorem State.HighestIs.scan {s : State} {c h : Nat} (hh : s.HighestIs c h) :
    ∃ row, s.readRow c = .ok row ∧ highestAbove 0 row 0 = h := by
  obtain ⟨row, hrow, hhigh⟩ := hh
  exact ⟨_, s.readWords_of_written .disp _ _ row hrow,
    (highestAbove_isHighestAbove row s.widthW).unique hhigh⟩

/-- With the rows written, the loop of TRIM finds the least of their indices. -/
theorem State.leastHighest_isLeast {s : State} {h : Nat → Nat} (n : Nat)
    (hrows : ∀ c ≤ n, s.HighestIs c (h c)) :
    ∃ m, s.leastHighest n = .ok m ∧ IsLeast h (n + 1) m := by
  induction n with
  | zero =>
    obtain ⟨row, hrow, hhigh⟩ := (hrows 0 le_rfl).scan
    refine ⟨_, ?_, isLeast_one h⟩
    rw [State.leastHighest, hrow, ← hhigh]
    rfl
  | succ n ih =>
    obtain ⟨row, hrow, hhigh⟩ := (hrows (n + 1) le_rfl).scan
    obtain ⟨m, hm, hleast⟩ := ih fun c hc => hrows c (Nat.le_succ_of_le hc)
    refine ⟨_, ?_, hleast.succ⟩
    rw [State.leastHighest, hm, hrow, ← hhigh]
    rfl

/-- TRIM with the matrix written writes the width that R655 and R656 name. -/
theorem trimEffect_of_highestIs {s : State} {h : Nat → Nat} {m : Nat} (hpos : 0 < s.rowsRd)
    (hrows : ∀ c < s.rowsRd, s.HighestIs c (h c)) (hm : IsLeast h s.rowsRd m) :
    trimEffect s =
      .ok { s with dispW := BitVec.ofNat 32 (min (m + Config.trimMargin) s.widthW) } := by
  obtain ⟨last, hlast⟩ : ∃ last, s.rowsRd = last + 1 := ⟨_, (Nat.succ_pred_eq_of_pos hpos).symm⟩
  obtain ⟨m', hm', hleast⟩ := State.leastHighest_isLeast (s := s) (h := h) last
    fun c hc => hrows c (hlast ▸ Nat.lt_succ_of_le hc)
  rw [hlast] at hm
  exact (trimEffect_ok_iff s _).2 (.inr ⟨last, m', hlast, hm', by rw [hm.unique hleast]⟩)

/-- Settles O50: the comparison is that of the exact values, and the effect on the rows the state
holds is one write of DISP_W. -/
theorem trimNarrowsToLeastHighest : Obligations.TrimNarrowsToLeastHighest := by
  refine ⟨Binary32.gt32_spec, by decide, fun s hcfg => ?_⟩
  have hchecks : firstFailure [s.configured] = none := by
    simp [State.configured, firstFailure_cons, hcfg]
  refine ⟨fun hnone => ?_, fun row h m hpos hrows hleast => ?_⟩
  · have heffect : trimEffect s = .ok s := (trimEffect_ok_iff s s).2 (.inl ⟨hnone, rfl⟩)
    exact ⟨_, (exec_trim s).trans (s.runChecked_of_ok _ _ _ hchecks heffect),
      s.completedOk_succeed, rfl, rfl⟩
  · have heffect := trimEffect_of_highestIs hpos (fun c hc => ⟨row c, hrows c hc⟩) hleast
    have hwidth : min (m + Config.trimMargin) s.widthW < 2 ^ 32 :=
      (min_le_right _ _).trans_lt s.dispW.isLt
    exact ⟨_, (exec_trim s).trans (s.runChecked_of_ok _ _ _ hchecks heffect),
      s.completedOk_succeed, rfl, rfl, (BitVec.toNat_ofNat ..).trans (Nat.mod_eq_of_lt hwidth)⟩

/-! ### DB -/

theorem badReference_eq_true_iff (ref : Word) : badReference ref = true ↔
    Binary32.isFinite ref = false ∨ Binary32.isZero ref = true ∨ Binary32.signBit ref = true := by
  simp [badReference, or_assoc]

theorem State.firstFailure_db {s : State} (hcfg : s.status.cfgValid = true) :
    firstFailure [s.configured, (badReference s.zeroRef, .invalidParameterDbref)] =
      if badReference s.zeroRef then some .invalidParameterDbref else none := by
  simp [State.configured, firstFailure_cons, hcfg]

/-- The word DB writes for word `k` of row `c` of the matrix (R660). -/
def State.decibel (s : State) (row : Nat → Nat → Word) (c k : Nat) : Word :=
  Binary32.mul32 (Config.nan (.command s.draws .dbProduct c k)) Binary32.twenty
    (log10 (Binary32.div32 (Config.nan (.command s.draws .dbQuotient c k)) (row c k) s.zeroRef))

theorem State.decibels_map_range (s : State) (row : Nat → Nat → Word) (c n : Nat) :
    s.decibels c ((List.range n).map (row c)) = (List.range n).map (s.decibel row c) :=
  List.ext_getElem (by simp) fun k _ _ => by simp [State.decibels, State.decibel]

/-- With the row written, a round of DB is one store of its decibels. -/
theorem dbRound_of_holds {s : State} {c : Nat} {row : Nat → Nat → Word}
    (hrow : s.Holds .disp (s.rowStart c) s.widthW (row c)) :
    dbRound c s = .ok (s.storeWords .disp (s.rowStart c)
      ((List.range s.widthW).map (s.decibel row c))) :=
  (dbRound_ok_iff c s _).2
    ⟨_, s.readWords_of_written .disp _ _ _ hrow, by rw [State.decibels_map_range]⟩

/-- With the matrix written, the loop of DB converts every row: a round reads a row that no round
before it has written. -/
theorem forEach_dbRound_of_holds {s : State} {row : Nat → Nat → Word}
    (hwidth : s.widthW ≤ s.params.rowLen)
    (hrows : ∀ c < s.rowsRd, s.Holds .disp (s.rowStart c) s.widthW (row c)) :
    ∃ u, forEach dbRound s.rowsRd s = .ok u ∧
      s.RowsWritten (s.decibel row) s.widthW s.rowsRd u :=
  forEach_rowsWritten hwidth fun c hc t ht => by
    have hrow := ht.row_kept hwidth (hrows c hc)
    obtain ⟨mem, rfl⟩ : ∃ mem, t = { s with mem := mem } := ⟨_, ht.mem_only⟩
    exact dbRound_of_holds hrow

/-- Settles O51: with a usable reference the loop converts all rows; with another one the check
fails. -/
theorem dbConvertsMatrix : Obligations.DbConvertsMatrix := by
  intro s hcfg
  have hchecks := State.firstFailure_db hcfg
  refine ⟨fun row hwidth hfin hzero hsign hrows => ?_, fun hbad => ?_⟩
  · have hgood : ¬ badReference s.zeroRef = true := by
      simp [badReference_eq_true_iff, hfin, hzero, hsign]
    rw [if_neg hgood] at hchecks
    obtain ⟨u, heffect, hu⟩ := forEach_dbRound_of_holds hwidth hrows
    obtain ⟨hok, hregs⟩ := State.completedOk_succeed_of_mem_only hu.mem_only
    exact ⟨_, (exec_db s).trans (s.runChecked_of_ok _ _ _ hchecks heffect), hok, hregs, hu.rows,
      hu.kept⟩
  · rw [if_pos ((badReference_eq_true_iff _).2 hbad)] at hchecks
    exact State.runChecked_completedWith _ (by decide) hchecks

end Sys2Proof.Machine
end

section
/-! PROOF. How commands complete (60_exceptions.md R705 to R712): every command is a list of checks
and an effect, so what a completion records and which command is rejected where is read off the
checks. -/

namespace Sys2Proof.Machine

/-! ### The checks and the effect of each command -/

/-- The checks of a command in order (60_exceptions.md R710, R711 and the Check line of its
rule). -/
def State.checksOf (s : State) : Instr → List (Bool × ErrCode)
  | .nop => []
  | .config => s.configChecks
  | .fwd c => [s.configured, (decide (s.params.chunkCap ≤ c), .argRange)]
  | .inv c => [s.configured, (decide (s.params.chunkCap ≤ c), .argRange)]
  | .frame m c => [s.configured, s.signalFits, (decide (s.frameCount m ≤ c), .argRange)]
  | .analyze m =>
    [s.configured, s.signalFits, (decide (s.params.chunkCap < s.frameCount m), .capacity)]
  | .olaClear => s.olaChecks
  | .olaAdd c => [s.configured, (decide (s.outN < c * s.hopH + s.sizeN), .argRange)]
  | .olaScale => [s.configured]
  | .synth =>
    [s.configured, s.chunksFit, (decide (s.params.outCap < s.chunksC * s.sizeN), .capacity)]
  | .synthOla => s.olaChecks
  | .band => [s.configured, (bandOutside s.bandQuotient, .bandConvert)]
  | .zeroBand => s.zeroBandChecks
  | .mag => [s.configured, s.chunksFit]
  | .trim => [s.configured]
  | .db => [s.configured, (badReference s.zeroRef, .invalidParameterDbref)]

/-- The effect of a command whose checks pass (00_scope.md R14). -/
def effectOf : Instr → State → Except Fault State
  | .nop => fun s => .ok s
  | .config => fun s => .ok s.configure
  | .fwd c => fwdEffect c
  | .inv c => invEffect c
  | .frame m c => frameEffect m c
  | .analyze m => analyzeEffect m
  | .olaClear => fun s => .ok (olaClearEffect s)
  | .olaAdd c => olaAddEffect c
  | .olaScale => olaScaleEffect
  | .synth => synthEffect
  | .synthOla => synthOlaEffect
  | .band => fun s => .ok { s with bandIdx := BitVec.ofInt 32 (Binary32.floorInt s.bandQuotient) }
  | .zeroBand => fun s => forEach zeroBandRound s.chunksC s
  | .mag => magEffect
  | .trim => trimEffect
  | .db => fun s => forEach dbRound s.rowsRd s

/-- The state a command completes in when a check fails: CONFIG clears CFG_VALID (R405), every other
command leaves the state as it is (R706). -/
def State.rejectedBy (s : State) (i : Instr) : State :=
  { s with
    status := { s.status with cfgValid := if i = .config then false else s.status.cfgValid } }

theorem State.rejectedBy_of_ne_config {i : Instr} (s : State) (hi : i ≠ .config) :
    s.rejectedBy i = s := by
  simp [State.rejectedBy, hi]

theorem exec_of_ne_config {i : Instr} (s : State) (hi : i ≠ .config) :
    exec i s = s.runChecked (s.checksOf i) (effectOf i) := by
  cases i with
  | config => exact absurd rfl hi
  | _ => rfl

/-- What a command answers as a next state: the completion of the first failing check, or of the
effect. -/
theorem exec_next_cases {i : Instr} {s t : State} (h : exec i s = .next t) :
    (∃ code, firstFailure (s.checksOf i) = some code ∧ t = (s.rejectedBy i).complete code) ∨
    ∃ u, effectOf i s = .ok u ∧ t = u.succeed := by
  by_cases hi : i = .config
  · subst hi
    cases hc : firstFailure s.configChecks with
    | some code =>
      rw [exec_config, execConfig, hc] at h
      cases h
      exact .inl ⟨code, hc, rfl⟩
    | none =>
      rw [exec_config, execConfig_of_ok hc] at h
      cases h
      exact .inr ⟨s.configure, rfl, rfl⟩
  · rw [exec_of_ne_config s hi] at h
    rw [s.rejectedBy_of_ne_config hi]
    obtain ⟨code, hc, ht⟩ | ⟨-, u, hu, ht⟩ := (s.runChecked_next_iff t _ _).1 h
    · exact .inl ⟨code, hc, ht⟩
    · exact .inr ⟨u, hu, ht⟩

/-! ### Completion -/

theorem ErrCode.toByte_eq_zero_iff (code : ErrCode) : code.toByte = 0x00#8 ↔ code = .ok := by
  cases code <;> decide

theorem State.status_of_mem_only {s u : State} (h : u = { s with mem := u.mem }) :
    u.status = s.status := by
  rw [h]

theorem forEach_status {body : Nat → State → Except Fault State} {n : Nat} {s t : State}
    (hbody : ∀ i s t, body i s = .ok t → t = { s with mem := t.mem })
    (ht : forEach body n s = .ok t) : t.status = s.status :=
  State.status_of_mem_only (forEach_mem_only body hbody n s t ht)

/-- The effects leave STATUS to the completion, CONFIG's apart. -/
theorem effectOf_status {i : Instr} {s u : State} (hi : i ≠ .config) (h : effectOf i s = .ok u) :
    u.status = s.status := by
  cases i with
  | config => exact absurd rfl hi
  | nop | olaClear | band => cases h; rfl
  | fwd c => exact State.status_of_mem_only (fwdEffect_mem_only c s u h)
  | inv c => exact State.status_of_mem_only (invEffect_mem_only c s u h)
  | frame m c => exact State.status_of_mem_only (frameEffect_mem_only m c s u h)
  | analyze m =>
    obtain ⟨v, hv, rfl⟩ := (analyzeEffect_ok_iff m s u).1 h
    exact (forEach_status (analyzeRound_mem_only m) hv :)
  | olaAdd c => exact State.status_of_mem_only (olaAddEffect_mem_only c s u h)
  | olaScale => exact State.status_of_mem_only (olaScaleEffect_mem_only s u h)
  | synth =>
    obtain ⟨v, hv, rfl⟩ := (synthEffect_ok_iff s u).1 h
    exact (forEach_status synthRound_mem_only hv :)
  | synthOla =>
    obtain ⟨v, hv, hscale⟩ := (synthOlaEffect_ok_iff s u).1 h
    calc u.status = v.status := State.status_of_mem_only (olaScaleEffect_mem_only v u hscale)
      _ = (olaClearEffect s).status := forEach_status synthOlaRound_mem_only hv
      _ = s.status := rfl
  | zeroBand => exact forEach_status zeroBandRound_mem_only h
  | mag =>
    obtain ⟨v, hv, rfl⟩ := (magEffect_ok_iff s u).1 h
    exact (forEach_status magRound_mem_only hv :)
  | trim => obtain ⟨-, rfl⟩ | ⟨last, m, -, -, rfl⟩ := (trimEffect_ok_iff s u).1 h <;> rfl
  | db => exact forEach_status dbRound_mem_only h

/-- CONFIG sets CFG_VALID alone (R404), so no effect touches the flags the host acknowledges. -/
theorem effectOf_flags {i : Instr} {s u : State} (h : effectOf i s = .ok u) :
    u.status.err = s.status.err ∧ u.status.ovr = s.status.ovr ∧
      u.status.accErr = s.status.accErr := by
  by_cases hi : i = .config
  · subst hi; cases h; exact ⟨rfl, rfl, rfl⟩
  · rw [effectOf_status hi h]; exact ⟨rfl, rfl, rfl⟩

/-- Settles O10: a rejection completes with its code, an effect keeps ERR, OVR and ACCERR and
completes with 0x00. -/
theorem completionLeavesStatusSticky : Obligations.CompletionLeavesStatusSticky := by
  intro i s t ht
  obtain ⟨code, -, rfl⟩ | ⟨u, hu, rfl⟩ := exec_next_cases ht
  · simp [State.rejectedBy, ErrCode.toByte_eq_zero_iff]
  · obtain ⟨herr, hovr, hacc⟩ := effectOf_flags hu
    simp [herr, hovr, hacc]

/-- A completion with an error code is that of a failed check. -/
theorem exec_failed {i : Instr} {s t : State} (ht : exec i s = .next t)
    (hcode : t.errCode ≠ 0x00#8) : (s.rejectedBy i).CompletedWith t t.errCode := by
  obtain ⟨code, -, rfl⟩ | ⟨u, -, rfl⟩ := exec_next_cases ht
  · exact State.completedWith_complete _ code fun hok => hcode (by rw [hok]; rfl)
  · exact absurd u.succeed_errCode hcode

/-- Settles O11: a word that is no command only records its code, and a command that fails does so
at a check. -/
theorem failedCommandChangesNothingElse : Obligations.FailedCommandChangesNothingElse := by
  intro w s t ht hcode
  cases hd : decode w with
  | ok i =>
    rw [runCommand_ok w i s hd] at ht
    have hfailed := exec_failed ht hcode
    simpa only [State.CompletedWith, State.rejectedBy, Except.ok.injEq] using hfailed
  | error e =>
    rw [runCommand_error w e s hd] at ht
    cases ht
    have hne : DecodeError.code e ≠ .ok := by cases e <;> decide
    simpa [State.CompletedWith] using s.completedWith_complete _ hne

/-! ### Which code -/

/-- The codes of a command are those of its checks. -/
theorem State.checksOf_codes_subset (s : State) (i : Instr) :
    (s.checksOf i).map Prod.snd ⊆ codesOf i := by
  cases i <;> simp [State.checksOf, codesOf, State.configured, State.configChecks,
    State.signalFits, State.chunksFit, State.olaChecks, State.zeroBandChecks]

/-- Settles O12: a failed check reports the code it is listed with. -/
theorem codesOfEachCommand : Obligations.CodesOfEachCommand := by
  intro i s t ht
  obtain ⟨code, hc, rfl⟩ | ⟨u, -, rfl⟩ := exec_next_cases ht
  · exact .inr ⟨code, s.checksOf_codes_subset i (firstFailure_mem _ code hc), rfl⟩
  · exact .inl u.succeed_errCode

/-- A command other than CONFIG whose first failing check is known completes with its code and
changes nothing else. -/
theorem exec_rejected {i : Instr} {s : State} {code : ErrCode} (hi : i ≠ .config)
    (hcode : code ≠ .ok) (hchecks : firstFailure (s.checksOf i) = some code) :
    ∃ t, exec i s = .next t ∧ s.CompletedWith t code.toByte := by
  rw [exec_of_ne_config s hi]
  exact State.runChecked_completedWith _ hcode hchecks

/-- Every command but NOP and CONFIG checks CFG_VALID first (R710, step 3). -/
theorem State.checksOf_eq_configured_cons {i : Instr} (s : State) (hnop : i ≠ .nop)
    (hconfig : i ≠ .config) : ∃ rest, s.checksOf i = s.configured :: rest := by
  cases i with
  | nop => exact absurd rfl hnop
  | config => exact absurd rfl hconfig
  | _ => exact ⟨_, rfl⟩

/-- Settles O13: with CFG_VALID = 0 the first check fails. -/
theorem unconfiguredCommandIsRejected : Obligations.UnconfiguredCommandIsRejected := by
  intro i s hnop hconfig hcfg
  refine exec_rejected (code := .notConfigured) hconfig (by decide) ?_
  obtain ⟨rest, hrest⟩ := s.checksOf_eq_configured_cons hnop hconfig
  rw [hrest, State.configured, firstFailure_cons, hcfg]
  rfl

/-! ### Indices and lengths -/

/-- In a configured state the checks behind the first decide. -/
theorem exec_rejected_of_configured {i : Instr} {s : State} {code : ErrCode}
    {rest : List (Bool × ErrCode)} (hcfg : s.status.cfgValid = true) (hi : i ≠ .config)
    (hcode : code ≠ .ok) (hchecks : s.checksOf i = s.configured :: rest)
    (hrest : firstFailure rest = some code) :
    ∃ t, exec i s = .next t ∧ s.CompletedWith t code.toByte := by
  refine exec_rejected hi hcode ?_
  rw [hchecks, State.configured, firstFailure_cons, hcfg]
  exact hrest

theorem firstFailure_of_fails {p : Prop} [Decidable p] (hp : p) (code : ErrCode)
    (rest : List (Bool × ErrCode)) : firstFailure ((decide p, code) :: rest) = some code :=
  (firstFailure_cons _ _ _).trans (if_pos (decide_eq_true hp))

theorem firstFailure_of_passes {p : Prop} [Decidable p] (hp : ¬ p) (code : ErrCode)
    (rest : List (Bool × ErrCode)) :
    firstFailure ((decide p, code) :: rest) = firstFailure rest :=
  (firstFailure_cons _ _ _).trans (if_neg (by simpa using hp))

/-- Of two checks with one code it does not matter which fails. -/
theorem firstFailure_of_either {p q : Prop} [Decidable p] [Decidable q] (h : p ∨ q)
    (code : ErrCode) : firstFailure [(decide p, code), (decide q, code)] = some code := by
  by_cases hp : p
  · exact firstFailure_of_fails hp code _
  · exact (firstFailure_of_passes hp code _).trans (firstFailure_of_fails (h.resolve_left hp) code _)

/-- OLA_CLEAR, SYNTH and SYNTH_OLA reject too many spectra and too long an output alike (R550, R555,
R557). -/
theorem exec_rejected_capacity {i : Instr} {s : State} {len : Nat}
    (hcfg : s.status.cfgValid = true) (hi : i ≠ .config)
    (hchecks : s.checksOf i =
      [s.configured, s.chunksFit, (decide (s.params.outCap < len), .capacity)])
    (h : s.params.chunkCap < s.chunksC ∨ s.params.outCap < len) :
    ∃ t, exec i s = .next t ∧ s.CompletedWith t ErrCode.capacity.toByte :=
  exec_rejected_of_configured hcfg hi (by decide) hchecks (firstFailure_of_either h .capacity)

/-- Settles O41: behind CFG_VALID each clause is the first failing check of its command. -/
theorem indexAndCapacityRejections : Obligations.IndexAndCapacityRejections := by
  intro s hcfg
  have hindex {i : Instr} {c : Nat} (hi : i ≠ .config) (hc : s.params.chunkCap ≤ c)
      (hchecks : s.checksOf i = [s.configured, (decide (s.params.chunkCap ≤ c), .argRange)]) :
      ∃ t, exec i s = .next t ∧ s.CompletedWith t ErrCode.argRange.toByte :=
    exec_rejected_of_configured hcfg hi (by decide) hchecks (firstFailure_of_fails hc _ _)
  refine ⟨fun c hc => ⟨hindex nofun hc rfl, hindex nofun hc rfl⟩, fun m c hlong => ?_,
    fun m c hfits hc => ?_, fun m hcap => ?_, fun hchunks i hi => ?_, fun hout i hi => ?_,
    fun hout => exec_rejected_capacity hcfg nofun rfl (.inr hout)⟩
  · exact exec_rejected_of_configured (code := .capacity) hcfg nofun (by decide) rfl
      (firstFailure_of_fails hlong _ _)
  · exact exec_rejected_of_configured (code := .argRange) hcfg nofun (by decide) rfl
      ((firstFailure_of_passes hfits.not_gt _ _).trans (firstFailure_of_fails hc _ _))
  · exact exec_rejected_of_configured (code := .capacity) hcfg nofun (by decide) rfl
      (firstFailure_of_either hcap _)
  · simp only [List.mem_cons, List.not_mem_nil, or_false] at hi
    obtain rfl | rfl | rfl | rfl := hi
    · exact exec_rejected_capacity hcfg nofun rfl (.inl hchunks)
    · exact exec_rejected_capacity hcfg nofun rfl (.inl hchunks)
    · exact exec_rejected_capacity hcfg nofun rfl (.inl hchunks)
    · exact exec_rejected_of_configured (code := .capacity) hcfg nofun (by decide) rfl
        (firstFailure_of_fails hchunks _ _)
  · simp only [List.mem_cons, List.not_mem_nil, or_false] at hi
    obtain rfl | rfl := hi
    · exact exec_rejected_capacity hcfg nofun rfl (.inr hout)
    · exact exec_rejected_capacity hcfg nofun rfl (.inr hout)

end Sys2Proof.Machine
end

section
/-! PROOF. The interrupt output and IRQ_EN (60_exceptions.md R720): no command reads IRQ_EN, so every
read answers the same whatever it holds, and every effect commutes with an update of it. -/

namespace Sys2Proof.Machine

/-- The state with another IRQ_EN (10_state.md R110). -/
def State.setIrqEn (e : IrqEnable) (s : State) : State := { s with irqEn := e }

/-! ### Steps in sequence -/

/-- Behind a read that an update does not change, a step that commutes with the update does so. -/
theorem bind_map_of_read {α : Type} {g : State → State} {x x' : Except Fault α}
    {f f' : α → Except Fault State} (hx : x' = x) (hf : ∀ a, f' a = (f a).map g) :
    (x' >>= f') = (x >>= f).map g := by
  subst hx
  cases x' with
  | ok a => exact hf a
  | error r => rfl

/-- Two steps that commute with an update commute with it in sequence. -/
theorem bind_map_of_step {g : State → State} {x x' : Except Fault State}
    {f f' : State → Except Fault State} (hx : x' = x.map g) (hf : ∀ t, f' (g t) = (f t).map g) :
    (x' >>= f') = (x >>= f).map g := by
  subst hx
  cases x with
  | ok t => exact hf t
  | error r => rfl

section
variable (e : IrqEnable) (s : State)

/-! ### The reads -/

theorem State.readWords_setIrqEn (b : BufId) (start n : Nat) :
    (s.setIrqEn e).readWords b start n = s.readWords b start n := by
  induction n generalizing start with
  | zero => rfl
  | succ n ih => rw [State.readWords, State.readWords, ih]; rfl

theorem State.readSpectrum_setIrqEn (c : Nat) :
    (s.setIrqEn e).readSpectrum c = s.readSpectrum c := by
  simp only [State.readSpectrum, State.readWords_setIrqEn]; rfl

theorem State.frameWords_setIrqEn (m : Mode) (c : Nat) :
    (s.setIrqEn e).frameWords m c = s.frameWords m c := by
  rw [State.frameWords, State.frameWords, State.readWords_setIrqEn]; rfl

theorem State.leastHighest_setIrqEn (n : Nat) :
    (s.setIrqEn e).leastHighest n = s.leastHighest n := by
  have hrow (c : Nat) : (s.setIrqEn e).readRow c = s.readRow c := s.readWords_setIrqEn e _ _ _
  induction n with
  | zero => rw [State.leastHighest, State.leastHighest, hrow]
  | succ n ih => rw [State.leastHighest, State.leastHighest, ih, hrow]

/-! ### The effects -/

theorem fwdEffect_setIrqEn (c : Nat) :
    fwdEffect c (s.setIrqEn e) = (fwdEffect c s).map (State.setIrqEn e) :=
  bind_map_of_read (s.readWords_setIrqEn e _ _ _) fun _ => rfl

theorem invEffect_setIrqEn (c : Nat) :
    invEffect c (s.setIrqEn e) = (invEffect c s).map (State.setIrqEn e) :=
  bind_map_of_read (s.readSpectrum_setIrqEn e c) fun _ => rfl

theorem frameEffect_setIrqEn (m : Mode) (c : Nat) :
    frameEffect m c (s.setIrqEn e) = (frameEffect m c s).map (State.setIrqEn e) :=
  bind_map_of_read (s.frameWords_setIrqEn e m c) fun _ => rfl

theorem analyzeRound_setIrqEn (m : Mode) (c : Nat) :
    analyzeRound m c (s.setIrqEn e) = (analyzeRound m c s).map (State.setIrqEn e) :=
  bind_map_of_step (frameEffect_setIrqEn e s m c) fun t => fwdEffect_setIrqEn e t c

theorem analyzeEffect_setIrqEn (m : Mode) :
    analyzeEffect m (s.setIrqEn e) = (analyzeEffect m s).map (State.setIrqEn e) :=
  bind_map_of_step (forEach_map _ _ (fun c t => analyzeRound_setIrqEn e t m c) _ s) fun _ => rfl

theorem olaAddEffect_setIrqEn (c : Nat) :
    olaAddEffect c (s.setIrqEn e) = (olaAddEffect c s).map (State.setIrqEn e) :=
  bind_map_of_read (s.readWords_setIrqEn e _ _ _) fun _ =>
    bind_map_of_read (s.readWords_setIrqEn e _ _ _) fun _ => rfl

theorem olaScaleEffect_setIrqEn :
    olaScaleEffect (s.setIrqEn e) = (olaScaleEffect s).map (State.setIrqEn e) :=
  bind_map_of_read (s.readWords_setIrqEn e _ _ _) fun _ => rfl

theorem synthRound_setIrqEn (c : Nat) :
    synthRound c (s.setIrqEn e) = (synthRound c s).map (State.setIrqEn e) :=
  bind_map_of_step (invEffect_setIrqEn e s c) fun t =>
    bind_map_of_read (t.readWords_setIrqEn e _ _ _) fun _ => rfl

theorem synthEffect_setIrqEn :
    synthEffect (s.setIrqEn e) = (synthEffect s).map (State.setIrqEn e) :=
  bind_map_of_step (forEach_map _ _ (fun c t => synthRound_setIrqEn e t c) _ s) fun _ => rfl

theorem synthOlaRound_setIrqEn (c : Nat) :
    synthOlaRound c (s.setIrqEn e) = (synthOlaRound c s).map (State.setIrqEn e) :=
  bind_map_of_step (invEffect_setIrqEn e s c) fun t => olaAddEffect_setIrqEn e t c

theorem synthOlaEffect_setIrqEn :
    synthOlaEffect (s.setIrqEn e) = (synthOlaEffect s).map (State.setIrqEn e) :=
  bind_map_of_step
    (forEach_map _ _ (fun c t => synthOlaRound_setIrqEn e t c) _ (olaClearEffect s))
    fun t => olaScaleEffect_setIrqEn e t

theorem magRound_setIrqEn (c : Nat) :
    magRound c (s.setIrqEn e) = (magRound c s).map (State.setIrqEn e) :=
  bind_map_of_read (s.readWords_setIrqEn e _ _ _) fun _ =>
    bind_map_of_read (s.readWords_setIrqEn e _ _ _) fun _ => rfl

theorem magEffect_setIrqEn :
    magEffect (s.setIrqEn e) = (magEffect s).map (State.setIrqEn e) :=
  bind_map_of_step (forEach_map _ _ (fun c t => magRound_setIrqEn e t c) _ s) fun _ => rfl

theorem trimEffect_setIrqEn :
    trimEffect (s.setIrqEn e) = (trimEffect s).map (State.setIrqEn e) := by
  rw [trimEffect, trimEffect, show (s.setIrqEn e).rowsRd = s.rowsRd from rfl]
  cases s.rowsRd with
  | zero => rfl
  | succ last => exact bind_map_of_read (s.leastHighest_setIrqEn e last) fun _ => rfl

theorem dbRound_setIrqEn (c : Nat) :
    dbRound c (s.setIrqEn e) = (dbRound c s).map (State.setIrqEn e) :=
  bind_map_of_read (s.readWords_setIrqEn e _ _ _) fun _ => rfl

/-! ### The commands -/

theorem effectOf_setIrqEn (i : Instr) :
    effectOf i (s.setIrqEn e) = (effectOf i s).map (State.setIrqEn e) := by
  cases i with
  | nop | config | olaClear | band => rfl
  | fwd c => exact fwdEffect_setIrqEn e s c
  | inv c => exact invEffect_setIrqEn e s c
  | frame m c => exact frameEffect_setIrqEn e s m c
  | analyze m => exact analyzeEffect_setIrqEn e s m
  | olaAdd c => exact olaAddEffect_setIrqEn e s c
  | olaScale => exact olaScaleEffect_setIrqEn e s
  | synth => exact synthEffect_setIrqEn e s
  | synthOla => exact synthOlaEffect_setIrqEn e s
  | zeroBand => exact forEach_map zeroBandRound _ (fun _ _ => rfl) _ s
  | mag => exact magEffect_setIrqEn e s
  | trim => exact trimEffect_setIrqEn e s
  | db => exact forEach_map _ _ (fun c t => dbRound_setIrqEn e t c) _ s

theorem State.checksOf_setIrqEn (i : Instr) : (s.setIrqEn e).checksOf i = s.checksOf i := by
  cases i <;> rfl

end

/-- The update goes through the phases of a command whose effect commutes with it. -/
theorem State.runChecked_setIrqEn (e : IrqEnable) (s : State) (checks : List (Bool × ErrCode))
    {effect : State → Except Fault State}
    (h : effect (s.setIrqEn e) = (effect s).map (State.setIrqEn e)) :
    (s.setIrqEn e).runChecked checks effect =
      mapOutcome (State.setIrqEn e) (s.runChecked checks effect) := by
  rw [State.runChecked, State.runChecked, h]
  cases firstFailure checks with
  | some code => rfl
  | none => cases effect s <;> rfl

theorem exec_setIrqEn (i : Instr) (e : IrqEnable) (s : State) :
    exec i (s.setIrqEn e) = mapOutcome (State.setIrqEn e) (exec i s) := by
  by_cases hi : i = .config
  · subst hi
    rw [exec_config, exec_config, execConfig, execConfig,
      show (s.setIrqEn e).configChecks = s.configChecks from rfl]
    cases firstFailure s.configChecks <;> rfl
  · rw [exec_of_ne_config _ hi, exec_of_ne_config _ hi, s.checksOf_setIrqEn e]
    exact s.runChecked_setIrqEn e _ (effectOf_setIrqEn e s i)

/-! ### The interrupt output -/

theorem State.irq_eq_true_iff (s : State) : s.irq = true ↔
    (s.status.done = true ∧ s.irqEn.doneIe = true) ∨ (s.status.err = true ∧ s.irqEn.errIe = true) ∨
    ((s.status.ovr = true ∨ s.status.accErr = true) ∧ s.irqEn.faultIe = true) := by
  simp only [State.irq, Bool.or_eq_true, Bool.and_eq_true, or_assoc]

/-- Settles O16: the output is the formula of R720, and an update of IRQ_EN goes through every
command. -/
theorem interruptOutputAndEnable : Obligations.InterruptOutputAndEnable :=
  ⟨State.irq_eq_true_iff, exec_setIrqEn⟩

end Sys2Proof.Machine
end

section
/-! PROOF. Reset and hazards (70_reset_and_hazards.md R802 to R811): the accesses while a command is
in flight, and where a command stops. The reads of an effect are followed through its steps and
loops; a round of a loop leaves every word that a later round reads as written or unwritten as it
was, so a loop stops exactly where one of its reads does. -/

namespace Sys2Proof.Machine

/-! ### A command in flight -/

theorem beginCmd_idle (w : Word) {s : State} (h : s.status.busy = false) :
    beginCmd w s = .next (s.startCommand w) := by
  simp [beginCmd, h]

/-- The command in flight is the one that LAST_CMD records (R109). -/
theorem finishCmd_startCommand (w : Word) (s : State) :
    finishCmd (s.startCommand w) = runCommand w (s.startCommand w) := rfl

/-- Settles O7: the finish runs from the started state, as a CMD write does. -/
theorem splitCommandIsAtomicCommand : Obligations.SplitCommandIsAtomicCommand := by
  intro w s t hbusy hstart
  cases (beginCmd_idle w hbusy).symm.trans hstart
  exact (finishCmd_startCommand w s).trans (hostAccess_cmd w s hbusy).symm

/-- Settles O8: the write is the port's overrun. -/
theorem commandWriteWhileBusyOnlySetsOverrun : Obligations.CommandWriteWhileBusyOnlySetsOverrun :=
  hostAccess_cmd_busy

/-! ### Accesses with a command in flight -/

theorem Reg.ofOffset_ne {off : Nat} {r : Reg} (h : off ≠ r.offset) : Reg.ofOffset off ≠ some r :=
  fun hr => h (Reg.offset_of_ofOffset off r hr)

section
variable {s : State} (hbusy : s.status.busy = true)
include hbusy

theorem hostAccess_busy (a : Access) : hostAccess a s = busyAccess a s := if_pos hbusy

theorem hostAccess_read_status_busy :
    hostAccess (.read 0x0000000C#32 4) s = .next (s.answer s.status.toWord) := by
  rw [hostAccess_busy hbusy, busyAccess, targetOf_status]; rfl

theorem hostAccess_write_status_busy (v : Word) :
    hostAccess (.write 0x0000000C#32 4 v) s = .next (s.writeReg v .status) := by
  rw [hostAccess_busy hbusy, busyAccess, targetOf_status]; rfl

theorem hostAccess_write_irqEn_busy (v : Word) :
    hostAccess (.write 0x00000018#32 4 v) s = .next (s.writeReg v .irqEn) := by
  rw [hostAccess_busy hbusy, busyAccess, targetOf_irqEn]; rfl

variable {addr : Word} {size : Nat}

theorem hostAccess_read_reg_busy {off : Nat} (htarget : targetOf s.params addr size = .reg off)
    (hoff : off ≠ Reg.status.offset) :
    hostAccess (.read addr size) s = .refused (.protocolViolation (.read addr size)) := by
  have hstatus := Reg.ofOffset_ne hoff
  simp only [hostAccess_busy hbusy, busyAccess, htarget]

theorem hostAccess_write_reg_busy {off : Nat} (v : Word)
    (htarget : targetOf s.params addr size = .reg off)
    (hoff : off ∉ [Reg.cmd.offset, Reg.status.offset, Reg.irqEn.offset]) :
    hostAccess (.write addr size v) s = .refused (.protocolViolation (.write addr size v)) := by
  simp only [List.mem_cons, List.not_mem_nil, or_false, not_or] at hoff
  obtain ⟨hcmd, hstatus, hirqEn⟩ := hoff
  have hcmd := Reg.ofOffset_ne hcmd
  have hstatus := Reg.ofOffset_ne hstatus
  have hirqEn := Reg.ofOffset_ne hirqEn
  simp only [hostAccess_busy hbusy, busyAccess, htarget]

theorem hostAccess_word_busy {b : BufId} {i : Nat} (v : Word)
    (htarget : targetOf s.params addr size = .word b i) :
    hostAccess (.read addr size) s = .refused (.protocolViolation (.read addr size)) ∧
    hostAccess (.write addr size v) s = .refused (.protocolViolation (.write addr size v)) := by
  simp only [hostAccess_busy hbusy, busyAccess, htarget, and_self]

theorem hostAccess_nothing_busy (htarget : targetOf s.params addr size = .nothing) :
    hostAccess (.read addr size) s = .next s.rejectRead ∧
    ∀ v, hostAccess (.write addr size v) s = .next s.setAccErr := by
  simp only [hostAccess_busy hbusy, busyAccess, htarget, implies_true, and_self]

end

/-- Settles O9: each clause is the port's answer to one kind of target. -/
theorem accessesWhileBusy : Obligations.AccessesWhileBusy := fun s hbusy =>
  ⟨⟨hostAccess_read_status_busy hbusy, (s.status.getLsbD_toWord 0).trans hbusy⟩,
    hostAccess_write_status_busy hbusy,
    hostAccess_write_irqEn_busy hbusy,
    fun v => hostAccess_cmd_busy v s hbusy,
    fun _ _ => hostAccess_read_reg_busy hbusy,
    fun _ _ v => hostAccess_write_reg_busy hbusy v,
    fun _ _ _ v => hostAccess_word_busy hbusy v,
    fun _ _ => hostAccess_nothing_busy hbusy⟩

/-! ### Where a computation stops -/

/-- Reading the words `reads` of the state, `x` stops exactly at an unwritten one: it answers with
all of them written, or faults at one of them that is unwritten (R802). -/
def State.StopsAt {α : Type} (s : State) (reads : BufId → Nat → Prop) (x : Except Fault α) : Prop :=
  ((∀ b j, reads b j → (s.readWord b j).isSome) ∧ ∃ a, x = .ok a) ∨
  ∃ b j, reads b j ∧ s.readWord b j = none ∧ x = .error (.unwrittenWord b j)

section
variable {α β : Type} {s t : State} {p q : BufId → Nat → Prop} {x : Except Fault α}

theorem State.stopsAt_ok (s : State) (a : α) :
    s.StopsAt (fun _ _ => False) (.ok a : Except Fault α) :=
  .inl ⟨fun _ _ => False.elim, a, rfl⟩

theorem State.stopsAt_readWords (s : State) (b : BufId) (start n : Nat) :
    s.StopsAt (InRange b start n) (s.readWords b start n) := by
  obtain ⟨ws, hok, hwritten⟩ | ⟨j, hj, hnone, herror⟩ := s.readWords_cases b start n
  · refine .inl ⟨?_, ws, hok⟩
    rintro _ i ⟨rfl, hlo, hhi⟩
    obtain ⟨j, rfl⟩ := Nat.exists_eq_add_of_le hlo
    exact hwritten j (by omega)
  · exact .inr ⟨b, start + j, ⟨rfl, by omega, by omega⟩, hnone, herror⟩

theorem State.StopsAt.congr (h : s.StopsAt p x) (hpq : ∀ b j, q b j ↔ p b j) : s.StopsAt q x := by
  have hqp : q = p := funext₂ fun b j => propext (hpq b j)
  rwa [hqp]

theorem State.StopsAt.of_eq {y : Except Fault α} (h : s.StopsAt p x) (hy : y = x) :
    s.StopsAt p y := hy ▸ h

/-- With its reads written a computation answers. -/
theorem State.StopsAt.ok_of_written (h : s.StopsAt p x)
    (hwritten : ∀ b j, p b j → (s.readWord b j).isSome) : ∃ a, x = .ok a := by
  obtain ⟨-, hok⟩ | ⟨b, j, hread, hnone, -⟩ := h
  · exact hok
  · exact absurd hnone (Option.ne_none_iff_isSome.2 (hwritten b j hread))

/-- The reads may be made in another state in which the same ones of them are written. -/
theorem State.StopsAt.of_written_iff (h : t.StopsAt p x)
    (halike : ∀ b j, p b j → ((t.readWord b j).isSome ↔ (s.readWord b j).isSome)) :
    s.StopsAt p x := by
  obtain ⟨hwritten, hok⟩ | ⟨b, j, hread, hnone, herror⟩ := h
  · exact .inl ⟨fun b j hread => (halike b j hread).1 (hwritten b j hread), hok⟩
  · have := halike b j hread
    exact .inr ⟨b, j, hread, by simpa [hnone] using this, herror⟩

/-- A sequence stops at the reads of its first step, then at those of its second. -/
theorem State.StopsAt.bind {f : α → Except Fault β} (hx : s.StopsAt p x)
    (hf : ∀ a, x = .ok a → s.StopsAt q (f a)) :
    s.StopsAt (fun b j => p b j ∨ q b j) (x >>= f) := by
  obtain ⟨hp, a, rfl⟩ | ⟨b, j, hread, hnone, rfl⟩ := hx
  · obtain ⟨hq, hok⟩ | ⟨b, j, hread, hnone, herror⟩ := hf a rfl
    · exact .inl ⟨fun b j h => h.elim (hp b j) (hq b j), hok⟩
    · exact .inr ⟨b, j, .inr hread, hnone, herror⟩
  · exact .inr ⟨b, j, .inl hread, hnone, rfl⟩

/-- A second step that always answers adds no stop. -/
theorem State.StopsAt.bind_ok {f : α → Except Fault β} (hx : s.StopsAt p x)
    (hf : ∀ a, x = .ok a → ∃ c, f a = .ok c) : s.StopsAt p (x >>= f) := by
  refine (hx.bind (q := fun _ _ => False) fun a ha => ?_).congr
    fun b j => (or_iff_left not_false).symm
  obtain ⟨c, hc⟩ := hf a ha
  rw [hc]
  exact s.stopsAt_ok c

end

/-! ### Where a loop stops -/

section
variable {s u : State} {bufs : List BufId}

theorem forEach_succ_eq_bind (body : Nat → State → Except Fault State) (n : Nat) (s : State) :
    forEach body (n + 1) s = forEach body n s >>= body n := by
  rw [forEach_succ]
  cases forEach body n s <;> rfl

/-- A loop stops at the reads of its rounds, if every round does so from a state of the loop. -/
theorem forEach_stopsAt {body : Nat → State → Except Fault State}
    {reads : Nat → BufId → Nat → Prop} (P : State → Prop) (h0 : P u) (n : Nat)
    (hround : ∀ i < n, ∀ v, P v → s.StopsAt (reads i) (body i v))
    (hkeep : ∀ i < n, ∀ v w, P v → body i v = .ok w → P w) :
    s.StopsAt (fun b j => ∃ c < n, reads c b j) (forEach body n u) := by
  induction n with
  | zero => exact (s.stopsAt_ok u).congr (by simp)
  | succ n ih =>
    have hloop := ih (fun i hi => hround i (by omega)) (fun i hi => hkeep i (by omega))
    have hlast : ∀ v, forEach body n u = .ok v → s.StopsAt (reads n) (body n v) := fun v hv =>
      hround n (by omega) v
        (forEach_induct body (fun _ => P) n u v h0 (fun i hi => hkeep i (by omega)) hv)
    rw [forEach_succ_eq_bind]
    exact (hloop.bind hlast).congr fun b j => Nat.exists_lt_succ_right

/-- From `s` to `u` memory alone has changed, and in the buffers `bufs` the same words are
written. -/
structure State.WrittenAlike (s : State) (bufs : List BufId) (u : State) : Prop where
  mem_only : u = { s with mem := u.mem }
  written_iff : ∀ b ∈ bufs, ∀ j, (u.readWord b j).isSome ↔ (s.readWord b j).isSome

theorem State.writtenAlike_refl (s : State) (bufs : List BufId) : s.WrittenAlike bufs s :=
  ⟨rfl, fun _ _ _ => .rfl⟩

theorem State.WrittenAlike.storeWords (h : s.WrittenAlike bufs u) {b : BufId} (hb : b ∉ bufs)
    (start : Nat) (ws : List Word) : s.WrittenAlike bufs (u.storeWords b start ws) := by
  obtain ⟨hmem, hwritten⟩ := h
  refine ⟨s.mem_only_trans u hmem _, fun b' hb' j => ?_⟩
  rw [State.readWord_storeWords_ne u b b' start j ws fun h => hb (h ▸ hb')]
  exact hwritten b' hb' j

/-- A store over written words leaves every word as written or unwritten as it was. -/
theorem State.WrittenAlike.storeWords_over (h : s.WrittenAlike bufs u) {b : BufId} {start : Nat}
    {ws : List Word} (hover : ∀ j < ws.length, (u.readWord b (start + j)).isSome) :
    s.WrittenAlike bufs (u.storeWords b start ws) := by
  obtain ⟨hmem, hwritten⟩ := h
  refine ⟨s.mem_only_trans u hmem _, fun b' hb' j => ?_⟩
  rw [State.readWord_storeWords, ← hwritten b' hb' j]
  split
  case isTrue hin =>
    obtain ⟨rfl, hlo, hhi⟩ := hin
    obtain ⟨k, rfl⟩ := Nat.exists_eq_add_of_le hlo
    have hk : k < ws.length := by omega
    simp [hk, hover k hk]
  case isFalse => exact .rfl

theorem State.WrittenAlike.stopsAt {α : Type} {p : BufId → Nat → Prop} {x : Except Fault α}
    (h : s.WrittenAlike bufs u) (hx : u.StopsAt p x) (hp : ∀ b j, p b j → b ∈ bufs) :
    s.StopsAt p x :=
  hx.of_written_iff fun b j hread => h.written_iff b (hp b j hread) j

end

/-- A store writes each word of its range. -/
theorem State.isSome_readWord_of_inRange (s : State) {b b' : BufId} {start n j : Nat}
    {ws : List Word} (h : InRange b start n b' j) (hn : n ≤ ws.length) :
    ((s.storeWords b start ws).readWord b' j).isSome := by
  obtain ⟨rfl, hlo, hhi⟩ := h
  obtain ⟨k, rfl⟩ := Nat.exists_eq_add_of_le hlo
  exact s.isSome_readWord_stored b' start k ws (by omega)

theorem State.InSpectrum.mem {s : State} {c n j : Nat} {b : BufId} (h : s.InSpectrum c n b j) :
    b ∈ [BufId.specRe, .specIm] := by
  obtain ⟨rfl, -⟩ | ⟨rfl, -⟩ := h <;> decide

/-! ### Where the effects stop -/

section
variable (c : Nat) (m : Mode) (s : State)

theorem fwdEffect_stopsAt : s.StopsAt (InRange .chunk 0 s.sizeN) (fwdEffect c s) :=
  (s.stopsAt_readWords _ _ _).bind_ok fun _ _ => ⟨_, rfl⟩

/-- Both parts of a spectrum are read, the real one first. -/
theorem bothParts_stopsAt {α : Type} (n : Nat) (f : List Word → List Word → α) :
    s.StopsAt (s.InSpectrum c n) (do
      let re ← s.readWords .specRe (s.rowStart c) n
      let im ← s.readWords .specIm (s.rowStart c) n
      .ok (f re im)) :=
  (s.stopsAt_readWords _ _ _).bind fun _ _ =>
    (s.stopsAt_readWords _ _ _).bind_ok fun _ _ => ⟨_, rfl⟩

theorem invEffect_stopsAt : s.StopsAt (s.InSpectrum c (s.sizeN / 2)) (invEffect c s) :=
  (bothParts_stopsAt c s _ Spectrum.mk).bind_ok fun _ _ => ⟨_, rfl⟩

theorem frameEffect_stopsAt : s.StopsAt (s.InFrame m c) (frameEffect m c s) :=
  ((s.stopsAt_readWords _ _ _).bind_ok fun _ _ => ⟨_, rfl⟩).bind_ok fun _ _ => ⟨_, rfl⟩

theorem olaAddEffect_stopsAt : s.StopsAt
    (fun b j => InRange .out (c * s.hopH) s.sizeN b j ∨ InRange .chunk 0 s.sizeN b j)
    (olaAddEffect c s) :=
  (s.stopsAt_readWords _ _ _).bind fun _ _ =>
    (s.stopsAt_readWords _ _ _).bind_ok fun _ _ => ⟨_, rfl⟩

theorem olaScaleEffect_stopsAt : s.StopsAt (InRange .out 0 s.outN) (olaScaleEffect s) :=
  (s.stopsAt_readWords _ _ _).bind_ok fun _ _ => ⟨_, rfl⟩

/-! ### ANALYZE -/

/-- FWD finds the frame that the round has put into CHUNK. -/
theorem analyzeRound_stopsAt : s.StopsAt (s.InFrame m c) (analyzeRound m c s) := by
  refine (frameEffect_stopsAt c m s).bind_ok fun u hu => (fwdEffect_stopsAt c u).ok_of_written ?_
  obtain ⟨ws, hws, rfl⟩ := (frameEffect_ok_iff m c s u).1 hu
  exact fun b j hread => s.isSome_readWord_of_inRange hread (frameWords_length m c s ws hws).ge

theorem analyzeRound_writtenAlike {s u v : State} (h : s.WrittenAlike [.sig] u)
    (hv : analyzeRound m c u = .ok v) : s.WrittenAlike [.sig] v := by
  obtain ⟨w, hw, hfwd⟩ := (analyzeRound_ok_iff m c u v).1 hv
  obtain ⟨ws, -, rfl⟩ := (frameEffect_ok_iff m c u w).1 hw
  obtain ⟨y, -, rfl⟩ := (fwdEffect_ok_iff c _ v).1 hfwd
  exact ((h.storeWords (by decide) _ _).storeWords (by decide) _ _).storeWords (by decide) _ _

theorem analyzeEffect_stopsAt :
    s.StopsAt (fun b j => ∃ c < s.frameCount m, s.InFrame m c b j) (analyzeEffect m s) := by
  refine (forEach_stopsAt (s.WrittenAlike [.sig]) (s.writtenAlike_refl _) _ (fun i _ v hv => ?_)
    fun i _ v w hv hw => analyzeRound_writtenAlike i m hv hw).bind_ok fun _ _ => ⟨_, rfl⟩
  obtain ⟨mem, rfl⟩ : ∃ mem, v = { s with mem } := ⟨_, hv.mem_only⟩
  exact hv.stopsAt (analyzeRound_stopsAt i m _) fun b j hread => List.mem_singleton.2 hread.1

/-! ### SYNTH -/

/-- INV leaves its N words in CHUNK. -/
theorem invEffect_chunk_written {s u : State} (hu : invEffect c s = .ok u) {b : BufId} {j : Nat}
    (h : InRange .chunk 0 s.sizeN b j) : (u.readWord b j).isSome := by
  obtain ⟨p, -, rfl⟩ := (invEffect_ok_iff c s u).1 hu
  exact s.isSome_readWord_of_inRange h (s.inverseChunk_length c p).ge

theorem invEffect_sizeN {s u : State} (hu : invEffect c s = .ok u) : u.sizeN = s.sizeN := by
  rw [invEffect_mem_only c s u hu]; rfl

theorem synthRound_stopsAt : s.StopsAt (s.InSpectrum c (s.sizeN / 2)) (synthRound c s) := by
  refine (invEffect_stopsAt c s).bind_ok fun u hu => ?_
  refine ((u.stopsAt_readWords .chunk 0 u.sizeN).bind_ok fun _ _ => ⟨_, rfl⟩).ok_of_written ?_
  rw [invEffect_sizeN c hu]
  exact fun b j => invEffect_chunk_written c hu

theorem invEffect_writtenAlike {s u v : State} (h : s.WrittenAlike [.specRe, .specIm] u)
    (hv : invEffect c u = .ok v) : s.WrittenAlike [.specRe, .specIm] v := by
  obtain ⟨p, -, rfl⟩ := (invEffect_ok_iff c u v).1 hv
  exact h.storeWords (by decide) _ _

theorem synthRound_writtenAlike {s u v : State} (h : s.WrittenAlike [.specRe, .specIm] u)
    (hv : synthRound c u = .ok v) : s.WrittenAlike [.specRe, .specIm] v := by
  obtain ⟨w, x, hinv, -, rfl⟩ := (synthRound_ok_iff c u v).1 hv
  exact (invEffect_writtenAlike c h hinv).storeWords (by decide) _ _

theorem synthEffect_stopsAt :
    s.StopsAt (fun b j => ∃ c < s.chunksC, s.InSpectrum c (s.sizeN / 2) b j) (synthEffect s) := by
  refine (forEach_stopsAt (s.WrittenAlike [.specRe, .specIm]) (s.writtenAlike_refl _) _
    (fun i _ v hv => ?_) fun i _ v w hv hw => synthRound_writtenAlike i hv hw).bind_ok
    fun _ _ => ⟨_, rfl⟩
  obtain ⟨mem, rfl⟩ : ∃ mem, v = { s with mem } := ⟨_, hv.mem_only⟩
  exact hv.stopsAt (synthRound_stopsAt i _) fun b j hread => hread.mem

/-! ### SYNTH_OLA -/

/-- The output that the OLA_CLEAR of SYNTH_OLA zeroes is written. -/
def State.OutWritten (s u : State) : Prop := ∀ j < s.olaLength, (u.readWord .out j).isSome

theorem State.OutWritten.storeWords {s u : State} (h : s.OutWritten u) (b : BufId) (start : Nat)
    (ws : List Word) : s.OutWritten (u.storeWords b start ws) := fun j hj =>
  u.isSome_readWord_storeWords b .out start j ws (h j hj)

theorem State.outWritten_olaClear : s.OutWritten (olaClearEffect s) := fun j hj =>
  s.isSome_readWord_of_inRange (b := .out) (start := 0) (n := s.olaLength)
    (ws := List.replicate s.olaLength posZero) ⟨rfl, j.zero_le, by omega⟩ List.length_replicate.ge

/-- OLA_ADD finds the chunk of the round, and its output words lie in the cleared output. -/
theorem synthOlaRound_stopsAt (hout : s.OutWritten s) (hc : c < s.chunksC) :
    s.StopsAt (s.InSpectrum c (s.sizeN / 2)) (synthOlaRound c s) := by
  refine (invEffect_stopsAt c s).bind_ok fun u hu => (olaAddEffect_stopsAt c u).ok_of_written ?_
  have hhop : u.hopH = s.hopH := by rw [invEffect_mem_only c s u hu]; rfl
  rw [invEffect_sizeN c hu, hhop]
  rintro b j (⟨rfl, -, hj⟩ | hread)
  · obtain ⟨p, -, rfl⟩ := (invEffect_ok_iff c s u).1 hu
    have hle : c * s.hopH ≤ s.chunksC * s.hopH := Nat.mul_le_mul_right _ hc.le
    have hlen : s.olaLength = s.chunksC * s.hopH + s.sizeN := rfl
    exact hout.storeWords .chunk 0 _ j (by omega)
  · exact invEffect_chunk_written c hu hread

theorem synthOlaRound_writtenAlike {s u v : State} (h : s.WrittenAlike [.specRe, .specIm] u)
    (hv : synthOlaRound c u = .ok v) : s.WrittenAlike [.specRe, .specIm] v := by
  obtain ⟨w, hinv, hadd⟩ := (synthOlaRound_ok_iff c u v).1 hv
  obtain ⟨acc, x, -, -, rfl⟩ := (olaAddEffect_ok_iff c w v).1 hadd
  exact (invEffect_writtenAlike c h hinv).storeWords (by decide) _ _

theorem synthOlaRound_outWritten {s u v : State} (h : s.OutWritten u)
    (hv : synthOlaRound c u = .ok v) : s.OutWritten v := by
  obtain ⟨w, hinv, hadd⟩ := (synthOlaRound_ok_iff c u v).1 hv
  obtain ⟨p, -, rfl⟩ := (invEffect_ok_iff c u w).1 hinv
  obtain ⟨acc, x, -, -, rfl⟩ := (olaAddEffect_ok_iff c _ v).1 hadd
  exact (h.storeWords _ _ _).storeWords _ _ _

/-- A state of the loop of SYNTH_OLA: the spectra are written where they were, and the
cleared output is written. -/
structure State.SynthOlaLoop (s u : State) : Prop where
  spectra : (olaClearEffect s).WrittenAlike [.specRe, .specIm] u
  out : s.OutWritten u

theorem State.synthOlaLoop_olaClear : s.SynthOlaLoop (olaClearEffect s) :=
  ⟨State.writtenAlike_refl _ _, s.outWritten_olaClear⟩

theorem State.SynthOlaLoop.round {s u v : State} (h : s.SynthOlaLoop u)
    (hv : synthOlaRound c u = .ok v) : s.SynthOlaLoop v :=
  ⟨synthOlaRound_writtenAlike c h.spectra hv, synthOlaRound_outWritten c h.out hv⟩

theorem readWord_olaClearEffect {b : BufId} (hb : b ≠ .out) (j : Nat) :
    (olaClearEffect s).readWord b j = s.readWord b j :=
  s.readWord_storeWords_ne .out b 0 j (List.replicate s.olaLength posZero) hb

theorem synthOlaLoop_stopsAt :
    s.StopsAt (fun b j => ∃ c < s.chunksC, s.InSpectrum c (s.sizeN / 2) b j)
      (forEach synthOlaRound s.chunksC (olaClearEffect s)) := by
  refine State.StopsAt.of_written_iff (forEach_stopsAt (s := olaClearEffect s) s.SynthOlaLoop
    s.synthOlaLoop_olaClear _ (fun i hi v hv => ?_) fun i _ v w hv hw => hv.round i hw)
    fun b j hread => ?_
  · obtain ⟨halike, hout⟩ := hv
    obtain ⟨mem, rfl⟩ : ∃ mem, v = { olaClearEffect s with mem } := ⟨_, halike.mem_only⟩
    exact halike.stopsAt (synthOlaRound_stopsAt i _ hout hi) fun b j hread => hread.mem
  · obtain ⟨c, -, hin⟩ := hread
    have hb : b ≠ .out := by rintro rfl; exact absurd hin.mem (by decide)
    rw [readWord_olaClearEffect s hb]

/-- OUT_LEN is the length of the cleared output, cut to a word. -/
theorem State.SynthOlaLoop.outN_le {s u : State} (h : s.SynthOlaLoop u) : u.outN ≤ s.olaLength := by
  have hlen : u.outN = (BitVec.ofNat 32 s.olaLength).toNat := by rw [h.spectra.mem_only]; rfl
  rw [hlen, BitVec.toNat_ofNat]
  exact Nat.mod_le _ _

/-- OLA_SCALE finds the output that the loop has kept written. -/
theorem synthOlaEffect_stopsAt :
    s.StopsAt (fun b j => ∃ c < s.chunksC, s.InSpectrum c (s.sizeN / 2) b j)
      (synthOlaEffect s) := by
  refine (synthOlaLoop_stopsAt s).bind_ok fun t ht => (olaScaleEffect_stopsAt t).ok_of_written ?_
  have hloop : s.SynthOlaLoop t := forEach_induct _ (fun _ => s.SynthOlaLoop) _ _ t
    s.synthOlaLoop_olaClear (fun i _ v w hv hw => hv.round i hw) ht
  have hle := hloop.outN_le
  rintro b j ⟨rfl, -, hj⟩
  exact hloop.out j (by omega)

/-! ### The display commands -/

theorem magRound_stopsAt : s.StopsAt (s.InSpectrum c s.bandsM) (magRound c s) :=
  bothParts_stopsAt c s _ _

theorem magRound_writtenAlike {s u v : State} (h : s.WrittenAlike [.specRe, .specIm] u)
    (hv : magRound c u = .ok v) : s.WrittenAlike [.specRe, .specIm] v := by
  obtain ⟨re, im, -, -, rfl⟩ := (magRound_ok_iff c u v).1 hv
  exact h.storeWords (by decide) _ _

theorem magEffect_stopsAt :
    s.StopsAt (fun b j => ∃ c < s.chunksC, s.InSpectrum c s.bandsM b j) (magEffect s) := by
  refine (forEach_stopsAt (s.WrittenAlike [.specRe, .specIm]) (s.writtenAlike_refl _) _
    (fun i _ v hv => ?_) fun i _ v w hv hw => magRound_writtenAlike i hv hw).bind_ok
    fun _ _ => ⟨_, rfl⟩
  obtain ⟨mem, rfl⟩ : ∃ mem, v = { s with mem } := ⟨_, hv.mem_only⟩
  exact hv.stopsAt (magRound_stopsAt i _) fun b j hread => hread.mem

/-- The words of a row of the display matrix. -/
def State.InRow (s : State) (c : Nat) : BufId → Nat → Prop :=
  InRange .disp (c * s.params.rowLen) s.widthW

theorem State.readRow_stopsAt : s.StopsAt (s.InRow c) (s.readRow c) := s.stopsAt_readWords _ _ _

theorem State.leastHighest_stopsAt (n : Nat) :
    s.StopsAt (fun b j => ∃ c < n + 1, s.InRow c b j) (s.leastHighest n) := by
  induction n with
  | zero =>
    exact ((s.readRow_stopsAt 0).bind_ok fun _ _ => ⟨_, rfl⟩).congr (by simp)
  | succ n ih =>
    exact (ih.bind fun m _ => (s.readRow_stopsAt (n + 1)).bind_ok fun _ _ => ⟨_, rfl⟩).congr
      fun b j => Nat.exists_lt_succ_right

theorem trimEffect_stopsAt :
    s.StopsAt (fun b j => ∃ c < s.rowsRd, s.InRow c b j) (trimEffect s) := by
  unfold trimEffect
  split
  case h_1 hrows => exact (s.stopsAt_ok s).congr (by simp [hrows])
  case h_2 last hrows =>
    rw [hrows]
    exact (s.leastHighest_stopsAt last).bind_ok fun _ _ => ⟨_, rfl⟩

theorem dbRound_stopsAt : s.StopsAt (s.InRow c) (dbRound c s) :=
  (s.readRow_stopsAt c).bind_ok fun _ _ => ⟨_, rfl⟩

/-- A round of DB stores over the words that it has read. -/
theorem dbRound_writtenAlike {s u v : State} (h : s.WrittenAlike [.disp] u)
    (hv : dbRound c u = .ok v) : s.WrittenAlike [.disp] v := by
  obtain ⟨row, hrow, rfl⟩ := (dbRound_ok_iff c u v).1 hv
  obtain ⟨hlen, hread⟩ := (u.readWords_ok_iff .disp _ _ row).1 hrow
  refine h.storeWords_over fun j hj => ?_
  rw [State.decibels_length] at hj
  rw [hread j (hlen ▸ hj), List.getElem?_eq_getElem hj]
  rfl

theorem forEach_dbRound_stopsAt :
    s.StopsAt (fun b j => ∃ c < s.rowsRd, s.InRow c b j) (forEach dbRound s.rowsRd s) := by
  refine forEach_stopsAt (s.WrittenAlike [.disp]) (s.writtenAlike_refl _) _ (fun i _ v hv => ?_)
    fun i _ v w hv hw => dbRound_writtenAlike i hv hw
  obtain ⟨mem, rfl⟩ : ∃ mem, v = { s with mem } := ⟨_, hv.mem_only⟩
  exact hv.stopsAt (dbRound_stopsAt i _) fun b j hread => List.mem_singleton.2 hread.1

end

/-! ### Where the commands stop -/

/-- The effect of every command stops exactly at the words the command reads. -/
theorem effectOf_stopsAt (i : Instr) (s : State) : s.StopsAt (s.Reads i) (effectOf i s) := by
  cases i with
  | nop | config | olaClear | band => exact s.stopsAt_ok _
  | fwd c => exact fwdEffect_stopsAt c s
  | inv c => exact invEffect_stopsAt c s
  | frame m c => exact frameEffect_stopsAt c m s
  | analyze m => exact analyzeEffect_stopsAt m s
  | olaAdd c => exact olaAddEffect_stopsAt c s
  | olaScale => exact olaScaleEffect_stopsAt s
  | synth => exact synthEffect_stopsAt s
  | synthOla => exact synthOlaEffect_stopsAt s
  | zeroBand =>
    obtain ⟨t, ht, -⟩ := forEach_zeroBandRound s.chunksC s
    exact (s.stopsAt_ok t).of_eq ht
  | mag => exact magEffect_stopsAt s
  | trim => exact trimEffect_stopsAt s
  | db => exact forEach_dbRound_stopsAt s

/-- The checks of a command pass where none of them fails. -/
theorem State.passes_iff (i : Instr) (s : State) :
    s.Passes i ↔ firstFailure (s.checksOf i) = none := by
  cases i with
  | config => exact .rfl
  | olaClear | synthOla =>
    show _ ∧ _ ∧ s.olaLength ≤ s.params.outCap ↔ firstFailure s.olaChecks = none
    simp [firstFailure_eq_none_iff, State.olaChecks, State.configured, State.chunksFit]
  | _ =>
    simp [State.Passes, State.checksOf, firstFailure_eq_none_iff, State.configured,
      State.signalFits, State.chunksFit, State.zeroBandChecks]

section
variable {i : Instr} {s : State}

/-- A command that fails a check completes. -/
theorem exec_of_not_passes (h : ¬ s.Passes i) : ∃ t, exec i s = .next t := by
  rw [s.passes_iff] at h
  obtain ⟨code, hcode⟩ := Option.ne_none_iff_exists'.1 h
  by_cases hi : i = .config
  · subst hi
    rw [exec_config, execConfig, show firstFailure s.configChecks = some code from hcode]
    exact ⟨_, rfl⟩
  · rw [exec_of_ne_config s hi]
    exact ⟨_, s.runChecked_of_fail _ _ code hcode⟩

theorem exec_of_effect_ok {u : State} (h : s.Passes i) (hu : effectOf i s = .ok u) :
    exec i s = .next u.succeed := by
  rw [s.passes_iff] at h
  by_cases hi : i = .config
  · subst hi
    cases hu
    exact execConfig_of_ok h
  · rw [exec_of_ne_config s hi]
    exact s.runChecked_of_ok u _ _ h hu

theorem exec_of_effect_error {f : Fault} (h : s.Passes i) (hf : effectOf i s = .error f) :
    exec i s = .fault f := by
  rw [s.passes_iff] at h
  have hi : i ≠ .config := by rintro rfl; cases hf
  rw [exec_of_ne_config s hi, State.runChecked, h, hf]

end

/-- A command completes, with every word that it reads written if it passes its checks, or passes
them and faults at a word that it reads. -/
theorem exec_stops (i : Instr) (s : State) :
    (∃ t, exec i s = .next t ∧
      (s.Passes i → ∀ b j, s.Reads i b j → (s.readWord b j).isSome)) ∨
    (s.Passes i ∧ ∃ b j, s.Reads i b j ∧ s.readWord b j = none ∧
      exec i s = .fault (.unwrittenWord b j)) := by
  by_cases hpass : s.Passes i
  · obtain ⟨hwritten, u, hu⟩ | ⟨b, j, hread, hnone, herror⟩ := effectOf_stopsAt i s
    · exact .inl ⟨_, exec_of_effect_ok hpass hu, fun _ => hwritten⟩
    · exact .inr ⟨hpass, b, j, hread, hnone, exec_of_effect_error hpass herror⟩
  · obtain ⟨t, ht⟩ := exec_of_not_passes hpass
    exact .inl ⟨t, ht, fun h => absurd h hpass⟩

/-- Settles O34: the two ways a command can end exclude each other. -/
theorem commandsFaultExactlyAtUnwrittenWords :
    Obligations.CommandsFaultExactlyAtUnwrittenWords := by
  intro i s
  obtain ⟨t, ht, hwritten⟩ | ⟨hpass, b, j, hread, hnone, hfault⟩ := exec_stops i s
  · rw [ht]
    refine ⟨fun hpass ⟨b, j, hread, hnone⟩ => ?_, nofun, nofun⟩
    exact absurd hnone (Option.ne_none_iff_isSome.2 (hwritten hpass b j hread))
  · rw [hfault]
    refine ⟨fun _ _ => ⟨b, j, hread, hnone, rfl⟩, fun f hf => ?_, nofun⟩
    cases hf
    exact ⟨hpass, b, j, hread, hnone, rfl⟩

/-! ### Commands that never fault -/

/-- The display matrix of a state with the invariant is written. -/
theorem State.Invariant.row_written {s : State} (h : s.Invariant) {c j : Nat} {b : BufId}
    (hc : c < s.rowsRd) (hread : s.InRow c b j) : (s.readWord b j).isSome := by
  obtain ⟨rfl, hlo, hhi⟩ := hread
  obtain ⟨k, rfl⟩ := Nat.exists_eq_add_of_le hlo
  exact h.dispWritten c hc k (by omega)

/-- The commands that read nothing, OUT up to OUT_LEN or the display matrix find what they read
written. -/
theorem State.Invariant.reads_written {s : State} (h : s.Invariant) {i : Instr}
    (hi : i ∈ [Instr.nop, .config, .olaClear, .olaScale, .band, .zeroBand, .trim, .db])
    {b : BufId} {j : Nat} (hread : s.Reads i b j) : (s.readWord b j).isSome := by
  cases i with
  | nop | config | olaClear | band | zeroBand => exact hread.elim
  | olaScale =>
    obtain ⟨rfl, -, hj⟩ := hread
    exact h.outWritten j (by omega)
  | trim | db =>
    obtain ⟨c, hc, hin⟩ := hread
    exact h.row_written hc hin
  | fwd | inv | frame | analyze | olaAdd | synth | synthOla | mag => simp at hi

/-- Settles O60: a fault would be at a word that the invariant says is written. -/
theorem commandsThatNeverFault : Obligations.CommandsThatNeverFault := by
  intro s h i hi
  obtain ⟨t, ht, -⟩ | ⟨-, b, j, hread, hnone, -⟩ := exec_stops i s
  · exact ⟨t, ht⟩
  · exact absurd hnone (Option.ne_none_iff_isSome.2 (h.reads_written hi hread))

end Sys2Proof.Machine
end
